-- ==== Sys2Proof/Word.lean ====
section
/-!
DEFINITION. The word types of the block (00_scope.md R12, 30_encoding.md R68, R69).
-/
namespace Sys2Proof

/-- One port transfer, EC RAM address, pin, index or data value (R12: 8 bits each). -/
abbrev Byte := BitVec 8

/-- An SMBus word result (R12: 16 bits). -/
abbrev Word16 := BitVec 16

/-- The value field of a response, and every result (R12, R121: 32 bits unsigned). -/
abbrev Word32 := BitVec 32

/-- A request descriptor `REQ` (R68: 40 bits, `0x a3 a2 a1 a0 op`). -/
abbrev Req := BitVec 40

/-- A response word `RESP` (R69: 40 bits, `kind` in bits 7:0, `value` in bits 39:8). -/
abbrev Resp := BitVec 40

end Sys2Proof
end

