-- ==== Sys2Proof/Syntax.lean ====
section
/-!
DEFINITION. The operations of the block as data: one constructor per row of the operation map
(30_encoding.md R72, spec/opcode_table.json), with the operand bytes in the order a0, a1, a2, a3.
-/
namespace Sys2Proof

/-- One operation request (R3, R72). -/
inductive Instr where
  | waitIbf
  | waitObf
  | ramRead (addr : Byte)
  | ramWrite (addr value : Byte)
  | acpiRead (addr : Byte)
  | acpiWrite (addr value : Byte)
  | gpioStatusRead (pin : Byte)
  | gpioStatusWrite (pin value : Byte)
  | gpioDirRead (pin : Byte)
  | gpioDirWrite (pin value : Byte)
  | adRead (index mult : Byte)
  | onekeyRead (addr : Byte)
  | onekeyWrite (addr value : Byte)
  | oemRead (addr : Byte)
  | oemWrite (addr value : Byte)
  | smbReadByte (channel slave reg : Byte)
  | smbWriteByte (channel slave reg data : Byte)
  | smbReadWord (channel slave reg : Byte)
  | tableScan
  | tableRead (index : Byte)
deriving DecidableEq, Repr, Inhabited

end Sys2Proof
end

