-- ==== Sys2Proof/Decode.lean ====
section
/-!
DEFINITION. From the bytes of a request descriptor to an operation or a rejection by name, and back
(30_encoding.md R68, R72, R73, R74, R76). A descriptor is five bytes, `op` first.
-/
namespace Sys2Proof

/-- Why bytes are no request (R74, R76). -/
inductive Reject where
  /-- Fewer than the five bytes of a descriptor. -/
  | tooShort
  /-- An `op` that is not in the map of R72. -/
  | reservedOp (op : Byte)
  /-- A reserved operand byte that is not 0x00. -/
  | reservedOperand
deriving DecidableEq, Repr

/-- An operation whose reserved operand bytes are `reserved`: they must all be zero (R73). -/
def reserving (reserved : List Byte) (i : Instr) : Except Reject Instr :=
  if reserved.all (· == 0) then .ok i else .error .reservedOperand

/-- The operation map of R72, read by the fields of R68. -/
def decodeFields (op a0 a1 a2 a3 : Byte) : Except Reject Instr :=
  match op.toNat with
  | 0x01 => reserving [a0, a1, a2, a3] .waitIbf
  | 0x02 => reserving [a0, a1, a2, a3] .waitObf
  | 0x10 => reserving [a1, a2, a3] (.ramRead a0)
  | 0x11 => reserving [a2, a3] (.ramWrite a0 a1)
  | 0x20 => reserving [a1, a2, a3] (.acpiRead a0)
  | 0x21 => reserving [a2, a3] (.acpiWrite a0 a1)
  | 0x22 => reserving [a1, a2, a3] (.gpioStatusRead a0)
  | 0x23 => reserving [a2, a3] (.gpioStatusWrite a0 a1)
  | 0x24 => reserving [a1, a2, a3] (.gpioDirRead a0)
  | 0x25 => reserving [a2, a3] (.gpioDirWrite a0 a1)
  | 0x26 => reserving [a2, a3] (.adRead a0 a1)
  | 0x28 => reserving [a1, a2, a3] (.onekeyRead a0)
  | 0x29 => reserving [a2, a3] (.onekeyWrite a0 a1)
  | 0x2A => reserving [a1, a2, a3] (.oemRead a0)
  | 0x2B => reserving [a2, a3] (.oemWrite a0 a1)
  | 0x30 => reserving [a3] (.smbReadByte a0 a1 a2)
  | 0x31 => reserving [] (.smbWriteByte a0 a1 a2 a3)
  | 0x32 => reserving [a3] (.smbReadWord a0 a1 a2)
  | 0x40 => reserving [a0, a1, a2, a3] .tableScan
  | 0x41 => reserving [a1, a2, a3] (.tableRead a0)
  | _ => .error (.reservedOp op)

/-- Decoding of a byte stream: the first five bytes, and the rest of the stream (R76). -/
def decode : List Byte → Except Reject (Instr × List Byte)
  | op :: a0 :: a1 :: a2 :: a3 :: rest => (decodeFields op a0 a1 a2 a3).map (·, rest)
  | [] | [_] | [_, _] | [_, _, _] | [_, _, _, _] => .error .tooShort

/-- The five bytes of a descriptor, bits 7:0 first (R68). -/
def reqBytes (w : Req) : List Byte :=
  [w.extractLsb' 0 8, w.extractLsb' 8 8, w.extractLsb' 16 8, w.extractLsb' 24 8, w.extractLsb' 32 8]

/-- Decoding of one whole descriptor. -/
def decodeReq (w : Req) : Except Reject Instr :=
  (decode (reqBytes w)).map (·.1)

/-- The descriptor that a table row's bits `w` stand for, every bit above `nbits` zero. -/
def tableReq (nbits w : Nat) : Req :=
  BitVec.ofNat 40 (w % 2 ^ nbits)

/-- The operation the decoder reads from an opcode-table row's bits. -/
def decodeTableWord (nbits w : Nat) : Option Instr :=
  (decodeReq (tableReq nbits w)).toOption

/-- The `op` column of R72. -/
def Instr.opcode : Instr → Byte
  | .waitIbf => 0x01
  | .waitObf => 0x02
  | .ramRead _ => 0x10
  | .ramWrite _ _ => 0x11
  | .acpiRead _ => 0x20
  | .acpiWrite _ _ => 0x21
  | .gpioStatusRead _ => 0x22
  | .gpioStatusWrite _ _ => 0x23
  | .gpioDirRead _ => 0x24
  | .gpioDirWrite _ _ => 0x25
  | .adRead _ _ => 0x26
  | .onekeyRead _ => 0x28
  | .onekeyWrite _ _ => 0x29
  | .oemRead _ => 0x2A
  | .oemWrite _ _ => 0x2B
  | .smbReadByte _ _ _ => 0x30
  | .smbWriteByte _ _ _ _ => 0x31
  | .smbReadWord _ _ _ => 0x32
  | .tableScan => 0x40
  | .tableRead _ => 0x41

/-- The operand columns a0 to a3 of R72, a reserved operand as 0x00. -/
def Instr.operands : Instr → Byte × Byte × Byte × Byte
  | .waitIbf | .waitObf | .tableScan => (0, 0, 0, 0)
  | .ramRead a0 | .acpiRead a0 | .gpioStatusRead a0 | .gpioDirRead a0 => (a0, 0, 0, 0)
  | .onekeyRead a0 | .oemRead a0 | .tableRead a0 => (a0, 0, 0, 0)
  | .ramWrite a0 a1 | .acpiWrite a0 a1 | .gpioStatusWrite a0 a1 | .gpioDirWrite a0 a1 => (a0, a1, 0, 0)
  | .adRead a0 a1 | .onekeyWrite a0 a1 | .oemWrite a0 a1 => (a0, a1, 0, 0)
  | .smbReadByte a0 a1 a2 | .smbReadWord a0 a1 a2 => (a0, a1, a2, 0)
  | .smbWriteByte a0 a1 a2 a3 => (a0, a1, a2, a3)

/-- The mask of an operation's table row: bits 7:0 and every reserved operand byte (R73). -/
def Instr.mask : Instr → Req
  | .waitIbf | .waitObf | .tableScan => 0xFFFFFFFFFF
  | .ramRead _ | .acpiRead _ | .gpioStatusRead _ | .gpioDirRead _ => 0xFFFFFF00FF
  | .onekeyRead _ | .oemRead _ | .tableRead _ => 0xFFFFFF00FF
  | .ramWrite _ _ | .acpiWrite _ _ | .gpioStatusWrite _ _ | .gpioDirWrite _ _ => 0xFFFF0000FF
  | .adRead _ _ | .onekeyWrite _ _ | .oemWrite _ _ => 0xFFFF0000FF
  | .smbReadByte _ _ _ | .smbReadWord _ _ _ => 0xFF000000FF
  | .smbWriteByte _ _ _ _ => 0x00000000FF

/-- The match of an operation's table row: `op` in bits 7:0 and zeros (R73). -/
def Instr.pattern (i : Instr) : Req :=
  i.opcode.setWidth 40

/-- The five bytes of an operation's descriptor (R68). -/
def encode (i : Instr) : List Byte :=
  [i.opcode, i.operands.1, i.operands.2.1, i.operands.2.2.1, i.operands.2.2.2]

/-- Five fields as one descriptor, `0x a3 a2 a1 a0 op` (R68). -/
def packReq (op a0 a1 a2 a3 : Byte) : Req :=
  a3 ++ (a2 ++ (a1 ++ (a0 ++ op)))

/-- An operation's descriptor as one 40-bit number. -/
def encodeReq (i : Instr) : Req :=
  packReq i.opcode i.operands.1 i.operands.2.1 i.operands.2.2.1 i.operands.2.2.2

end Sys2Proof
end

