-- ==== Sys2Proof/Machine/Flags.lean ====
section
/-!
DEFINITION. The status byte's two flags and the tests on bytes that the EC answers, with the constants
that the document fixes (00_scope.md R11, 10_state.md R35, R38). The block has no flag of its own.
-/
namespace Sys2Proof.Machine

/-- OBF, bit 0 of the status byte: a result is ready at DATA (R35). -/
def statusObf (status : Byte) : Bool :=
  status.getLsbD 0

/-- IBF, bit 1 of the status byte: the EC is busy processing a write (R35). -/
def statusIbf (status : Byte) : Bool :=
  status.getLsbD 1

/-- `WaitIBF()` succeeds on this status byte (R78: `s[1] == 0`). -/
def ibfClear (status : Byte) : Bool :=
  !statusIbf status

/-- `WaitOBF()` succeeds on this status byte (R79: `s[0] == 1`). -/
def obfSet (status : Byte) : Bool :=
  statusObf status

/-- The byte is the "undefined" sentinel 0xFF (R11, R95, R118). -/
def isSentinel (b : Byte) : Bool :=
  b == 0xFF

/-- `SMBUS_PROTOCOL` reads as "engine idle" (R11, R110). -/
def engineIdle (pr : Byte) : Bool :=
  pr == 0x00

/-- `SMBUS_STATUS` reads as "ready/success" (R11, R111): the whole byte is 0x80. -/
def smbusSuccess (st : Byte) : Bool :=
  st == 0x80

end Sys2Proof.Machine
end

