-- ==== Sys2Proof/Config.lean ====
section
/-!
DEFINITION. What one instance fixes (the configuration record of 00_scope.md R8 to R12), what the
environment supplies (turns and EC answers), and the free values, which have no body.
-/
namespace Sys2Proof

/-- `SMBUS_LOCK_SCOPE` (R9, R108). -/
inductive LockScope where
  | perStep
  | wholeTransaction
deriving DecidableEq, Repr, Inhabited

/-- The configuration record of R8: fixed for the life of one attached instance. The constraints of
R9 and R10 are `Config.wf` (WellFormed.lean). -/
structure Config where
  /-- `MAX_POLL` (R9): status reads of one wait. -/
  maxPoll : Nat
  /-- `POLL_DELAY_US` (R9): timing only, no rule reads it (R153). -/
  pollDelayUs : Nat
  /-- `SMB_MAX_POLL` (R9): idle-poll reads of one SMBus transaction. -/
  smbMaxPoll : Nat
  /-- `SMB_POLL_DELAY_US` (R9): timing only, no rule reads it (R153). -/
  smbPollDelayUs : Nat
  /-- `N_TBL` (R9): entries of the dynamic table. -/
  nTbl : Nat
  /-- `N_CLIENTS` (R9): client sequencers. -/
  nClients : Nat
  /-- `SMBUS_LOCK_SCOPE` (R9). -/
  smbusLockScope : LockScope
  /-- `IO_ADDR_BITS` (R12): the width of an I/O address. -/
  ioAddrBits : Nat
  /-- `PORT_CMD`, `PORT_DATA` (R10): the I/O addresses of COMMAND and DATA. -/
  portCmd : Nat
  portData : Nat
  /-- The EC opcodes of R10, any bytes, not required to be distinct. -/
  opRamRead : Byte
  opRamWrite : Byte
  opAcpiRead : Byte
  opAcpiWrite : Byte
  opGpioStatusRead : Byte
  opGpioStatusWrite : Byte
  opGpioDirRead : Byte
  opGpioDirWrite : Byte
  opAdIndex : Byte
  opAdLsb : Byte
  opAdMsb : Byte
  opOnekeyRead : Byte
  opOnekeyWrite : Byte
  opOemRead : Byte
  opOemWrite : Byte
  opTblSelect : Byte
  opTblGetPin : Byte
  opTblGetDevice : Byte
  /-- The EC RAM addresses of the SMBus proxy cells (R10, R39). `SMBUS_DATA_OFFSET(0)` is
  `smbusData` (90_conflicts.md C3). -/
  smbusChannel : Byte
  smbusSlvAddr : Byte
  smbusCmd : Byte
  smbusData : Byte
  smbusProtocol : Byte
  smbusStatus : Byte
  smbusDataOffset1 : Byte
  /-- The values written to `SMBUS_PROTOCOL` (R10). -/
  modeByteRead : Byte
  modeByteWrite : Byte
  modeWordRead : Byte
deriving DecidableEq, Repr, Inhabited

/-- The two locations of the port pair (R34). -/
inductive Port where
  | command
  | data
deriving DecidableEq, Repr, Inhabited

/-- One event of the port trace (R27), tagged with the client that performed it. A port is given
by its I/O address. -/
inductive Event where
  | input (client port : Nat) (value : Byte)
  | output (client port : Nat) (value : Byte)
  | acquire (client : Nat)
  | release (client : Nat)
deriving DecidableEq, Repr, Inhabited

/-- What the environment lets happen next (R19, R136: the schedule is free). A client presents a
request, takes the next step of its running operation, or collects its response (R30). The
lifecycle host attaches (`none` is `AttachError`, R139) or detaches (R141). -/
inductive Turn where
  | request (client : Nat) (req : Req)
  | run (client : Nat)
  | collect (client : Nat)
  | attach (product : Option String)
  | detach
deriving DecidableEq, Repr, Inhabited

namespace Config

/-- FREE VALUE. The EC oracle of R53: the byte answered to a read, given the trace so far, the port's
address and a free choice (the count of reads made so far). Used where the state's script of
answers has run out. -/
opaque ecAnswer : List Event → Nat → Nat → Byte

/-- FREE VALUE. The free schedule of R61 and R136: the turn taken where the state's schedule has
run out, for each count of turns taken so far. -/
opaque freeTurn : Nat → Turn

/-- FREE VALUE. The parameters that the spec leaves OPEN (R7, R10, 93_implementation_defined.md U16,
U17): one configuration nobody can see. -/
opaque board : Config

/-- FREE VALUE. `N_CLIENTS` less one (R9: `N_CLIENTS` ≥ 1, OPEN). -/
opaque moreClients : Nat

/-- FREE VALUE. The product string the lifecycle host supplied at attach (R26, U18). -/
opaque product : String

end Config

end Sys2Proof
end

