-- ==== Sys2Proof/WellFormed.lean ====
section
/-!
DEFINITION. When a configuration and a request make sense: the constraints of 00_scope.md R9 and R10,
and the one operand of the operation map whose range the block checks (30_encoding.md R75, item 4).
Also the configuration at reset, which meets those constraints.
-/
namespace Sys2Proof

/-- The bounds of R9. -/
def Config.countsOk (k : Config) : Bool :=
  decide (1 ≤ k.maxPoll) && decide (1 ≤ k.smbMaxPoll) && decide (1 ≤ k.nTbl) && decide (k.nTbl ≤ 256)
    && decide (1 ≤ k.nClients)

/-- The port constraint of R10, each address within `IO_ADDR_BITS` (R12). -/
def Config.portsOk (k : Config) : Bool :=
  decide (k.portCmd ≠ k.portData) && decide (k.portCmd < 2 ^ k.ioAddrBits)
    && decide (k.portData < 2 ^ k.ioAddrBits)

/-- The seven SMBus proxy cells (R39). -/
def Config.cells (k : Config) : List Byte :=
  [k.smbusChannel, k.smbusSlvAddr, k.smbusCmd, k.smbusData, k.smbusProtocol, k.smbusStatus, k.smbusDataOffset1]

/-- The cells are pairwise distinct (R10). -/
def Config.cellsOk (k : Config) : Bool :=
  decide k.cells.Nodup

/-- The modes are pairwise distinct and none is zero (R10). -/
def Config.modesOk (k : Config) : Bool :=
  decide [k.modeByteRead, k.modeByteWrite, k.modeWordRead, 0].Nodup

/-- A configuration the spec allows (R9, R10). -/
def Config.wf (k : Config) : Bool :=
  k.countsOk && k.portsOk && k.cellsOk && k.modesOk

/-- A configuration that meets R9 and R10, used only where the unseen `Config.board` does not: it
makes `Config.atReset` provably well formed, and nothing else rests on its values. -/
def Config.fallback : Config where
  maxPoll := 1000
  pollDelayUs := 0
  smbMaxPoll := 1000
  smbPollDelayUs := 0
  nTbl := 32
  nClients := 1
  smbusLockScope := .perStep
  ioAddrBits := 1
  portCmd := 1
  portData := 0
  opRamRead := 0
  opRamWrite := 0
  opAcpiRead := 0
  opAcpiWrite := 0
  opGpioStatusRead := 0
  opGpioStatusWrite := 0
  opGpioDirRead := 0
  opGpioDirWrite := 0
  opAdIndex := 0
  opAdLsb := 0
  opAdMsb := 0
  opOnekeyRead := 0
  opOnekeyWrite := 0
  opOemRead := 0
  opOemWrite := 0
  opTblSelect := 0
  opTblGetPin := 0
  opTblGetDevice := 0
  smbusChannel := 0
  smbusSlvAddr := 1
  smbusCmd := 2
  smbusData := 3
  smbusProtocol := 4
  smbusStatus := 5
  smbusDataOffset1 := 6
  modeByteRead := 1
  modeByteWrite := 2
  modeWordRead := 3

/-- The open parameters of the board, as far as they meet R9 and R10. -/
def Config.valid (k : Config) : Config :=
  if k.wf then k else Config.fallback

/-- The configuration at reset: the defaults of R9 where it gives one (`MAX_POLL`, `SMB_MAX_POLL`,
`N_TBL`, `SMBUS_LOCK_SCOPE`), and values nobody can see for every OPEN parameter. -/
def Config.atReset : Config :=
  { Config.valid Config.board with
    maxPoll := 1000
    smbMaxPoll := 1000
    nTbl := 32
    smbusLockScope := .perStep
    nClients := Config.moreClients + 1 }

/-- A request whose operands are all in range for a table of `nTbl` entries. Every operand is a
byte and any byte is legal (R52), but for TABLE_READ's index (R75, item 4). -/
def Instr.wellFormed (nTbl : Nat) : Instr → Bool
  | .tableRead index => decide (index.toNat < nTbl)
  | .waitIbf | .waitObf | .ramRead _ | .ramWrite _ _ | .acpiRead _ | .acpiWrite _ _ => true
  | .gpioStatusRead _ | .gpioStatusWrite _ _ | .gpioDirRead _ | .gpioDirWrite _ _ => true
  | .adRead _ _ | .onekeyRead _ | .onekeyWrite _ _ | .oemRead _ | .oemWrite _ _ => true
  | .smbReadByte _ _ _ | .smbWriteByte _ _ _ _ | .smbReadWord _ _ _ | .tableScan => true

end Sys2Proof
end

