-- ==== Sys2Proof/Machine/State.lean ====
section
/-!
DEFINITION. The state of the block (10_state.md): the Controller Context, the client sequencers, and
beside them the environment's inputs as plain data. EC-owned state is not here: the block keeps none
of it (R40, R44) and sees it only as answers to port reads (R53). The block has no memory (R43).
-/
namespace Sys2Proof.Machine

/-- `life` (R21). -/
inductive Life where
  | detached
  | attached
deriving DecidableEq, Repr, Inhabited

/-- The Transaction Lock (R22). -/
inductive Lock where
  | free
  | held (client : Nat)
deriving DecidableEq, Repr, Inhabited

/-- `scanStatus` (R25). -/
inductive ScanStatus where
  | notRun
  | running
  | done
  | failed
deriving DecidableEq, Repr, Inhabited

/-- One entry of the dynamic table (R23, R41). -/
structure Entry where
  deviceId : Byte
  hwPinNumber : Byte
deriving DecidableEq, Repr, Inhabited

/-- The result of an operation: success with a value, or one of the four error kinds (R120, R121). -/
inductive Response where
  | ok (value : Word32)
  | timeout
  | invalidTarget
  | smbusError (code : Byte)
  | invalidTable
deriving DecidableEq, Repr, Inhabited

/-- The byte latches of a sequencer (R31). -/
inductive Latch where
  | op | a0 | a1 | a2 | a3 | chk | lsb | msb | pin | dev | st | pr | d0 | d1 | v
deriving DecidableEq, Repr, Inhabited

/-- The counters among the latches (R31, R134). -/
inductive Counter where
  | poll | spoll | idx
deriving DecidableEq, Repr, Inhabited

/-- The latches of R31. `none` is the spec's own "no value (unwritten)" (R42): R31 asks that an
unwritten latch hold no value and that reading it be a model fault. -/
structure Latches where
  op : Option Byte := none
  a0 : Option Byte := none
  a1 : Option Byte := none
  a2 : Option Byte := none
  a3 : Option Byte := none
  chk : Option Byte := none
  lsb : Option Byte := none
  msb : Option Byte := none
  pin : Option Byte := none
  dev : Option Byte := none
  st : Option Byte := none
  pr : Option Byte := none
  d0 : Option Byte := none
  d1 : Option Byte := none
  v : Option Byte := none
  poll : Option Nat := none
  spoll : Option Nat := none
  idx : Option Nat := none
  res : Option Response := none
deriving DecidableEq, Repr, Inhabited

/-- Where a sequencer stands within the step that `pc` names: at its start, inside the loop of a wait
(a status read has failed), or with an error raised and only its `Release()` left (R127). -/
inductive Stage where
  | start
  | again
  | abort (error : Response)
deriving DecidableEq, Repr, Inhabited

/-- `phase[c]` with the micro-step index `pc[c]`, which means something only while Busy (R30, R32). -/
inductive Phase where
  | idle
  | busy (pc : Nat) (stage : Stage)
  | complete
deriving DecidableEq, Repr, Inhabited

/-- One client's sequencer (R30, R31, R32). -/
structure Sequencer where
  phase : Phase := .idle
  latches : Latches := {}
deriving DecidableEq, Repr, Inhabited

/-- Why the model stops. No state that meets the invariant `Inv` (Safety.lean) leads to any of these. -/
inductive Fault where
  /-- Raised by any step that reads a byte latch the running operation has not written (R31, U13:
  "a model fault and not a zero"). Safe. -/
  | unwrittenLatch (latch : Latch)
  /-- The same for a poll counter or the scan index (R31). Safe. -/
  | unwrittenCounter (counter : Counter)
  /-- The same for the result latch, raised by a collect (R31). Safe. -/
  | unwrittenResult
  /-- Raised by a run step whose `pc` is no step of the operation (R32). Safe. -/
  | offSequence (pc : Nat)
  /-- Raised by a `Release()` step of a client that does not hold the lock (R59). Safe. -/
  | lockNotHeld
  /-- Raised by a run step of a Busy client whose latches hold no descriptor of the map (R72). Safe. -/
  | noOperation
  /-- Raised by a table access at an index that is no entry (R23). Safe. -/
  | noEntry
deriving DecidableEq, Repr

/-- Why the model gives an operation no meaning. -/
inductive Refusal where
  /-- Raised by exec's arm of an operation that has no meaning yet; no arm is left so. Safe. -/
  | notModelled (mnemonic : String)
deriving DecidableEq, Repr

/-- The whole machine. -/
structure State where
  /-- The configuration record (R8); no step changes it. -/
  cfg : Config
  /-- `life` (R21). -/
  life : Life
  /-- An attach of this instance has succeeded (R140: "called exactly once"); the model's own field. -/
  used : Bool
  /-- `lock` (R22). -/
  lock : Lock
  /-- `T[0..N_TBL-1]` (R23), entry 0 first. -/
  table : List Entry
  /-- `scanStatus` (R25). -/
  scanStatus : ScanStatus
  /-- `product` (R26). -/
  product : String
  /-- `trace` (R27), oldest event first. -/
  trace : List Event
  /-- `refused` (R28). -/
  refused : Bool
  /-- The client sequencers `0..N_CLIENTS-1` (R30, R136). -/
  clients : List Sequencer
  /-- The responses collected so far, each with its client, oldest first (R20: observed). -/
  collected : List (Nat × Resp)
  /-- The turn this step takes (R14: whose sequencer executes); the model's own field. -/
  now : Turn
  /-- The environment's coming turns, next first (R136); the model's own field. -/
  schedule : List Turn
  /-- Turns taken so far: the index of a free choice of `Config.freeTurn`; the model's own field. -/
  turns : Nat
  /-- The EC's coming answers, next first (R53); the model's own field. -/
  script : List Byte
  /-- Port reads made so far: the free choice given to `Config.ecAnswer`; the model's own field. -/
  reads : Nat
deriving DecidableEq, Repr

/-- The "undefined" sentinel in either field of an entry (R11, R23, R42). -/
abbrev Entry.undefined : Entry := { deviceId := 0xFF, hwPinNumber := 0xFF }

/-- The state right after an attach with configuration `k` and product string `p` (R42, R139), no
turn and no answer of the environment placed yet. -/
def State.attached (k : Config) (p : String) : State where
  cfg := k
  life := .attached
  used := true
  lock := .free
  table := List.replicate k.nTbl .undefined
  scanStatus := .notRun
  product := p
  trace := []
  refused := false
  clients := List.replicate k.nClients {}
  collected := []
  now := .run 0
  schedule := []
  turns := 0
  script := []
  reads := 0

/-- The state before the first attach (R21, R42): no context exists. -/
def State.detached (k : Config) : State where
  cfg := k
  life := .detached
  used := false
  lock := .free
  table := []
  scanStatus := .notRun
  product := ""
  trace := []
  refused := false
  clients := []
  collected := []
  now := .run 0
  schedule := []
  turns := 0
  script := []
  reads := 0

/-- The machine right after reset, which is attach (R42, R139). -/
def State.reset : State :=
  State.attached Config.atReset Config.product

end Sys2Proof.Machine
end

