-- ==== Sys2Proof/Machine/Operands.lean ====
section
/-!
DEFINITION. Reading and writing latches, the bytes that a step sends, and the values assembled from
bytes (10_state.md R31, 30_encoding.md R71, 20_memory.md R47, 42_register_families.md R102).
-/
namespace Sys2Proof.Machine

/-- The value that a byte latch holds, if the running operation has written it (R31). -/
def Latches.read (L : Latches) : Latch → Option Byte
  | .op => L.op
  | .a0 => L.a0
  | .a1 => L.a1
  | .a2 => L.a2
  | .a3 => L.a3
  | .chk => L.chk
  | .lsb => L.lsb
  | .msb => L.msb
  | .pin => L.pin
  | .dev => L.dev
  | .st => L.st
  | .pr => L.pr
  | .d0 => L.d0
  | .d1 => L.d1
  | .v => L.v

/-- `L.f <- b` (R14). -/
def Latches.write (L : Latches) (b : Byte) : Latch → Latches
  | .op => { L with op := some b }
  | .a0 => { L with a0 := some b }
  | .a1 => { L with a1 := some b }
  | .a2 => { L with a2 := some b }
  | .a3 => { L with a3 := some b }
  | .chk => { L with chk := some b }
  | .lsb => { L with lsb := some b }
  | .msb => { L with msb := some b }
  | .pin => { L with pin := some b }
  | .dev => { L with dev := some b }
  | .st => { L with st := some b }
  | .pr => { L with pr := some b }
  | .d0 => { L with d0 := some b }
  | .d1 => { L with d1 := some b }
  | .v => { L with v := some b }

/-- One byte written to several latches. -/
def Latches.writeAll (L : Latches) (b : Byte) (ls : List Latch) : Latches :=
  ls.foldl (fun L l => L.write b l) L

/-- Read a byte latch, or fault (R31, U13). -/
def Latches.need (L : Latches) (l : Latch) : Except Fault Byte :=
  match L.read l with
  | some b => .ok b
  | none => .error (.unwrittenLatch l)

/-- The value that a counter latch holds (R31). -/
def Latches.readCounter (L : Latches) : Counter → Option Nat
  | .poll => L.poll
  | .spoll => L.spoll
  | .idx => L.idx

/-- Read a counter latch, or fault (R31, U13). -/
def Latches.count (L : Latches) (k : Counter) : Except Fault Nat :=
  match L.readCounter k with
  | some n => .ok n
  | none => .error (.unwrittenCounter k)

/-- `L.k <- 0` where a poll or the scan begins (R109 step 6, R118): a write to a counter that the running
operation has not written yet. No latch is read, so nothing is taken from an unwritten one (R31). -/
def Latches.start (L : Latches) : Counter → Latches
  | .poll => { L with poll := some (L.poll.getD 0) }
  | .spoll => { L with spoll := some (L.spoll.getD 0) }
  | .idx => { L with idx := some (L.idx.getD 0) }

/-- The latches that a status read begins from: `starts` names the counter, if any, that it sets to 0 on
the first pass. -/
def Latches.starting (L : Latches) : Option Counter → Latches
  | none => L
  | some k => L.start k

/-- The latches right after the issue of `i`: the fields of its descriptor, and nothing left over from
an earlier operation (R31, R68). -/
def Latches.ofRequest (i : Instr) : Latches :=
  { op := some i.opcode
    a0 := some i.operands.1
    a1 := some i.operands.2.1
    a2 := some i.operands.2.2.1
    a3 := some i.operands.2.2.2 }

/-- The operation whose descriptor the latches hold (R31, R68). -/
def Latches.operation (L : Latches) : Option Instr :=
  match L.op, L.a0, L.a1, L.a2, L.a3 with
  | some op, some a0, some a1, some a2, some a3 => (decodeFields op a0 a1 a2 a3).toOption
  | _, _, _, _, _ => none

/-- Where a byte that is sent to DATA comes from. -/
inductive Source where
  /-- A constant of the configuration. -/
  | const (b : Byte)
  /-- A latch, sent unchanged (R52, R71). -/
  | latch (l : Latch)
  /-- The scan index byte `L.idx[7:0]` (R71, R118). -/
  | index
deriving DecidableEq, Repr

/-- The byte that a source gives. -/
def Source.byte (L : Latches) : Source → Except Fault Byte
  | .const b => .ok b
  | .latch l => L.need l
  | .index => (L.count .idx).map (BitVec.ofNat 8)

/-- `zext_32` of a byte (R71, R121). -/
def byteValue (b : Byte) : Word32 :=
  b.setWidth 32

/-- The AD result of R102: the raw 10-bit reading times the multiplier times 100, in 32 bits. -/
def adValue (msb lsb mult : Byte) : Word32 :=
  (((byteValue msb <<< 8) ||| byteValue lsb) &&& 0x3FF#32) * byteValue mult * 100#32

/-- The SMBus word result of R115: the cell at offset 0 is the high byte (R47). -/
def smbWord (d0 d1 : Byte) : Word16 :=
  (d0.setWidth 16 <<< 8) ||| d1.setWidth 16

/-- A table entry as TABLE_READ returns it (R119): `deviceId` in bits 15:8. -/
def entryValue (e : Entry) : Word32 :=
  (e.deviceId ++ e.hwPinNumber).setWidth 32

/-- The `kind` code of R121. -/
def Response.kind : Response → Byte
  | .ok _ => 0x00
  | .timeout => 0x01
  | .invalidTarget => 0x02
  | .smbusError _ => 0x03
  | .invalidTable => 0x04

/-- The `value` field of R121. -/
def Response.value : Response → Word32
  | .ok value => value
  | .smbusError code => byteValue code
  | .timeout | .invalidTarget | .invalidTable => 0

/-- The response word of R69: `value` in bits 39:8, `kind` in bits 7:0. -/
def Response.word (r : Response) : Resp :=
  r.value ++ r.kind

end Sys2Proof.Machine
end

