-- ==== Sys2Proof/Machine/Ops.lean ====
section
/-!
DEFINITION. The operations that every meaning shares: the port primitives and the Transaction Lock
(00_scope.md R15, 20_memory.md R49 to R60), issuing a request (30_encoding.md R75), raising an error and
ending an operation (60_exceptions.md R127, R129), collecting (R130), and the interpreter that takes ONE
step of an operation's fixed sequence (00_scope.md R3, 10_state.md R32).
-/
namespace Sys2Proof.Machine

/-- What a step answers. -/
abbrev Out := Host.Outcome State Fault Refusal

/-- Go on with a value, or fault. -/
def attempt {α : Type} (x : Except Fault α) (k : α → Out) : Out :=
  match x with
  | .ok a => k a
  | .error f => .fault f

/-! ## Sequencers and bookkeeping -/

/-- Client `c`'s sequencer, if there is such a client (R136). -/
def State.client? (s : State) (c : Nat) : Option Sequencer :=
  s.clients[c]?

/-- `phase[c]` (R30). -/
def State.phase? (s : State) (c : Nat) : Option Phase :=
  (s.client? c).map (·.phase)

/-- Replace client `c`'s sequencer. -/
def State.setClient (s : State) (c : Nat) (q : Sequencer) : State :=
  { s with clients := s.clients.set c q }

/-- `refused <- true` (R28, R75). -/
def State.markRefused (s : State) : State :=
  { s with refused := true }

/-- Append one event to the trace (R27). -/
def State.record (s : State) (e : Event) : State :=
  { s with trace := s.trace ++ [e] }

/-! ## The port primitives and the lock (R15) -/

/-- The I/O address of a port (R34). -/
def portAddr (k : Config) : Port → Nat
  | .command => k.portCmd
  | .data => k.portData

/-- The byte the EC answers to a read of port `p` now (R53): the next one of the script, else a free
value. -/
def State.answer (s : State) (p : Port) : Byte :=
  match s.script with
  | b :: _ => b
  | [] => Config.ecAnswer s.trace (portAddr s.cfg p) s.reads

/-- `PortIn(p)` by client `c` (R15, R49): one event with the answer; the answer is used up. -/
def State.portIn (s : State) (c : Nat) (p : Port) : State :=
  { s with
    trace := s.trace ++ [.input c (portAddr s.cfg p) (s.answer p)]
    script := s.script.tail
    reads := s.reads + 1 }

/-- `PortOut(p, b)` by client `c` (R15, R54): one event and no other effect. -/
def State.portOut (s : State) (c : Nat) (p : Port) (b : Byte) : State :=
  s.record (.output c (portAddr s.cfg p) b)

/-- The effect of `Acquire()` by client `c` (R58). -/
def State.acquire (s : State) (c : Nat) : State :=
  { s with lock := .held c, trace := s.trace ++ [.acquire c] }

/-- The effect of `Release()` by client `c` (R59). -/
def State.release (s : State) (c : Nat) : State :=
  { s with lock := .free, trace := s.trace ++ [.release c] }

/-! ## An operation as a fixed sequence of steps -/

/-- What one step of a sequence does at its boundary. A wait is one status read (R78, R79) and stays on
its step until it succeeds or its bound is reached. -/
inductive Act where
  | acquire
  | waitIbf
  | waitObf
  /-- `PortOut(PORT_CMD, opcode)`. -/
  | command (opcode : Byte)
  /-- `PortOut(PORT_DATA, ·)`. -/
  | argument (source : Source)
  /-- `PortIn(PORT_DATA)`, the byte latched in each of `latches`. -/
  | response (latches : List Latch)
  | release
  /-- A step with no port access and no lock action (TABLE_READ, R119). -/
  | lookup
deriving DecidableEq, Repr

/-- The internal work that belongs to the step just taken (R49: "Internal latch updates belong to the
step that reads the port or decides the branch"). -/
inductive After where
  /-- Nothing but going on. -/
  | proceed
  /-- `chk == 0xFF` raises `InvalidTarget` (R95). -/
  | checkTarget
  /-- `chk == 0xFF` raises `InvalidTable` (R118). -/
  | checkTable
  /-- The idle poll's decision, looping `back` steps (R109, R110). -/
  | checkIdle (back : Nat)
  /-- `st != 0x80` raises `SmbusError` (R111). -/
  | checkStatus
  /-- `T[idx] <- {dev, pin}; idx <- idx + 1`, looping `back` steps (R118). -/
  | storeEntry (back : Nat)
deriving DecidableEq, Repr

/-- One step of a sequence. -/
structure Micro where
  act : Act
  after : After := .proceed
  /-- The counter that the first pass sets to 0 in this step's status read: `L.spoll <- 0` before the idle
  poll (R109 step 6) and `L.idx <- 0` before the scan (R118), in the next step that reads the port (R49). -/
  starts : Option Counter := none
deriving DecidableEq, Repr

/-- What is particular to one operation: its fixed sequence (R3), the value it returns (R121), its own
admission condition (R75, items 4 and 5), what its issue sets beside the latches (R75), and what its
end sets beside the result (R25). -/
structure Routine where
  seq : Config → List Micro
  value : State → Latches → Except Fault Word32 := fun _ _ => .ok 0
  admits : State → Bool := fun _ => true
  issued : State → State := id
  ended : Response → State → State := fun _ s => s

/-! ## Issue, error entry, end and collection -/

/-- The issue step of `i` by client `c` (R75): admitted, or refused with no other effect than the mark. -/
def State.issue (s : State) (i : Instr) (r : Routine) (c : Nat) : State :=
  if s.life = .attached ∧ s.phase? c = some .idle ∧ r.admits s then
    (r.issued s).setClient c { phase := .busy 0 .start, latches := .ofRequest i }
  else
    s.markRefused

/-- The end of client `c`'s operation with a result (R127, items 1, 2 and 4; R129). -/
def State.complete (s : State) (r : Routine) (c : Nat) (q : Sequencer) (res : Response) : State :=
  (r.ended res s).setClient c { phase := .complete, latches := { q.latches with res := some res } }

/-- TAKING AN ERROR: `raise error` by client `c` at step `pc` (R127). With the lock held, one `Release()`
step follows and the operation ends there; without it, the operation ends in this step. -/
def State.raise (s : State) (r : Routine) (c pc : Nat) (q : Sequencer) (error : Response) : State :=
  if s.lock = .held c then
    s.setClient c { q with phase := .busy pc (.abort error) }
  else
    s.complete r c q error

/-- The pending `Release()` step of an operation that has raised (R127, item 3; R59). -/
def State.abortStep (s : State) (r : Routine) (c : Nat) (q : Sequencer) (error : Response) : Out :=
  if s.lock = .held c then .next ((s.release c).complete r c q error) else .fault .lockNotHeld

/-- The way back from an operation, with or without an error: client `c` collects its response word
(R130). A client that is not Complete has nothing to collect, and the turn passes. -/
def State.collect (s : State) (c : Nat) : Out :=
  match s.client? c with
  | some { phase := .complete, latches := L } =>
    match L.res with
    | some res =>
      .next { s.setClient c { phase := .idle, latches := L } with
        collected := s.collected ++ [(c, res.word)] }
    | none => .fault .unwrittenResult
  | some { phase := .idle, .. } | some { phase := .busy _ _, .. } | none => .next s

/-! ## One step of a sequence -/

/-- Go to step `pc` of the sequence, or end with success where the sequence is over (R129). -/
def State.goto (s : State) (r : Routine) (c pc : Nat) (q : Sequencer) : Out :=
  if pc < (r.seq s.cfg).length then
    .next (s.setClient c { q with phase := .busy pc .start })
  else
    attempt (r.value s q.latches) fun v => .next (s.complete r c q (.ok v))

/-- `T[L.idx] <- {dev, pin}` (R118). -/
def State.writeEntry (s : State) (n : Nat) (dev pin : Byte) : State :=
  { s with table := s.table.set n { deviceId := dev, hwPinNumber := pin } }

/-- The internal work after the act of step `pc`, and where the sequence goes. -/
def State.settle (s : State) (r : Routine) (after : After) (c pc : Nat) (q : Sequencer) : Out :=
  match after with
  | .proceed => s.goto r c (pc + 1) q
  | .checkTarget =>
    attempt (q.latches.need .chk) fun chk =>
      if isSentinel chk then .next (s.raise r c pc q .invalidTarget) else s.goto r c (pc + 1) q
  | .checkTable =>
    attempt (q.latches.need .chk) fun chk =>
      if isSentinel chk then .next (s.raise r c pc q .invalidTable) else s.goto r c (pc + 1) q
  | .checkIdle back =>
    attempt (q.latches.need .pr) fun pr =>
      if engineIdle pr then s.goto r c (pc + 1) q
      else
        attempt (q.latches.count .spoll) fun n =>
          let q' := { q with latches := { q.latches with spoll := some (n + 1) } }
          if n + 1 = s.cfg.smbMaxPoll then .next (s.raise r c pc q' .timeout)
          else s.goto r c (pc - back) q'
  | .checkStatus =>
    attempt (q.latches.need .st) fun st =>
      if smbusSuccess st then s.goto r c (pc + 1) q else .next (s.raise r c pc q (.smbusError st))
  | .storeEntry back =>
    attempt (q.latches.need .dev) fun dev =>
      attempt (q.latches.need .pin) fun pin =>
        attempt (q.latches.count .idx) fun n =>
          if n < s.table.length then
            let s' := s.writeEntry n dev pin
            let q' := { q with latches := { q.latches with idx := some (n + 1) } }
            if n + 1 < s.cfg.nTbl then s'.goto r c (pc - back) q' else s'.goto r c (pc + 1) q'
          else .fault .noEntry

/-- One status read of a wait (R78, R79, R80): it succeeds, or it counts, and reaching `MAX_POLL` raises
`Timeout`. `L.poll <- 0` belongs to the first read. -/
def State.pollStep (s : State) (r : Routine) (after : After) (c pc : Nat) (q : Sequencer) (stage : Stage)
    (done : Byte → Bool) : Out :=
  attempt (if stage = .again then q.latches.count .poll else .ok 0) fun n =>
    let s' := s.portIn c .command
    if done (s.answer .command) then
      s'.settle r after c pc { q with latches := { q.latches with poll := some n } }
    else
      let q' := { q with latches := { q.latches with poll := some (n + 1) } }
      if n + 1 = s.cfg.maxPoll then .next (s'.raise r c pc q' .timeout)
      else .next (s'.setClient c { q' with phase := .busy pc .again })

/-- The act of step `pc` and what belongs to it. An `Acquire()` whose lock is not free is disabled: the
client holds, and its turn passes (R58). -/
def State.perform (s : State) (r : Routine) (m : Micro) (c pc : Nat) (q : Sequencer) (stage : Stage) : Out :=
  match m.act with
  | .acquire => if s.lock = .free then (s.acquire c).settle r m.after c pc q else .next s
  | .waitIbf => s.pollStep r m.after c pc { q with latches := q.latches.starting m.starts } stage ibfClear
  | .waitObf => s.pollStep r m.after c pc { q with latches := q.latches.starting m.starts } stage obfSet
  | .command opcode => (s.portOut c .command opcode).settle r m.after c pc q
  | .argument source =>
    attempt (source.byte q.latches) fun b => (s.portOut c .data b).settle r m.after c pc q
  | .response latches =>
    (s.portIn c .data).settle r m.after c pc
      { q with latches := q.latches.writeAll (s.answer .data) latches }
  | .release =>
    if s.lock = .held c then (s.release c).settle r m.after c pc q else .fault .lockNotHeld
  | .lookup => s.settle r m.after c pc q

/-- The next step of client `c`'s running operation. A client that is not Busy has no step, and the
turn passes (R30, R136). -/
def State.advance (s : State) (r : Routine) (c : Nat) : Out :=
  match s.client? c with
  | none => .next s
  | some q =>
    match q.phase with
    | .idle | .complete => .next s
    | .busy pc stage =>
      match stage with
      | .abort error => s.abortStep r c q error
      | .start | .again =>
        match (r.seq s.cfg)[pc]? with
        | some m => s.perform r m c pc q stage
        | none => .fault (.offSequence pc)

/-- The meaning of the operation `i` with routine `r`, in the turn `s.now`: the issue step where a client
presents it, the next step of its sequence where a client runs it. -/
def operate (i : Instr) (r : Routine) (s : State) : Out :=
  match s.now with
  | .request c _ => .next (s.issue i r c)
  | .run c => s.advance r c
  | .collect _ | .attach _ | .detach => .next s

/-! ## Sequences that several families use -/

/-- A body with the lock held for the whole operation (R62, R93). -/
def locked (body : List Micro) : List Micro :=
  { act := .acquire } :: (body ++ [{ act := .release }])

/-- A byte sent to COMMAND under the handshake discipline (R83). Its status read is where a counter starts
whose poll or scan begins with it. -/
def sendCommand (opcode : Byte) (starts : Option Counter := none) : List Micro :=
  [{ act := .waitIbf, starts := starts }, { act := .command opcode }]

/-- A byte sent to DATA under the handshake discipline (R83). -/
def sendArgument (source : Source) : List Micro :=
  [{ act := .waitIbf }, { act := .argument source }]

/-- A byte read from DATA under the handshake discipline (R83). -/
def receive (latches : List Latch) (after : After := .proceed) : List Micro :=
  [{ act := .waitObf }, { act := .response latches, after := after }]

/-- The byte latch `l` as a 32-bit result (R121: `zext_32` of the byte). -/
def latchValue (l : Latch) (_ : State) (L : Latches) : Except Fault Word32 :=
  (L.need l).map byteValue

end Sys2Proof.Machine
end

