-- ==== Sys2Proof/Machine/Ram.lean ====
section
/-!
DEFINITION. The byte RAM accessor (41_ram_accessor.md): the composites `MemRead` and `MemWrite` without
lock actions (R87, R88), and the two operations (R89, R90).
-/
namespace Sys2Proof.Machine

/-- `MemRead(addr, 1)` (R87). The byte goes to `v` and to the latches `dst`. -/
def memRead (k : Config) (addr : Source) (dst : List Latch := []) (after : After := .proceed)
    (starts : Option Counter := none) : List Micro :=
  sendCommand k.opRamRead starts ++ sendArgument addr ++ receive (.v :: dst) after

/-- `MemWrite(addr, 1, val)` (R88): no OBF wait at the end. -/
def memWrite (k : Config) (addr val : Source) : List Micro :=
  sendCommand k.opRamWrite ++ sendArgument addr ++ sendArgument val

/-- RAM_READ (R89). -/
def ramReadRoutine : Routine where
  seq k := locked (memRead k (.latch .a0))
  value := latchValue .v

/-- The meaning of RAM_READ. -/
def execRamRead (addr : Byte) (s : State) : Out :=
  operate (.ramRead addr) ramReadRoutine s

/-- RAM_WRITE (R90). -/
def ramWriteRoutine : Routine where
  seq k := locked (memWrite k (.latch .a0) (.latch .a1))

/-- The meaning of RAM_WRITE. -/
def execRamWrite (addr value : Byte) (s : State) : Out :=
  operate (.ramWrite addr value) ramWriteRoutine s

end Sys2Proof.Machine
end

