-- ==== Sys2Proof/Machine/Register.lean ====
section
/-!
DEFINITION. The register-family accessors (42_register_families.md). Each operation holds the lock for
its whole duration (R93), with the parameters of R94.
-/
namespace Sys2Proof.Machine

/-- The intermediate validation of R95: `chk` is read after the target, and 0xFF raises. A read accessor
keeps the byte in `v` too (R31: "the last byte read from DATA"). -/
def validation (validate : Bool) (also : List Latch) : List Micro :=
  if validate then receive (.chk :: also) .checkTarget else []

/-- `FamilyRead(opc, L.a0, validate)` (R92). -/
def familyRead (opc : Byte) (validate : Bool) : List Micro :=
  sendCommand opc ++ sendArgument (.latch .a0) ++ validation validate [.v] ++ receive [.v]

/-- `FamilyWrite(opc, L.a0, L.a1, validate)` (R92): no OBF wait after the value. -/
def familyWrite (opc : Byte) (validate : Bool) : List Micro :=
  sendCommand opc ++ sendArgument (.latch .a0) ++ validation validate [] ++ sendArgument (.latch .a1)

/-- ACPI_READ (R96). -/
def acpiReadRoutine : Routine where
  seq k := locked (familyRead k.opAcpiRead false)
  value := latchValue .v

/-- The meaning of ACPI_READ. -/
def execAcpiRead (addr : Byte) (s : State) : Out :=
  operate (.acpiRead addr) acpiReadRoutine s

/-- ACPI_WRITE (R97). -/
def acpiWriteRoutine : Routine where
  seq k := locked (familyWrite k.opAcpiWrite false)

/-- The meaning of ACPI_WRITE. -/
def execAcpiWrite (addr value : Byte) (s : State) : Out :=
  operate (.acpiWrite addr value) acpiWriteRoutine s

/-- GPIO_STATUS_READ (R98). -/
def gpioStatusReadRoutine : Routine where
  seq k := locked (familyRead k.opGpioStatusRead true)
  value := latchValue .v

/-- The meaning of GPIO_STATUS_READ. -/
def execGpioStatusRead (pin : Byte) (s : State) : Out :=
  operate (.gpioStatusRead pin) gpioStatusReadRoutine s

/-- GPIO_STATUS_WRITE (R99). -/
def gpioStatusWriteRoutine : Routine where
  seq k := locked (familyWrite k.opGpioStatusWrite true)

/-- The meaning of GPIO_STATUS_WRITE. -/
def execGpioStatusWrite (pin value : Byte) (s : State) : Out :=
  operate (.gpioStatusWrite pin value) gpioStatusWriteRoutine s

/-- GPIO_DIR_READ (R100). -/
def gpioDirReadRoutine : Routine where
  seq k := locked (familyRead k.opGpioDirRead true)
  value := latchValue .v

/-- The meaning of GPIO_DIR_READ. -/
def execGpioDirRead (pin : Byte) (s : State) : Out :=
  operate (.gpioDirRead pin) gpioDirReadRoutine s

/-- GPIO_DIR_WRITE (R101). -/
def gpioDirWriteRoutine : Routine where
  seq k := locked (familyWrite k.opGpioDirWrite true)

/-- The meaning of GPIO_DIR_WRITE. -/
def execGpioDirWrite (pin value : Byte) (s : State) : Out :=
  operate (.gpioDirWrite pin value) gpioDirWriteRoutine s

/-- The result of AD_READ, from `msb`, `lsb` and the multiplier `a1` (R102, R103). -/
def adResult (_ : State) (L : Latches) : Except Fault Word32 := do
  let msb ← L.need .msb
  let lsb ← L.need .lsb
  let mult ← L.need .a1
  pure (adValue msb lsb mult)

/-- AD_READ (R103). Being a read accessor, it keeps each byte it reads in `v` (R31). -/
def adReadRoutine : Routine where
  seq k := locked
    (sendCommand k.opAdIndex ++ sendArgument (.latch .a0) ++ validation true [.v]
      ++ sendCommand k.opAdLsb ++ receive [.lsb, .v]
      ++ sendCommand k.opAdMsb ++ receive [.msb, .v])
  value := adResult

/-- The meaning of AD_READ. -/
def execAdRead (index mult : Byte) (s : State) : Out :=
  operate (.adRead index mult) adReadRoutine s

/-- ONEKEY_READ (R104). -/
def onekeyReadRoutine : Routine where
  seq k := locked (familyRead k.opOnekeyRead false)
  value := latchValue .v

/-- The meaning of ONEKEY_READ. -/
def execOnekeyRead (addr : Byte) (s : State) : Out :=
  operate (.onekeyRead addr) onekeyReadRoutine s

/-- ONEKEY_WRITE (R105). -/
def onekeyWriteRoutine : Routine where
  seq k := locked (familyWrite k.opOnekeyWrite false)

/-- The meaning of ONEKEY_WRITE. -/
def execOnekeyWrite (addr value : Byte) (s : State) : Out :=
  operate (.onekeyWrite addr value) onekeyWriteRoutine s

/-- OEM_READ (R106). -/
def oemReadRoutine : Routine where
  seq k := locked (familyRead k.opOemRead false)
  value := latchValue .v

/-- The meaning of OEM_READ. -/
def execOemRead (addr : Byte) (s : State) : Out :=
  operate (.oemRead addr) oemReadRoutine s

/-- OEM_WRITE (R107). -/
def oemWriteRoutine : Routine where
  seq k := locked (familyWrite k.opOemWrite false)

/-- The meaning of OEM_WRITE. -/
def execOemWrite (addr value : Byte) (s : State) : Out :=
  operate (.oemWrite addr value) oemWriteRoutine s

end Sys2Proof.Machine
end

