-- ==== Sys2Proof/Machine/Smbus.lean ====
section
/-!
DEFINITION. The SMBus proxy transaction sequencer (43_smbus.md), under either lock scope (R108).
-/
namespace Sys2Proof.Machine

/-- The kind of a transaction (R109). -/
inductive SmbKind where
  | byteRead
  | byteWrite
  | wordRead
deriving DecidableEq, Repr

/-- `mode(kind)` (R109). -/
def smbMode (k : Config) : SmbKind → Byte
  | .byteRead => k.modeByteRead
  | .byteWrite => k.modeByteWrite
  | .wordRead => k.modeWordRead

/-- `RamR(addr)` (R108), the byte latched in `dst`. The work `after` belongs to its last step: the
`Release()` under `PerStep`, the DATA read under `WholeTransaction`. The counter `starts` is set to 0 in its
first status read. -/
def ramR (k : Config) (addr : Byte) (dst : Latch) (after : After := .proceed)
    (starts : Option Counter := none) : List Micro :=
  match k.smbusLockScope with
  | .perStep => { act := .acquire } :: (memRead k (.const addr) [dst] .proceed starts ++ [{ act := .release, after := after }])
  | .wholeTransaction => memRead k (.const addr) [dst] after starts

/-- `RamW(addr, val)` (R108). -/
def ramW (k : Config) (addr : Byte) (val : Source) : List Micro :=
  match k.smbusLockScope with
  | .perStep => locked (memWrite k (.const addr) val)
  | .wholeTransaction => memWrite k (.const addr) val

/-- How far the idle poll loops back: from the last to the first step of its `RamR` (R109, R110). -/
def idlePollBack (k : Config) : Nat :=
  match k.smbusLockScope with
  | .perStep => 7
  | .wholeTransaction => 5

/-- The outer lock of a transaction: none under `PerStep` (R108). -/
def smbScope (k : Config) (body : List Micro) : List Micro :=
  match k.smbusLockScope with
  | .perStep => body
  | .wholeTransaction => locked body

/-- Step 4, on the write path only (R109). -/
def smbData (k : Config) : SmbKind → List Micro
  | .byteWrite => ramW k k.smbusData (.latch .a3)
  | .byteRead | .wordRead => []

/-- Step 8: one result cell, two, or none, offset 0 first (R109, R115). -/
def smbResult (k : Config) : SmbKind → List Micro
  | .byteRead => ramR k k.smbusData .d0
  | .wordRead => ramR k k.smbusData .d0 ++ ramR k k.smbusDataOffset1 .d1
  | .byteWrite => []

/-- `SmbTransaction(kind, L.a0, L.a1, L.a2, L.a3)` (R109), steps 1 to 8. `L.spoll <- 0`, before
the idle poll, is done in the first status read of the idle poll (R49). -/
def smbTransaction (kind : SmbKind) (k : Config) : List Micro :=
  smbScope k
    (ramW k k.smbusChannel (.latch .a0)
      ++ ramW k k.smbusSlvAddr (.latch .a1)
      ++ ramW k k.smbusCmd (.latch .a2)
      ++ smbData k kind
      ++ ramW k k.smbusProtocol (.const (smbMode k kind))
      ++ ramR k k.smbusProtocol .pr (.checkIdle (idlePollBack k)) (some .spoll)
      ++ ramR k k.smbusStatus .st .checkStatus
      ++ smbResult k kind)

/-- SMB_READ_BYTE (R113). -/
def smbReadByteRoutine : Routine where
  seq := smbTransaction .byteRead
  value := latchValue .d0

/-- The meaning of SMB_READ_BYTE. -/
def execSmbReadByte (channel slave reg : Byte) (s : State) : Out :=
  operate (.smbReadByte channel slave reg) smbReadByteRoutine s

/-- SMB_WRITE_BYTE (R114). -/
def smbWriteByteRoutine : Routine where
  seq := smbTransaction .byteWrite

/-- The meaning of SMB_WRITE_BYTE. -/
def execSmbWriteByte (channel slave reg data : Byte) (s : State) : Out :=
  operate (.smbWriteByte channel slave reg data) smbWriteByteRoutine s

/-- The result of SMB_READ_WORD, the cell at offset 0 as the high byte (R115). -/
def smbWordResult (_ : State) (L : Latches) : Except Fault Word32 := do
  let d0 ← L.need .d0
  let d1 ← L.need .d1
  pure ((smbWord d0 d1).setWidth 32)

/-- SMB_READ_WORD (R115). -/
def smbReadWordRoutine : Routine where
  seq := smbTransaction .wordRead
  value := smbWordResult

/-- The meaning of SMB_READ_WORD. -/
def execSmbReadWord (channel slave reg : Byte) (s : State) : Out :=
  operate (.smbReadWord channel slave reg) smbReadWordRoutine s

end Sys2Proof.Machine
end

