-- ==== Sys2Proof/Machine/Table.lean ====
section
/-!
DEFINITION. The dynamic table discovery scanner and the table read (44_table_discovery.md).
-/
namespace Sys2Proof.Machine

/-- The entry is undefined: the sentinel stands in either field (R24). The block stores such an entry as it
comes; telling it apart is its client's business. -/
def Entry.isUndefined (e : Entry) : Bool :=
  isSentinel e.deviceId || isSentinel e.hwPinNumber

/-- One index of the scan (R118): select and read back, get pin, get device id. The entry is written
in the step of the last read; `L.idx <- 0`, before the first index, in the first status read (R49). -/
def scanBody (k : Config) : List Micro :=
  sendCommand k.opTblSelect (some .idx) ++ sendArgument .index ++ receive [.chk] .checkTable
    ++ sendCommand k.opTblGetPin ++ receive [.pin]
    ++ sendCommand k.opTblGetDevice ++ receive [.dev] (.storeEntry 13)

/-- The admission condition of TABLE_SCAN (R75 item 5, R116). -/
def scanAdmitted (s : State) : Bool :=
  s.scanStatus == .notRun || s.scanStatus == .failed

/-- What the admission of TABLE_SCAN sets in the same step (R75, R118). -/
def scanIssued (s : State) : State :=
  { s with scanStatus := .running, table := List.replicate s.cfg.nTbl .undefined }

/-- What the end of TABLE_SCAN sets (R25, R118, R127 item 2). -/
def scanEnded (res : Response) (s : State) : State :=
  match res with
  | .ok _ => { s with scanStatus := .done }
  | .timeout | .invalidTarget | .smbusError _ | .invalidTable => { s with scanStatus := .failed }

/-- TABLE_SCAN (R118). -/
def tableScanRoutine : Routine where
  seq k := locked (scanBody k)
  admits := scanAdmitted
  issued := scanIssued
  ended := scanEnded

/-- The meaning of TABLE_SCAN. -/
def execTableScan (s : State) : Out :=
  operate .tableScan tableScanRoutine s

/-- `T[L.a0]`, packed (R119). -/
def tableReadResult (s : State) (L : Latches) : Except Fault Word32 := do
  let a0 ← L.need .a0
  match s.table[a0.toNat]? with
  | some e => pure (entryValue e)
  | none => throw .noEntry

/-- TABLE_READ (R119): one step, no lock, no port access. -/
def tableReadRoutine (index : Byte) : Routine where
  seq _ := [{ act := .lookup }]
  value := tableReadResult
  admits s := decide (index.toNat < s.cfg.nTbl)

/-- The meaning of TABLE_READ. -/
def execTableRead (index : Byte) (s : State) : Out :=
  operate (.tableRead index) (tableReadRoutine index) s

end Sys2Proof.Machine
end

