-- ==== Sys2Proof/Machine/Wait.lean ====
section
/-!
DEFINITION. The standalone wait operations (40_port_primitives.md R85, R86).
-/
namespace Sys2Proof.Machine

/-- WAIT_IBF (R85): acquire, `WaitIBF()`, release; the result is 0. -/
def waitIbfRoutine : Routine where
  seq _ := locked [{ act := .waitIbf }]

/-- The meaning of WAIT_IBF. -/
def execWaitIbf (s : State) : Out :=
  operate .waitIbf waitIbfRoutine s

/-- WAIT_OBF (R86): acquire, `WaitOBF()`, release; the result is 0. -/
def waitObfRoutine : Routine where
  seq _ := locked [{ act := .waitObf }]

/-- The meaning of WAIT_OBF. -/
def execWaitObf (s : State) : Out :=
  operate .waitObf waitObfRoutine s

end Sys2Proof.Machine
end

