-- ==== Sys2Proof/Machine/Dispatch.lean ====
section
/-!
DEFINITION. One arm per operation of the map (30_encoding.md R72).
-/
namespace Sys2Proof.Machine

def exec (i : Instr) (s : State) : Host.Outcome State Fault Refusal :=
  match i with
  | .waitIbf => Sys2Proof.Machine.execWaitIbf s
  | .waitObf => Sys2Proof.Machine.execWaitObf s
  | .ramRead addr => Sys2Proof.Machine.execRamRead addr s
  | .ramWrite addr value => Sys2Proof.Machine.execRamWrite addr value s
  | .acpiRead addr => Sys2Proof.Machine.execAcpiRead addr s
  | .acpiWrite addr value => Sys2Proof.Machine.execAcpiWrite addr value s
  | .gpioStatusRead pin => Sys2Proof.Machine.execGpioStatusRead pin s
  | .gpioStatusWrite pin value => Sys2Proof.Machine.execGpioStatusWrite pin value s
  | .gpioDirRead pin => Sys2Proof.Machine.execGpioDirRead pin s
  | .gpioDirWrite pin value => Sys2Proof.Machine.execGpioDirWrite pin value s
  | .adRead index mult => Sys2Proof.Machine.execAdRead index mult s
  | .onekeyRead addr => Sys2Proof.Machine.execOnekeyRead addr s
  | .onekeyWrite addr value => Sys2Proof.Machine.execOnekeyWrite addr value s
  | .oemRead addr => Sys2Proof.Machine.execOemRead addr s
  | .oemWrite addr value => Sys2Proof.Machine.execOemWrite addr value s
  | .smbReadByte channel slave reg => Sys2Proof.Machine.execSmbReadByte channel slave reg s
  | .smbWriteByte channel slave reg data => Sys2Proof.Machine.execSmbWriteByte channel slave reg data s
  | .smbReadWord channel slave reg => Sys2Proof.Machine.execSmbReadWord channel slave reg s
  | .tableScan => Sys2Proof.Machine.execTableScan s
  | .tableRead index => Sys2Proof.Machine.execTableRead index s

end Sys2Proof.Machine
end

