-- ==== Sys2Proof/Machine/Lifecycle.lean ====
section
/-!
DEFINITION. The lifecycle host's attach and detach (70_reset_and_hazards.md R139 to R141), and which turn
a step takes (00_scope.md R19, 60_exceptions.md R136).
-/
namespace Sys2Proof.Machine

/-- Attach with product string `p`, or `AttachError` where `p` is none (R139, R140). A success creates
the context with the values of R42, `refused` among them. An attach while attached, or of an instance
already used, is refused (R140). -/
def State.attach (s : State) (p : Option String) : State :=
  if s.life = .attached ∨ s.used then s.markRefused
  else
    match p with
    | none => s
    | some product =>
      { s with
        life := .attached
        used := true
        lock := .free
        table := List.replicate s.cfg.nTbl .undefined
        scanStatus := .notRun
        product := product
        trace := []
        refused := false
        clients := List.replicate s.cfg.nClients {} }

/-- Detach (R141): admitted only with the lock free and every client Idle. The context is destroyed
(R42): no sequencer and no entry is left. The trace and the collected responses stay, as the
observation of the run (R20), and `scanStatus` NotRun and the empty product string are placeholders for
fields that R42 says are gone, no transition of R25: DEDUCED, log entry 16. -/
def State.detach (s : State) : State :=
  if s.life = .attached ∧ s.lock = .free ∧ s.clients.all (fun q => q.phase == .idle) then
    { s with life := .detached, table := [], scanStatus := .notRun, product := "", clients := [] }
  else s.markRefused

/-- The turn that comes next: the schedule's next one, else a free choice (R61, R136). -/
def State.nextTurn (s : State) : Turn :=
  match s.schedule with
  | t :: _ => t
  | [] => Config.freeTurn s.turns

/-- Take the next turn off the schedule. -/
def State.takeTurn (s : State) : State :=
  { s with now := s.nextTurn, schedule := s.schedule.tail, turns := s.turns + 1 }

/-- The operation that client `c` is running, read from its latches (R31): `none` where `c` is not
Busy. -/
def State.running (s : State) (c : Nat) : Except Fault (Option Instr) :=
  match s.client? c with
  | some { phase := .busy _ _, latches := L } =>
    match L.operation with
    | some i => .ok (some i)
    | none => .error .noOperation
  | some { phase := .idle, .. } | some { phase := .complete, .. } | none => .ok none

/-- The state with a request of client 0 as its next turn. -/
def State.withRequest (s : State) (w : Req) : State :=
  { s with schedule := .request 0 w :: s.schedule }

end Sys2Proof.Machine
end

