-- ==== Sys2Proof/Machine/Step.lean ====
section
/-!
DEFINITION. One step of the whole machine: one turn of one agent (00_scope.md R19, 20_memory.md R49, R56).
-/
namespace Sys2Proof.Machine

/-- One step. A request is decoded and issued, and one that does not decode is refused (R74, R75). A
running client takes the next step of the operation its latches hold. -/
def step (s : State) : Host.Outcome State Fault Refusal :=
  let s' := s.takeTurn
  match s'.now with
  | .request _ w =>
    match decodeReq w with
    | .ok i => exec i s'
    | .error _ => .next s'.markRefused
  | .run c =>
    attempt (s'.running c) fun
      | some i => exec i s'
      | none => .next s'
  | .collect c => s'.collect c
  | .attach p => .next (s'.attach p)
  | .detach => .next s'.detach

/-- The state whose next step takes a request of client 0 with the bits of an opcode-table row. -/
def State.withFetchWord (s : State) (nbits w : Nat) : State :=
  s.withRequest (tableReq nbits w)

end Sys2Proof.Machine
end

