-- ==== Sys2Proof/Machine/Assembly.lean ====
section
/-!
DEFINITION. The assembly syntax of requests and programs, and how a client issues its program (30_encoding.md
R77). A text is a list of characters.
-/
namespace Sys2Proof.Machine

/-! ## Characters and numbers -/

/-- A blank within a line. -/
def isBlank (ch : Char) : Bool :=
  ch == ' ' || ch == '\t' || ch == '\r'

/-- A text without the blanks around it. -/
def trim (t : List Char) : List Char :=
  ((t.dropWhile isBlank).reverse.dropWhile isBlank).reverse

/-- The pieces of a text between separators. -/
def splitAtChar (sep : Char) : List Char → List (List Char)
  | [] => [[]]
  | ch :: t =>
    if ch = sep then [] :: splitAtChar sep t
    else
      match splitAtChar sep t with
      | piece :: pieces => (ch :: piece) :: pieces
      | [] => [[ch]]

/-- The digits of R13's two notations, each at the place of its value. -/
def digits : List Char :=
  "0123456789ABCDEF".toList

/-- The value of a digit: its place among the digits, a letter's case apart. -/
def digitValue (ch : Char) : Option Nat :=
  digits.findIdx? fun d => d == ch || d.toLower == ch

/-- Digits in a base, after the value `acc` of the digits before them. -/
def readDigits (base acc : Nat) : List Char → Option Nat
  | [] => some acc
  | ch :: t =>
    match digitValue ch with
    | some d => if d < base then readDigits base (acc * base + d) t else none
    | none => none

/-- A decimal number: no digit is no number. -/
def readDecimal (t : List Char) : Option Nat :=
  if t = [] then none else readDigits 10 0 t

/-- A number, hexadecimal after `0x` and decimal otherwise (R13, R77). -/
def readNumber (t : List Char) : Option Nat :=
  match t with
  | '0' :: 'x' :: ds => if ds = [] then none else readDigits 16 0 ds
  | _ => readDecimal t

/-- An operand byte (R77). -/
def readByte (t : List Char) : Option Byte :=
  match readNumber t with
  | some n => if n < 256 then some (BitVec.ofNat 8 n) else none
  | none => none

/-! ## Requests -/

/-- The mnemonic of each operation (R72). -/
def mnemonicOf : Instr → String
  | .waitIbf => "WAIT_IBF"
  | .waitObf => "WAIT_OBF"
  | .ramRead _ => "RAM_READ"
  | .ramWrite _ _ => "RAM_WRITE"
  | .acpiRead _ => "ACPI_READ"
  | .acpiWrite _ _ => "ACPI_WRITE"
  | .gpioStatusRead _ => "GPIO_STATUS_READ"
  | .gpioStatusWrite _ _ => "GPIO_STATUS_WRITE"
  | .gpioDirRead _ => "GPIO_DIR_READ"
  | .gpioDirWrite _ _ => "GPIO_DIR_WRITE"
  | .adRead _ _ => "AD_READ"
  | .onekeyRead _ => "ONEKEY_READ"
  | .onekeyWrite _ _ => "ONEKEY_WRITE"
  | .oemRead _ => "OEM_READ"
  | .oemWrite _ _ => "OEM_WRITE"
  | .smbReadByte _ _ _ => "SMB_READ_BYTE"
  | .smbWriteByte _ _ _ _ => "SMB_WRITE_BYTE"
  | .smbReadWord _ _ _ => "SMB_READ_WORD"
  | .tableScan => "TABLE_SCAN"
  | .tableRead _ => "TABLE_READ"

/-- The operands of a request that are not reserved, in the order a0, a1, a2, a3 (R72, R77). -/
def argumentsOf : Instr → List Byte
  | .waitIbf | .waitObf | .tableScan => []
  | .ramRead a0 | .acpiRead a0 | .gpioStatusRead a0 | .gpioDirRead a0 => [a0]
  | .onekeyRead a0 | .oemRead a0 | .tableRead a0 => [a0]
  | .ramWrite a0 a1 | .acpiWrite a0 a1 | .gpioStatusWrite a0 a1 | .gpioDirWrite a0 a1 => [a0, a1]
  | .adRead a0 a1 | .onekeyWrite a0 a1 | .oemWrite a0 a1 => [a0, a1]
  | .smbReadByte a0 a1 a2 | .smbReadWord a0 a1 a2 => [a0, a1, a2]
  | .smbWriteByte a0 a1 a2 a3 => [a0, a1, a2, a3]

/-- One operation of each row, its operands zero. -/
def rowInstrs : List Instr :=
  [.waitIbf, .waitObf, .ramRead 0, .ramWrite 0 0, .acpiRead 0, .acpiWrite 0 0, .gpioStatusRead 0,
   .gpioStatusWrite 0 0, .gpioDirRead 0, .gpioDirWrite 0 0] ++
  [.adRead 0 0, .onekeyRead 0, .onekeyWrite 0 0, .oemRead 0, .oemWrite 0 0, .smbReadByte 0 0 0,
   .smbWriteByte 0 0 0 0, .smbReadWord 0 0 0, .tableScan, .tableRead 0]

/-- The request with this mnemonic and exactly its operands (R77). -/
def assemble (mnemonic : List Char) (args : List Byte) : Option Instr :=
  match rowInstrs.find? (fun i => (mnemonicOf i).toList == mnemonic) with
  | none => none
  | some i =>
    if args.length = (argumentsOf i).length then
      (decodeFields i.opcode (args.getD 0 0) (args.getD 1 0) (args.getD 2 0) (args.getD 3 0)).toOption
    else none

/-- Operands separated by commas; no text is no operand. -/
def readOperands (t : List Char) : Option (List Byte) :=
  if trim t = [] then some [] else (splitAtChar ',' t).mapM fun piece => readByte (trim piece)

/-- A text in words: the first one, up to a blank, and what follows it. -/
def firstWord (t : List Char) : List Char × List Char :=
  (t.takeWhile fun ch => !isBlank ch, t.dropWhile fun ch => !isBlank ch)

/-- One request as the assembler reads it (R77). -/
def readRequest (t : List Char) : Option Instr :=
  match firstWord (trim t) with
  | (mnemonic, rest) =>
    match readOperands rest with
    | some args => assemble mnemonic args
    | none => none

/-- The hexadecimal digit of a value below 16. -/
def hexDigit (n : Nat) : Char :=
  digits.getD n '0'

/-- A byte as `0x` and two digits (R77). -/
def printByte (b : Byte) : List Char :=
  ['0', 'x', hexDigit (b.toNat / 16), hexDigit (b.toNat % 16)]

/-- Operands, each after a blank, with commas between them (R77). -/
def printOperands : List Byte → List Char
  | [] => []
  | [b] => ' ' :: printByte b
  | b :: bs => ' ' :: (printByte b ++ ',' :: printOperands bs)

/-- One request as text (R77). -/
def printRequest (i : Instr) : List Char :=
  (mnemonicOf i).toList ++ printOperands (argumentsOf i)

/-! ## Programs -/

/-- One request of a program, with the response word that a test expects of it, if it says one (R77). -/
structure ProgramLine where
  request : Instr
  expected : Option Resp
deriving DecidableEq, Repr

/-- One client's sequence of requests (R77). -/
structure ClientProgram where
  client : Nat
  lines : List ProgramLine
deriving DecidableEq, Repr

/-- A line of a program's text (R77). -/
inductive SourceLine where
  | client (number : Nat)
  | request (instr : Instr)
  | expected (word : Resp)
  | blank
deriving DecidableEq, Repr

/-- The result of the kind named, with a value (R121): a kind other than Ok and SmbusError has value 0. -/
def readResponse (kind : List Char) (value : Nat) : Option Response :=
  if kind = "Ok".toList then (if value < 2 ^ 32 then some (.ok (BitVec.ofNat 32 value)) else none)
  else if kind = "Timeout".toList then (if value = 0 then some .timeout else none)
  else if kind = "InvalidTarget".toList then (if value = 0 then some .invalidTarget else none)
  else if kind = "SmbusError".toList then (if value < 256 then some (.smbusError (BitVec.ofNat 8 value)) else none)
  else if kind = "InvalidTable".toList then (if value = 0 then some .invalidTable else none)
  else none

/-- One line: `client <n>:`, `expect <kind> <value>`, a request, or nothing. A comment starts at `;`. A heading
without a number is no line (log entry 21). -/
def readLine (t : List Char) : Option SourceLine :=
  match trim (t.takeWhile fun ch => ch != ';') with
  | [] => some .blank
  | text =>
    match firstWord text with
    | (word, rest) =>
      if word = "client".toList then
        match (trim rest).reverse with
        | ':' :: number => (readDecimal (trim number.reverse)).map .client
        | _ => none
      else if word = "expect".toList then
        match firstWord (trim rest) with
        | (kind, value) =>
          match readNumber (trim value) with
          | some n => (readResponse kind n).map fun r => .expected r.word
          | none => none
      else (readRequest text).map .request

/-- One more line of a program whose clients stand last one first. A request belongs to the client named last, an
expectation to the request before it. A program has one sequence per client (R77), so a second heading of the
same client is no line of it; nor is a second expectation after the same request, of which R77 does not speak; nor a
request or an expectation with nothing before it to belong to (DESIGN CHOICE, log entry 21). -/
def addLine (program : List ClientProgram) : SourceLine → Option (List ClientProgram)
  | .blank => some program
  | .client n =>
    if program.any fun p => p.client == n then none else some ({ client := n, lines := [] } :: program)
  | .request i =>
    match program with
    | p :: ps => some ({ p with lines := p.lines ++ [{ request := i, expected := none }] } :: ps)
    | [] => none
  | .expected word =>
    match program with
    | { client := n, lines := ls } :: ps =>
      match ls.reverse with
      | { request := i, expected := none } :: before =>
        some ({ client := n, lines := before.reverse ++ [{ request := i, expected := some word }] } :: ps)
      | { request := _, expected := some _ } :: _ => none
      | [] => none
    | [] => none

/-- A whole program, its clients in the order of the text (R77). -/
def readProgram (t : List Char) : Option (List ClientProgram) :=
  ((splitAtChar '\n' t).foldlM (fun program line => (readLine line).bind (addLine program)) []).map List.reverse

/-- The turn that client `c` asks for when `todo` is what is left of its program, and what is left then: it
issues its requests in order, each one after collecting the response before it (R77, R130). -/
def State.clientTurn (s : State) (c : Nat) (todo : List Instr) : Option (Turn × List Instr) :=
  match s.phase? c with
  | none => none
  | some (.busy _ _) => some (.run c, todo)
  | some .complete => some (.collect c, todo)
  | some .idle =>
    match todo with
    | [] => none
    | i :: rest => some (.request c (encodeReq i), rest)

end Sys2Proof.Machine
end

