-- ==== Sys2Proof/Safety.lean ====
section
/-!
DEFINITION. What counts as a safe state, in the terms that claims use: what a position in a sequence
says about the lock and the latches, the invariant `Inv`, the detectors that judge a trace (20_memory.md
R57, 40_port_primitives.md R83), and an operation run from its issue on.
-/
namespace Sys2Proof.Machine

/-- The routine of each operation's meaning. -/
def routineOf : Instr → Routine
  | .waitIbf => waitIbfRoutine
  | .waitObf => waitObfRoutine
  | .ramRead _ => ramReadRoutine
  | .ramWrite _ _ => ramWriteRoutine
  | .acpiRead _ => acpiReadRoutine
  | .acpiWrite _ _ => acpiWriteRoutine
  | .gpioStatusRead _ => gpioStatusReadRoutine
  | .gpioStatusWrite _ _ => gpioStatusWriteRoutine
  | .gpioDirRead _ => gpioDirReadRoutine
  | .gpioDirWrite _ _ => gpioDirWriteRoutine
  | .adRead _ _ => adReadRoutine
  | .onekeyRead _ => onekeyReadRoutine
  | .onekeyWrite _ _ => onekeyWriteRoutine
  | .oemRead _ => oemReadRoutine
  | .oemWrite _ _ => oemWriteRoutine
  | .smbReadByte _ _ _ => smbReadByteRoutine
  | .smbWriteByte _ _ _ _ => smbWriteByteRoutine
  | .smbReadWord _ _ _ => smbReadWordRoutine
  | .tableScan => tableScanRoutine
  | .tableRead index => tableReadRoutine index

/-- The fixed sequence of an operation under a configuration (R3). -/
def seqOf (k : Config) (i : Instr) : List Micro :=
  (routineOf i).seq k

/-! ## What a position in a sequence says -/

/-- Whether the lock is held after an act, given whether it was before. -/
def Act.holdsAfter (held : Bool) : Act → Bool
  | .acquire => true
  | .release => false
  | .waitIbf | .waitObf | .command _ | .argument _ | .response _ | .lookup => held

/-- Whether the client holds the lock when it stands at step `pc` with no error raised (R62). -/
def heldBefore (seq : List Micro) (pc : Nat) : Bool :=
  (seq.take pc).foldl (fun held m => m.act.holdsAfter held) false

/-- The byte latches that a step writes. -/
def Micro.writes (m : Micro) : List Latch :=
  match m.act with
  | .response latches => latches
  | .acquire | .waitIbf | .waitObf | .command _ | .argument _ | .release | .lookup => []

/-- The byte latches that the running operation has written when it stands at step `pc` (R31). -/
def writtenBefore (seq : List Micro) (pc : Nat) : List Latch :=
  [.op, .a0, .a1, .a2, .a3] ++ (seq.take pc).flatMap Micro.writes

/-- The counters that the running operation has started when it stands at step `pc` (R134). -/
def startedBefore (seq : List Micro) (pc : Nat) : List Counter :=
  (seq.take pc).flatMap fun m => m.starts.toList

/-- Step `pc` or a later one stores a table entry (R118). -/
def storesFrom (seq : List Micro) (pc : Nat) : Bool :=
  (seq.drop pc).any fun m =>
    match m.after with
    | .storeEntry _ => true
    | .proceed | .checkTarget | .checkTable | .checkIdle _ | .checkStatus => false

/-- Step `pc` or a later one is a decision of the idle poll (R110). -/
def pollsFrom (seq : List Micro) (pc : Nat) : Bool :=
  (seq.drop pc).any fun m =>
    match m.after with
    | .checkIdle _ => true
    | .proceed | .checkTarget | .checkTable | .checkStatus | .storeEntry _ => false

/-! ## The invariant -/

/-- Whether an operation can end with a response (R122; a blank cell there is `false` here). -/
def mayEndWith : Instr → Response → Bool
  | _, .ok _ => true
  | .tableRead _, _ => false
  | _, .timeout => true
  | .gpioStatusRead _, .invalidTarget | .gpioStatusWrite _ _, .invalidTarget => true
  | .gpioDirRead _, .invalidTarget | .gpioDirWrite _ _, .invalidTarget | .adRead _ _, .invalidTarget => true
  | .smbReadByte _ _ _, .smbusError _ | .smbWriteByte _ _ _ _, .smbusError _ | .smbReadWord _ _ _, .smbusError _ => true
  | .tableScan, .invalidTable => true
  | _, .invalidTarget | _, .smbusError _ | _, .invalidTable => false

/-- A result is one of the error kinds (R120). -/
def Response.isError : Response → Bool
  | .ok _ => false
  | .timeout | .invalidTarget | .smbusError _ | .invalidTable => true

/-- The counters are in the ranges of R31 and R134. -/
structure Latches.InRange (L : Latches) (k : Config) : Prop where
  poll : ∀ n, L.poll = some n → n ≤ k.maxPoll
  spoll : ∀ n, L.spoll = some n → n ≤ k.smbMaxPoll
  idx : ∀ n, L.idx = some n → n ≤ k.nTbl

/-- A Busy sequencer that runs `i` stands where its sequence says: it has written what it will read, it holds
the lock exactly where the lock's scope covers its position (R31, R33, R62), an error it has raised is one that
R122 allows it, and a wait or an idle poll that goes on has reads left of its bound (R78, R79, R110). -/
structure BusyOk (s : State) (c : Nat) (L : Latches) (i : Instr) (pc : Nat) (stage : Stage) : Prop where
  operation : L.operation = some i
  inRange : i.wellFormed s.cfg.nTbl = true
  position : pc < (seqOf s.cfg i).length
  holds : s.lock = .held c ↔ heldBefore (seqOf s.cfg i) pc = true
  aborting : ∀ e, stage = .abort e → s.lock = .held c ∧ e.isError = true ∧ mayEndWith i e = true
  polling : stage = .again → ∃ n, L.poll = some n ∧ n < s.cfg.maxPoll
  written : ∀ l ∈ writtenBefore (seqOf s.cfg i) pc, (L.read l).isSome
  started : ∀ n ∈ startedBefore (seqOf s.cfg i) pc, (L.readCounter n).isSome
  scanning : storesFrom (seqOf s.cfg i) pc = true → ∀ n, L.idx = some n → n < s.cfg.nTbl
  idling : (∀ e, stage ≠ .abort e) → pollsFrom (seqOf s.cfg i) pc = true →
    ∀ n, L.spoll = some n → n < s.cfg.smbMaxPoll

/-- One client's sequencer is as its phase says (R30, R33): a Complete one has a result that R122 allows. -/
def PhaseOk (s : State) (c : Nat) (q : Sequencer) : Prop :=
  match q.phase with
  | .idle => s.lock ≠ .held c
  | .complete => s.lock ≠ .held c ∧
    ∃ i res, q.latches.operation = some i ∧ q.latches.res = some res ∧ mayEndWith i res = true
  | .busy pc stage => ∃ i, BusyOk s c q.latches i pc stage

/-- One client's sequencer is sound. -/
structure ClientOk (s : State) (c : Nat) (q : Sequencer) : Prop where
  inRange : q.latches.InRange s.cfg
  phase : PhaseOk s c q

/-- The lock as a trace of events leaves it, starting from `lock`; `none` where an event breaks mutual
exclusion: an `Acq` while it is held, a `Rel` or a port event of a client that does not hold it (R57). -/
def lockAfter (lock : Lock) : List Event → Option Lock
  | [] => some lock
  | .acquire c :: es => if lock = .free then lockAfter (.held c) es else none
  | .release c :: es => if lock = .held c then lockAfter .free es else none
  | .input c _ _ :: es => if lock = .held c then lockAfter lock es else none
  | .output c _ _ :: es => if lock = .held c then lockAfter lock es else none

/-- The invariant: the configuration is one the spec allows, the context has its shape (R23, R136), the
trace keeps mutual exclusion and leaves the lock as it is (R57), and every sequencer is sound. -/
structure Inv (s : State) : Prop where
  config : s.cfg.wf = true
  shape : s.life = .attached → s.clients.length = s.cfg.nClients ∧ s.table.length = s.cfg.nTbl
  gone : s.life = .detached → s.clients = [] ∧ s.lock = .free
  exclusion : lockAfter .free s.trace = some s.lock
  owner : ∀ c, s.lock = .held c → c < s.clients.length
  sequencers : ∀ c q, s.client? c = some q → ClientOk s c q

/-- Client `c` is running the scan. -/
def State.scans (s : State) (c : Nat) : Prop :=
  ∃ q pc stage, s.client? c = some q ∧ q.phase = .busy pc stage ∧ q.latches.operation = some .tableScan

/-- `scanStatus` is `Running` while a client runs the scan, and one client at most does (R25, R116). -/
structure ScanInv (s : State) : Prop where
  running : ∀ c, s.scans c → s.scanStatus = .running
  unique : ∀ c d, s.scans c → s.scans d → c = d

/-- The five conditions of admission (R75). -/
structure Admits (s : State) (c : Nat) (w : Req) (i : Instr) : Prop where
  life : s.life = .attached
  idle : s.phase? c = some .idle
  decodes : decodeReq w = .ok i
  index : ∀ index, i = .tableRead index → index.toNat < s.cfg.nTbl
  scan : i = .tableScan → s.scanStatus = .notRun ∨ s.scanStatus = .failed

/-- The byte latches that an operation writes beside its descriptor's (R31). -/
def latchesOf : Instr → List Latch
  | .waitIbf | .waitObf | .ramWrite _ _ | .acpiWrite _ _ | .onekeyWrite _ _ | .oemWrite _ _ => []
  | .ramRead _ | .acpiRead _ | .onekeyRead _ | .oemRead _ => [.v]
  | .gpioStatusRead _ | .gpioDirRead _ => [.chk, .v]
  | .gpioStatusWrite _ _ | .gpioDirWrite _ _ => [.chk]
  | .adRead _ _ => [.chk, .lsb, .msb, .v]
  | .smbReadByte _ _ _ => [.pr, .st, .d0, .v]
  | .smbWriteByte _ _ _ _ => [.pr, .st, .v]
  | .smbReadWord _ _ _ => [.pr, .st, .d0, .d1, .v]
  | .tableScan => [.chk, .pin, .dev]
  | .tableRead _ => []

/-- Client `c` stands at the start of step `pc` of its operation `i`, in a state that meets the invariant, and
it is its turn. -/
structure Stands (s : State) (c : Nat) (i : Instr) (pc : Nat) (L : Latches) (m : Micro) : Prop where
  inv : Inv s
  now : s.now = .run c
  here : s.client? c = some { phase := .busy pc .start, latches := L }
  operation : L.operation = some i
  step : (seqOf s.cfg i)[pc]? = some m

/-- The byte that the decision after the last step of a `RamR` is about (R108): latched before in `l`, where that step is
the `Release()` of a RAM access of its own, and else read from DATA in the step itself. -/
def DecidesOn (s : State) (L : Latches) (m : Micro) (l : Latch) (b : Byte) : Prop :=
  (s.cfg.smbusLockScope = .perStep ∧ m.act = .release ∧ L.read l = some b) ∨
  (s.cfg.smbusLockScope = .wholeTransaction ∧ m.act = .response [.v, l] ∧ s.answer .data = b)

/-- The sequencer `q` of client `c` after the error `e` is raised at step `pc` by the last step of a `RamR` (R127): in an
outer lock the `Release()` is left, and without one the operation is over. -/
def EndsBy (s t : State) (c pc : Nat) (q : Sequencer) (e : Response) : Prop :=
  match s.cfg.smbusLockScope with
  | .perStep => t.lock = .free ∧ q.phase = .complete ∧ q.latches.res = some e
  | .wholeTransaction => t.lock = .held c ∧ q.phase = .busy pc (.abort e)

/-! ## The handshake discipline, judged on the trace -/

/-- Event `e` may follow event `prev` (R83): a port write comes straight after a status read of the same
client with IBF clear, a DATA read straight after one with OBF set. -/
def handshakeStep (k : Config) (prev : Option Event) (e : Event) : Bool :=
  match e with
  | .output c _ _ =>
    match prev with
    | some (.input c' p b) => c' == c && p == k.portCmd && ibfClear b
    | some (.output _ _ _) | some (.acquire _) | some (.release _) | none => false
  | .input c p _ =>
    if p = k.portData then
      match prev with
      | some (.input c' p' b) => c' == c && p' == k.portCmd && obfSet b
      | some (.output _ _ _) | some (.acquire _) | some (.release _) | none => false
    else true
  | .acquire _ | .release _ => true

/-- Every event of a trace follows the one before it as R83 asks. -/
def handshake (k : Config) (prev : Option Event) : List Event → Bool
  | [] => true
  | e :: es => handshakeStep k prev e && handshake k (some e) es

/-- The act of step `pc` may be taken now without breaking R83. -/
def Act.ready (k : Config) (c : Nat) (last : Option Event) : Act → Bool
  | .command _ | .argument _ => handshakeStep k last (.output c k.portData 0)
  | .response _ => handshakeStep k last (.input c k.portData 0)
  | .acquire | .waitIbf | .waitObf | .release | .lookup => true

/-- The trace keeps the handshake discipline, and so will the next step of every running operation. -/
structure HandshakeInv (s : State) : Prop where
  kept : handshake s.cfg none s.trace = true
  next : ∀ c q pc stage i m, s.client? c = some q → q.phase = .busy pc stage → (∀ e, stage ≠ .abort e) →
    q.latches.operation = some i → (seqOf s.cfg i)[pc]? = some m → m.act.ready s.cfg c s.trace.getLast? = true

/-! ## An operation from its issue on -/

/-- The state with `t` as the turn taken. -/
def State.atTurn (s : State) (t : Turn) : State :=
  { s with now := t }

/-- `n` run turns of client `c`, each the meaning of `i`. -/
def runTurns (i : Instr) (c : Nat) : Nat → State → Out
  | 0, s => .next s
  | n + 1, s =>
    match exec i (s.atTurn (.run c)) with
    | .next s' => runTurns i c n s'
    | .fault f => .fault f
    | .refused r => .refused r

/-- Client `c` issues `i` and then takes `n` run turns, each the meaning of `i`. -/
def performs (i : Instr) (c n : Nat) (s : State) : Out :=
  match exec i (s.atTurn (.request c (encodeReq i))) with
  | .next s' => runTurns i c n s'
  | .fault f => .fault f
  | .refused r => .refused r

/-- Client `c` may issue a lock-scoped operation and acquire the lock at once. -/
structure Ready (s : State) (c : Nat) : Prop where
  life : s.life = .attached
  idle : s.phase? c = some .idle
  lock : s.lock = .free

/-- The result latch of client `c` (R31, R121). -/
def State.result? (s : State) (c : Nat) : Option Response :=
  (s.client? c).bind (·.latches.res)

/-- Nothing that client `c`'s own sequencer may not touch has changed (R29 to R33): the configuration, the
lifecycle, the product string, the marks, the collected responses, the environment's turns, and every
other client's sequencer. -/
structure OthersKept (s t : State) (c : Nat) : Prop where
  cfg : t.cfg = s.cfg
  life : t.life = s.life
  used : t.used = s.used
  product : t.product = s.product
  refused : t.refused = s.refused
  collected : t.collected = s.collected
  schedule : t.schedule = s.schedule
  turns : t.turns = s.turns
  clients : ∀ d, d ≠ c → t.client? d = s.client? d

end Sys2Proof.Machine
end

