-- ==== Sys2Proof/Safety/Pseudocode.lean ====
section
/-!
DEFINITION. The spec's pseudocode of every operation (40_port_primitives.md to 44_table_discovery.md), written
down a second time as it stands there, without sequences, steps or positions: a program over the global
state and the client's latches that may raise one of the four errors. Claims compare the machine with it.
-/
namespace Sys2Proof.Pseudo

open Sys2Proof.Machine

/-- A piece of pseudocode: it works on the global state and the latches `L`, and returns or raises
(R14, R16). -/
abbrev Code (α : Type) := ExceptT Response (StateM (State × Latches)) α

/-- `raise E` (R16). -/
def raise {α : Type} (e : Response) : Code α :=
  fun w => (.error e, w)

/-- `PortIn(p)` (R15). -/
def portIn (c : Nat) (p : Port) : Code Byte :=
  fun w => (.ok (w.1.answer p), (w.1.portIn c p, w.2))

/-- `PortOut(p, b)` (R15). -/
def portOut (c : Nat) (p : Port) (b : Byte) : Code Unit :=
  fun w => (.ok (), (w.1.portOut c p b, w.2))

/-- An assignment to latches (R14). -/
def assign (f : Latches → Latches) : Code Unit :=
  fun w => (.ok (), (w.1, f w.2))

/-- An assignment to global state (R14). -/
def update (f : State → State) : Code Unit :=
  fun w => (.ok (), (f w.1, w.2))

/-- `Acquire(); body; Release()`, with the `Release()` on every exit path (R59, R93). -/
def locked {α : Type} (c : Nat) (body : Code α) : Code α :=
  fun w =>
    let r := body (w.1.acquire c, w.2)
    (r.1, (r.2.1.release c, r.2.2))

/-- The loop of a wait (R78, R79) with `left` status reads left of `MAX_POLL`. -/
def waitLoop (c : Nat) (done : Byte → Bool) : Nat → Code Unit
  | 0 => raise .timeout
  | left + 1 => do
    let status ← portIn c .command
    if done status then pure ()
    else
      assign fun L => { L with poll := L.poll.map (· + 1) }
      waitLoop c done left

/-- `WaitIBF()` (R78). -/
def waitIBF (k : Config) (c : Nat) : Code Unit := do
  assign fun L => { L with poll := some 0 }
  waitLoop c ibfClear k.maxPoll

/-- `WaitOBF()` (R79). -/
def waitOBF (k : Config) (c : Nat) : Code Unit := do
  assign fun L => { L with poll := some 0 }
  waitLoop c obfSet k.maxPoll

/-- `MemRead(addr, 1)` (R87). -/
def memRead (k : Config) (c : Nat) (addr : Byte) : Code Byte := do
  waitIBF k c
  portOut c .command k.opRamRead
  waitIBF k c
  portOut c .data addr
  waitOBF k c
  let b ← portIn c .data
  assign fun L => { L with v := some b }
  pure b

/-- `MemWrite(addr, 1, val)` (R88). -/
def memWrite (k : Config) (c : Nat) (addr val : Byte) : Code Unit := do
  waitIBF k c
  portOut c .command k.opRamWrite
  waitIBF k c
  portOut c .data addr
  waitIBF k c
  portOut c .data val

/-- The validation of R92 and R95, which keeps the byte as `keep` says. A read accessor keeps it in `v` beside `chk`:
R31 names `v` "the last byte read from DATA", written by every read accessor (DEDUCED, log entry 15: R92 names no
`v` here). -/
def validation (k : Config) (c : Nat) (validate : Bool) (keep : Byte → Latches → Latches) : Code Unit :=
  if validate then do
    waitOBF k c
    let chk ← portIn c .data
    assign (keep chk)
    if isSentinel chk then raise .invalidTarget else pure ()
  else pure ()

/-- `FamilyRead(opc, tgt, validate)` (R92). -/
def familyRead (k : Config) (c : Nat) (opc tgt : Byte) (validate : Bool) : Code Byte := do
  waitIBF k c
  portOut c .command opc
  waitIBF k c
  portOut c .data tgt
  validation k c validate fun chk L => { L with chk := some chk, v := some chk }
  waitOBF k c
  let b ← portIn c .data
  assign fun L => { L with v := some b }
  pure b

/-- `FamilyWrite(opc, tgt, val, validate)` (R92). -/
def familyWrite (k : Config) (c : Nat) (opc tgt val : Byte) (validate : Bool) : Code Unit := do
  waitIBF k c
  portOut c .command opc
  waitIBF k c
  portOut c .data tgt
  validation k c validate fun chk L => { L with chk := some chk }
  waitIBF k c
  portOut c .data val

/-- The body of AD_READ (R103), each byte read kept in `v` (R31; DEDUCED, log entry 15). -/
def adRead (k : Config) (c : Nat) (index mult : Byte) : Code Word32 := do
  waitIBF k c
  portOut c .command k.opAdIndex
  waitIBF k c
  portOut c .data index
  validation k c true fun chk L => { L with chk := some chk, v := some chk }
  waitIBF k c
  portOut c .command k.opAdLsb
  waitOBF k c
  let lsb ← portIn c .data
  assign fun L => { L with lsb := some lsb, v := some lsb }
  waitIBF k c
  portOut c .command k.opAdMsb
  waitOBF k c
  let msb ← portIn c .data
  assign fun L => { L with msb := some msb, v := some msb }
  pure (adValue msb lsb mult)

/-- `RamR(addr)` (R108). -/
def ramR (k : Config) (c : Nat) (addr : Byte) : Code Byte :=
  match k.smbusLockScope with
  | .perStep => locked c (memRead k c addr)
  | .wholeTransaction => memRead k c addr

/-- `RamW(addr, val)` (R108). -/
def ramW (k : Config) (c : Nat) (addr val : Byte) : Code Unit :=
  match k.smbusLockScope with
  | .perStep => locked c (memWrite k c addr val)
  | .wholeTransaction => memWrite k c addr val

/-- The idle poll (R109 step 6, R110) with `left` reads left of `SMB_MAX_POLL`. -/
def idlePoll (k : Config) (c : Nat) : Nat → Code Unit
  | 0 => raise .timeout
  | left + 1 => do
    let pr ← ramR k c k.smbusProtocol
    assign fun L => { L with pr := some pr }
    if engineIdle pr then pure ()
    else
      assign fun L => { L with spoll := L.spoll.map (· + 1) }
      idlePoll k c left

/-- `SmbTransaction(kind, ch, slv, reg, data)` (R109) without its outer lock: steps 1 to 8. -/
def smbSteps (k : Config) (c : Nat) (kind : SmbKind) (ch slv reg data : Byte) : Code Word32 := do
  ramW k c k.smbusChannel ch
  ramW k c k.smbusSlvAddr slv
  ramW k c k.smbusCmd reg
  if kind = .byteWrite then ramW k c k.smbusData data else pure ()
  ramW k c k.smbusProtocol (smbMode k kind)
  assign fun L => { L with spoll := some 0 }
  idlePoll k c k.smbMaxPoll
  let st ← ramR k c k.smbusStatus
  assign fun L => { L with st := some st }
  if smbusSuccess st then
    match kind with
    | .byteWrite => pure 0
    | .byteRead => do
      let d0 ← ramR k c k.smbusData
      assign fun L => { L with d0 := some d0 }
      pure (byteValue d0)
    | .wordRead => do
      let d0 ← ramR k c k.smbusData
      assign fun L => { L with d0 := some d0 }
      let d1 ← ramR k c k.smbusDataOffset1
      assign fun L => { L with d1 := some d1 }
      pure ((smbWord d0 d1).setWidth 32)
  else raise (.smbusError st)

/-- `SmbTransaction` with the lock scope of the configuration (R108, R109). -/
def smbTransaction (k : Config) (c : Nat) (kind : SmbKind) (ch slv reg data : Byte) : Code Word32 :=
  match k.smbusLockScope with
  | .perStep => smbSteps k c kind ch slv reg data
  | .wholeTransaction => locked c (smbSteps k c kind ch slv reg data)

/-- The loop of the scan (R118) from index `idx` on, with `left` indices left. -/
def scanLoop (k : Config) (c : Nat) : (left idx : Nat) → Code Unit
  | 0, _ => pure ()
  | left + 1, idx => do
    waitIBF k c
    portOut c .command k.opTblSelect
    waitIBF k c
    portOut c .data (BitVec.ofNat 8 idx)
    waitOBF k c
    let chk ← portIn c .data
    assign fun L => { L with chk := some chk }
    if isSentinel chk then raise .invalidTable else pure ()
    waitIBF k c
    portOut c .command k.opTblGetPin
    waitOBF k c
    let pin ← portIn c .data
    assign fun L => { L with pin := some pin }
    waitIBF k c
    portOut c .command k.opTblGetDevice
    waitOBF k c
    let dev ← portIn c .data
    assign fun L => { L with dev := some dev }
    update fun s => s.writeEntry idx dev pin
    assign fun L => { L with idx := some (idx + 1) }
    scanLoop k c left (idx + 1)

/-- TABLE_SCAN (R118): the admission's effect, the locked loop, and `scanStatus` at the end. -/
def tableScan (k : Config) (c : Nat) : Code Word32 :=
  fun w =>
    let r := locked c (do assign fun L => { L with idx := some 0 }; scanLoop k c k.nTbl 0) (scanIssued w.1, w.2)
    match r.1 with
    | .ok _ => (.ok 0, ({ r.2.1 with scanStatus := .done }, r.2.2))
    | .error e => (.error e, ({ r.2.1 with scanStatus := .failed }, r.2.2))

/-- TABLE_READ (R119) of an index within the table. -/
def tableRead (index : Byte) : Code Word32 :=
  fun w => (.ok (entryValue (w.1.table.getD index.toNat .undefined)), w)

/-- A read accessor's body with its byte as the result (R121). -/
def zext (body : Code Byte) : Code Word32 := do
  let b ← body
  pure (byteValue b)

/-- A body whose operation returns 0 (R121). -/
def zero (body : Code Unit) : Code Word32 := do
  body
  pure 0

/-- The pseudocode of each operation, run by client `c`. -/
def operation (k : Config) (c : Nat) : Instr → Code Word32
  | .waitIbf => zero (locked c (waitIBF k c))
  | .waitObf => zero (locked c (waitOBF k c))
  | .ramRead addr => zext (locked c (memRead k c addr))
  | .ramWrite addr value => zero (locked c (memWrite k c addr value))
  | .acpiRead addr => zext (locked c (familyRead k c k.opAcpiRead addr false))
  | .acpiWrite addr value => zero (locked c (familyWrite k c k.opAcpiWrite addr value false))
  | .gpioStatusRead pin => zext (locked c (familyRead k c k.opGpioStatusRead pin true))
  | .gpioStatusWrite pin value => zero (locked c (familyWrite k c k.opGpioStatusWrite pin value true))
  | .gpioDirRead pin => zext (locked c (familyRead k c k.opGpioDirRead pin true))
  | .gpioDirWrite pin value => zero (locked c (familyWrite k c k.opGpioDirWrite pin value true))
  | .adRead index mult => locked c (adRead k c index mult)
  | .onekeyRead addr => zext (locked c (familyRead k c k.opOnekeyRead addr false))
  | .onekeyWrite addr value => zero (locked c (familyWrite k c k.opOnekeyWrite addr value false))
  | .oemRead addr => zext (locked c (familyRead k c k.opOemRead addr false))
  | .oemWrite addr value => zero (locked c (familyWrite k c k.opOemWrite addr value false))
  | .smbReadByte ch slv reg => smbTransaction k c .byteRead ch slv reg 0
  | .smbWriteByte ch slv reg data => smbTransaction k c .byteWrite ch slv reg data
  | .smbReadWord ch slv reg => smbTransaction k c .wordRead ch slv reg 0
  | .tableScan => tableScan k c
  | .tableRead index => tableRead index

/-- The response that the end of a piece of pseudocode gives (R121). -/
def response : Except Response Word32 → Response
  | .ok value => .ok value
  | .error e => e

end Sys2Proof.Pseudo
end

