-- ==== Sys2Proof/Safety/Transcript.lean ====
section
/-!
DEFINITION. What an operation and the EC say to each other, as a list of moves: the shorthand of 00_scope.md
R17 with a whole wait as one move. A claim about an operation's result names the moves and says that the
operation, given those answers, makes exactly those events and ends with that result.
-/
namespace Sys2Proof.Machine

/-- One move between a client and the EC. A wait lists the status bytes it reads. -/
inductive Move where
  | acquire
  | release
  /-- A `WaitIBF()` that succeeds (R78), and one that uses up `MAX_POLL` (R80). -/
  | ibf (reads : List Byte)
  | lateIbf (reads : List Byte)
  /-- A `WaitOBF()` that succeeds (R79), and one that uses up `MAX_POLL` (R80). -/
  | obf (reads : List Byte)
  | lateObf (reads : List Byte)
  /-- `PortOut(PORT_CMD, b)`. -/
  | command (b : Byte)
  /-- `PortOut(PORT_DATA, b)`. -/
  | argument (b : Byte)
  /-- `PortIn(PORT_DATA)` answered `b`. -/
  | response (b : Byte)
deriving DecidableEq, Repr

/-- The status reads of a wait that succeeds on its last read and not before (R80). -/
def waitDone (k : Config) (done : Byte → Bool) (reads : List Byte) : Bool :=
  decide (reads.length ≤ k.maxPoll) && reads.dropLast.all (fun b => !done b) && reads.getLast?.any done

/-- The status reads of a wait that never succeeds: exactly `MAX_POLL` of them (R80). -/
def waitLate (k : Config) (done : Byte → Bool) (reads : List Byte) : Bool :=
  decide (reads.length = k.maxPoll) && reads.all (fun b => !done b)

/-- The move is one that R78 to R80 allow. -/
def Move.ok (k : Config) : Move → Bool
  | .ibf reads => waitDone k ibfClear reads
  | .obf reads => waitDone k obfSet reads
  | .lateIbf reads => waitLate k ibfClear reads
  | .lateObf reads => waitLate k obfSet reads
  | .acquire | .release | .command _ | .argument _ | .response _ => true

/-- The bytes that the EC answers in a move. -/
def Move.answers : Move → List Byte
  | .ibf reads | .obf reads | .lateIbf reads | .lateObf reads => reads
  | .response b => [b]
  | .acquire | .release | .command _ | .argument _ => []

/-- The events of a move by client `c` (R27). -/
def Move.events (k : Config) (c : Nat) : Move → List Event
  | .acquire => [.acquire c]
  | .release => [.release c]
  | .ibf reads | .obf reads | .lateIbf reads | .lateObf reads => reads.map (.input c k.portCmd)
  | .command b => [.output c k.portCmd b]
  | .argument b => [.output c k.portData b]
  | .response b => [.input c k.portData b]

/-- The EC's answers over a list of moves. -/
def answersOf (ms : List Move) : List Byte :=
  ms.flatMap Move.answers

/-- The events of a list of moves. -/
def eventsOf (k : Config) (c : Nat) (ms : List Move) : List Event :=
  ms.flatMap (Move.events k c)

/-- `ms'` is `ms` up to one of its waits, which now uses up `MAX_POLL`. -/
def RunsOut (ms ms' : List Move) : Prop :=
  ∃ pre post reads late,
    (ms = pre ++ .ibf reads :: post ∧ ms' = pre ++ [.lateIbf late]) ∨
    (ms = pre ++ .obf reads :: post ∧ ms' = pre ++ [.lateObf late])

/-- Operation `i`, issued by client `c` in `s` and run without a turn of another client, makes exactly the
events of `ms` when the EC gives the answers of `ms`, one run turn for each event (R3, R49), and ends with
the response `res`, the lock free and the table and `scanStatus` as given. Nothing else of the state changes
but the client's own sequencer. -/
def EndsWith (s : State) (i : Instr) (c : Nat) (ms : List Move) (res : Response) (table : List Entry)
    (scan : ScanStatus) : Prop :=
  ∀ rest, s.script = answersOf ms ++ rest → ms.all (Move.ok s.cfg) = true →
    ∃ t, performs i c (eventsOf s.cfg c ms).length s = .next t ∧
      t.trace = s.trace ++ eventsOf s.cfg c ms ∧ t.script = rest ∧
      t.phase? c = some .complete ∧ t.result? c = some res ∧ t.lock = .free ∧
      t.table = table ∧ t.scanStatus = scan ∧ OthersKept s t c

/-- The same for an operation that touches neither the table nor `scanStatus`, and each of its waits may run
out: the operation then releases the lock and ends with `Timeout` (R84, R127). -/
def EndsOrTimesOut (s : State) (i : Instr) (c : Nat) (ms : List Move) (res : Response) : Prop :=
  EndsWith s i c ms res s.table s.scanStatus ∧
    ∀ ms', RunsOut ms ms' → EndsWith s i c (ms' ++ [.release]) .timeout s.table s.scanStatus

/-! ## The moves of the composites -/

/-- The answers to one `MemRead`: three waits and the byte (R87). -/
structure ReadAnswers where
  first : List Byte
  second : List Byte
  third : List Byte
  value : Byte
deriving DecidableEq, Repr

/-- The answers to one `MemWrite`: three waits (R88). -/
structure WriteAnswers where
  first : List Byte
  second : List Byte
  third : List Byte
deriving DecidableEq, Repr

/-- `MemRead(addr, 1)` (R87). -/
def readMoves (k : Config) (addr : Byte) (a : ReadAnswers) : List Move :=
  [.ibf a.first, .command k.opRamRead, .ibf a.second, .argument addr, .obf a.third, .response a.value]

/-- `MemWrite(addr, 1, val)` (R88). -/
def writeMoves (k : Config) (addr val : Byte) (a : WriteAnswers) : List Move :=
  [.ibf a.first, .command k.opRamWrite, .ibf a.second, .argument addr, .ibf a.third, .argument val]

/-- One RAM access of a transaction with its lock, under `PerStep` (R108). -/
def stepMoves (k : Config) (body : List Move) : List Move :=
  match k.smbusLockScope with
  | .perStep => .acquire :: (body ++ [.release])
  | .wholeTransaction => body

/-- The lock of a whole transaction, under `WholeTransaction` (R109). -/
def transactionMoves (k : Config) (body : List Move) : List Move :=
  match k.smbusLockScope with
  | .perStep => body
  | .wholeTransaction => .acquire :: (body ++ [.release])

/-- The answers to a transaction, steps 1 to 7: the writes, the poll reads that find the engine busy, the
last poll read, and the status read (R109). -/
structure HeadAnswers where
  channel : WriteAnswers
  slave : WriteAnswers
  command : WriteAnswers
  data : WriteAnswers
  protocol : WriteAnswers
  busy : List ReadAnswers
  idle : ReadAnswers
  status : ReadAnswers
deriving DecidableEq, Repr

/-- Steps 1 to 5: the write path has one write more (R109). -/
def armMoves (k : Config) (kind : SmbKind) (ch slv reg data : Byte) (a : HeadAnswers) : List Move :=
  stepMoves k (writeMoves k k.smbusChannel ch a.channel) ++ stepMoves k (writeMoves k k.smbusSlvAddr slv a.slave)
    ++ stepMoves k (writeMoves k k.smbusCmd reg a.command)
    ++ (if kind = .byteWrite then stepMoves k (writeMoves k k.smbusData data a.data) else [])
    ++ stepMoves k (writeMoves k k.smbusProtocol (smbMode k kind) a.protocol)

/-- Poll reads of `SMBUS_PROTOCOL` (R110). -/
def pollMoves (k : Config) (reads : List ReadAnswers) : List Move :=
  reads.flatMap fun a => stepMoves k (readMoves k k.smbusProtocol a)

/-- Steps 1 to 7 (R109). -/
def headMoves (k : Config) (kind : SmbKind) (ch slv reg data : Byte) (a : HeadAnswers) : List Move :=
  armMoves k kind ch slv reg data a ++ pollMoves k (a.busy ++ [a.idle])
    ++ stepMoves k (readMoves k k.smbusStatus a.status)

/-- The poll ends at the first read of 0x00, within `SMB_MAX_POLL` reads (R110). -/
def HeadAnswers.polls (k : Config) (a : HeadAnswers) : Bool :=
  a.busy.all (fun r => !engineIdle r.value) && engineIdle a.idle.value && decide (a.busy.length < k.smbMaxPoll)

/-- A transaction as a whole: where its status is success, the result cells are read, and it ends or times
out; where it is not, `SmbusError` follows and no result cell is read (R111); where the poll finds the engine
busy `SMB_MAX_POLL` times, `Timeout` follows (R110). -/
def TransactionEnds (s : State) (i : Instr) (c : Nat) (kind : SmbKind) (ch slv reg data : Byte)
    (cells : List Move) (value : Word32) : Prop :=
  ∀ a : HeadAnswers,
    (a.polls s.cfg = true → smbusSuccess a.status.value = true →
      EndsOrTimesOut s i c (transactionMoves s.cfg (headMoves s.cfg kind ch slv reg data a ++ cells)) (.ok value)) ∧
    (a.polls s.cfg = true → smbusSuccess a.status.value = false →
      EndsWith s i c (transactionMoves s.cfg (headMoves s.cfg kind ch slv reg data a)) (.smbusError a.status.value)
        s.table s.scanStatus) ∧
    (a.busy.all (fun r => !engineIdle r.value) = true → a.busy.length = s.cfg.smbMaxPoll →
      EndsWith s i c (transactionMoves s.cfg (armMoves s.cfg kind ch slv reg data a ++ pollMoves s.cfg a.busy))
        .timeout s.table s.scanStatus)

/-- The answers to one index of the scan: seven waits and three bytes (R118). -/
structure SlotAnswers where
  select : List Byte
  index : List Byte
  selected : List Byte
  check : Byte
  getPin : List Byte
  gotPin : List Byte
  pin : Byte
  getDevice : List Byte
  gotDevice : List Byte
  device : Byte
deriving DecidableEq, Repr

/-- The first half of an index: select, and read back. -/
def selectMoves (k : Config) (idx : Nat) (a : SlotAnswers) : List Move :=
  [.ibf a.select, .command k.opTblSelect, .ibf a.index, .argument (BitVec.ofNat 8 idx), .obf a.selected,
   .response a.check]

/-- One index of the scan (R118). -/
def slotMoves (k : Config) (idx : Nat) (a : SlotAnswers) : List Move :=
  selectMoves k idx a ++
    [.ibf a.getPin, .command k.opTblGetPin, .obf a.gotPin, .response a.pin,
     .ibf a.getDevice, .command k.opTblGetDevice, .obf a.gotDevice, .response a.device]

/-- The indices from `idx` on. -/
def slotsMoves (k : Config) : Nat → List SlotAnswers → List Move
  | _, [] => []
  | idx, a :: as => slotMoves k idx a ++ slotsMoves k (idx + 1) as

/-- The entry that an index's answers give. -/
def SlotAnswers.entry (a : SlotAnswers) : Entry :=
  { deviceId := a.device, hwPinNumber := a.pin }

/-- A table whose first entries are those fetched, and every later one undefined (R118). -/
def scannedTable (k : Config) (as : List SlotAnswers) : List Entry :=
  as.map SlotAnswers.entry ++ List.replicate (k.nTbl - as.length) .undefined

/-! ## Bounds -/

/-- The event is a port event (R27). -/
def isPortEvent : Event → Bool
  | .input _ _ _ | .output _ _ _ => true
  | .acquire _ | .release _ => false

/-- The bound on port events of one `MemRead` or `MemWrite` (R151). -/
def ramBound (k : Config) : Nat := 3 * k.maxPoll + 3

/-- Port events at most, by operation (R151). -/
def portBound (k : Config) : Instr → Nat
  | .waitIbf | .waitObf => k.maxPoll
  | .ramRead _ | .ramWrite _ _ | .acpiRead _ | .acpiWrite _ _ => 3 * k.maxPoll + 3
  | .onekeyRead _ | .onekeyWrite _ _ | .oemRead _ | .oemWrite _ _ => 3 * k.maxPoll + 3
  | .gpioStatusRead _ | .gpioStatusWrite _ _ | .gpioDirRead _ | .gpioDirWrite _ _ => 4 * k.maxPoll + 4
  | .adRead _ _ => 7 * k.maxPoll + 7
  | .smbReadByte _ _ _ | .smbWriteByte _ _ _ _ => (6 + k.smbMaxPoll) * ramBound k
  | .smbReadWord _ _ _ => (7 + k.smbMaxPoll) * ramBound k
  | .tableScan => k.nTbl * (7 * k.maxPoll + 7)
  | .tableRead _ => 0

/-- Lock events at most, by operation (R151). -/
def lockBound (k : Config) : Instr → Nat
  | .smbReadByte _ _ _ | .smbWriteByte _ _ _ _ =>
    match k.smbusLockScope with
    | .perStep => 2 * (6 + k.smbMaxPoll)
    | .wholeTransaction => 2
  | .smbReadWord _ _ _ =>
    match k.smbusLockScope with
    | .perStep => 2 * (7 + k.smbMaxPoll)
    | .wholeTransaction => 2
  | .tableRead _ => 0
  | .waitIbf | .waitObf | .ramRead _ | .ramWrite _ _ | .acpiRead _ | .acpiWrite _ _ => 2
  | .onekeyRead _ | .onekeyWrite _ _ | .oemRead _ | .oemWrite _ _ | .adRead _ _ | .tableScan => 2
  | .gpioStatusRead _ | .gpioStatusWrite _ _ | .gpioDirRead _ | .gpioDirWrite _ _ => 2

end Sys2Proof.Machine
end

