-- ==== Sys2Proof/Certificates/Slice0/Obligations.lean ====
section
/-!
DEFINITION. The statements for the provers. Each docstring names the rules of the spec that the statement
formalises, and the model's own choices that it rests on.
-/
open Sys2Proof Sys2Proof.Machine

/-! ## Encoding -/

/-- R72, R76: what is encoded decodes to itself, with the rest of the stream left, and nothing else decodes
to it. -/
def Obligations.DecodeEncodeAgree : Prop :=
  (∀ (i : Instr) (rest : List Byte), decode (encode i ++ rest) = .ok (i, rest)) ∧
  (∀ (bytes rest : List Byte) (i : Instr), decode bytes = .ok (i, rest) → bytes = encode i ++ rest)

/-- R68, R72: a 40-bit descriptor decodes to an operation exactly where it is that operation's descriptor. -/
def Obligations.DescriptorIsItsEncoding : Prop :=
  ∀ (w : Req) (i : Instr), decodeReq w = .ok i ↔ w = encodeReq i

/-- R73: a descriptor selects the row whose `op` and whose zero reserved bytes it has, and at most one row
matches. -/
def Obligations.DescriptorSelectsItsRow : Prop :=
  (∀ (w : Req) (i : Instr), decodeReq w = .ok i → w &&& i.mask = i.pattern) ∧
  (∀ (w : Req) (j : Instr), w &&& j.mask = j.pattern → ∃ i, decodeReq w = .ok i ∧ i.opcode = j.opcode) ∧
  (∀ (w : Req) (i j : Instr), w &&& i.mask = i.pattern → w &&& j.mask = j.pattern → i.opcode = j.opcode)

/-- R74: every other `op`, and a reserved operand byte that is not zero, make a descriptor illegal, and the
machine refuses it: the mark is set, and no port access and no response follows. -/
def Obligations.IllegalDescriptorsAreRefused : Prop :=
  (∀ op a0 a1 a2 a3 : Byte, (∀ i : Instr, i.opcode ≠ op) →
    decodeFields op a0 a1 a2 a3 = .error (.reservedOp op)) ∧
  (∀ (i : Instr) (a0 a1 a2 a3 : Byte), packReq i.opcode a0 a1 a2 a3 &&& i.mask ≠ i.pattern →
    decodeFields i.opcode a0 a1 a2 a3 = .error .reservedOperand) ∧
  (∀ (s : State) (c : Nat) (w : Req) (e : Reject), s.nextTurn = .request c w → decodeReq w = .error e →
    step s = .next s.takeTurn.markRefused)

/-- R68, R72: descriptors written out by hand from the operation map, one or more of each family. -/
def Obligations.WrittenDescriptorsDecode : Prop :=
  decodeReq 0x0000000001 = .ok .waitIbf ∧
  decodeReq 0x0000002B10 = .ok (.ramRead 0x2B) ∧
  decodeReq 0x0000AB0521 = .ok (.acpiWrite 0x05 0xAB) ∧
  decodeReq 0x0000020126 = .ok (.adRead 0x01 0x02) ∧
  decodeReq 0x5510A00131 = .ok (.smbWriteByte 0x01 0xA0 0x10 0x55) ∧
  decodeReq 0x0000000040 = .ok .tableScan ∧
  decodeReq 0x0000000141 = .ok (.tableRead 0x01) ∧
  decodeReq 0x0000000027 = .error (.reservedOp 0x27) ∧
  decodeReq 0x0000010010 = .error .reservedOperand

/-! ## A step -/

/-- A request turn runs `exec` of the decoded operation, in the state with that turn taken. -/
def Obligations.StepIssuesTheDecodedRequest : Prop :=
  ∀ (s : State) (c : Nat) (w : Req) (i : Instr), s.nextTurn = .request c w → decodeReq w = .ok i →
    step s = exec i s.takeTurn ∧ s.takeTurn.now = .request c w

/-- A run turn of a Busy client runs `exec` of the operation whose descriptor the client's latches hold, in the
state with that turn taken. Where the client has nothing to run, the turn passes. -/
def Obligations.StepRunsTheLatchedOperation : Prop :=
  (∀ (s : State) (c pc : Nat) (stage : Stage) (L : Latches) (i : Instr), s.nextTurn = .run c →
    s.client? c = some { phase := .busy pc stage, latches := L } → L.operation = some i →
    step s = exec i s.takeTurn ∧ s.takeTurn.now = .run c) ∧
  (∀ (s : State) (c : Nat), s.nextTurn = .run c → (∀ pc stage, s.phase? c ≠ some (.busy pc stage)) →
    step s = .next s.takeTurn)

/-- R42: every field right after attach, which is reset; before the first attach and after an admitted detach there is
no context: no sequencer and no entry is left. The configuration is fixed for the instance (R8), and its open parameters
are free values. That the product string is then empty and the lock Free is the model's (DEDUCED, log entries 7 and 16):
R42 says that these fields are gone, and what stands in them is a placeholder. -/
def Obligations.ResetValues : Prop :=
  (State.reset.life = .attached ∧ State.reset.lock = .free ∧
    (∀ n, n < State.reset.cfg.nTbl → State.reset.table[n]? = some { deviceId := 0xFF, hwPinNumber := 0xFF }) ∧
    State.reset.table.length = State.reset.cfg.nTbl ∧ State.reset.scanStatus = .notRun ∧
    State.reset.product = Config.product ∧ State.reset.trace = [] ∧ State.reset.refused = false ∧
    State.reset.clients.length = State.reset.cfg.nClients ∧
    (∀ c, c < State.reset.cfg.nClients → State.reset.client? c = some { phase := .idle, latches := {} })) ∧
  (∀ k : Config, (State.detached k).life = .detached ∧ (State.detached k).clients = [] ∧ (State.detached k).table = []) ∧
  (∀ s : State, s.detach.life = .detached → s.life = .attached →
    s.detach.clients = [] ∧ s.detach.table = [] ∧ s.detach.product = "" ∧ s.detach.lock = .free)

/-! ## Admission -/

/-- R75: a request is admitted exactly under the five conditions; it then sets the phase, the micro-step index
and the operand latches, and for TABLE_SCAN `scanStatus` and the table, in one step; otherwise the mark is set
and nothing else happens. -/
def Obligations.AdmissionOfRequests : Prop :=
  ∀ (s : State) (c : Nat) (w : Req), s.nextTurn = .request c w →
    (∀ i, Admits s c w i → ∃ t L, step s = .next t ∧
      t.client? c = some { phase := .busy 0 .start, latches := L } ∧
      L.op = some (w.extractLsb' 0 8) ∧ L.a0 = some (w.extractLsb' 8 8) ∧ L.a1 = some (w.extractLsb' 16 8) ∧
      L.a2 = some (w.extractLsb' 24 8) ∧ L.a3 = some (w.extractLsb' 32 8) ∧
      t.scanStatus = (if i = .tableScan then .running else s.scanStatus) ∧
      t.table = (if i = .tableScan then List.replicate s.cfg.nTbl Entry.undefined else s.table) ∧
      t.lock = s.lock ∧ t.trace = s.trace ∧ t.script = s.script ∧ t.reads = s.reads ∧ OthersKept s.takeTurn t c) ∧
    ((∀ i, ¬ Admits s c w i) → step s = .next s.takeTurn.markRefused)

/-- R75: for every operation, `exec` in the turn of an admitted request answers a next state: the client is Busy
at step 0 with the descriptor in its latches (every other latch unwritten: DEDUCED, log entry 12). -/
def Obligations.IssueAnswersNext : Prop :=
  ∀ (i : Instr) (s : State) (c : Nat), s.now = .request c (encodeReq i) → Admits s c (encodeReq i) i →
    exec i s = .next
      ((if i = .tableScan then
          { s with scanStatus := .running, table := List.replicate s.cfg.nTbl Entry.undefined }
        else s).setClient c
        { phase := .busy 0 .start
          latches := { op := some i.opcode, a0 := some i.operands.1, a1 := some i.operands.2.1,
                       a2 := some i.operands.2.2.1, a3 := some i.operands.2.2.2 } })

/-! ## The last step of each operation: `exec` answers a next state with the result -/

/-- R89, R96, R98, R100, R104, R106 with R129: the last step of RAM_READ, ACPI_READ, GPIO_STATUS_READ,
GPIO_DIR_READ, ONEKEY_READ and OEM_READ is the `Release()`, and the operation ends there with the byte last read
from DATA. -/
def Obligations.ReadsFinish : Prop :=
  ∀ (s : State) (c pc : Nat) (L : Latches) (i : Instr) (x b : Byte),
    i ∈ [.ramRead x, .acpiRead x, .gpioStatusRead x, .gpioDirRead x, .onekeyRead x, .oemRead x] →
    s.now = .run c → s.client? c = some { phase := .busy pc .start, latches := L } →
    pc + 1 = (seqOf s.cfg i).length → s.lock = .held c → L.v = some b →
    exec i s = .next (({ s with lock := .free, trace := s.trace ++ [Event.release c] } : State).setClient c
      { phase := .complete, latches := { L with res := some (.ok (b.setWidth 32)) } })

/-- R85, R86, R90, R97, R99, R101, R105, R107 with R129: the last step of WAIT_IBF, WAIT_OBF, RAM_WRITE,
ACPI_WRITE, GPIO_STATUS_WRITE, GPIO_DIR_WRITE, ONEKEY_WRITE and OEM_WRITE is the `Release()`, and the operation
ends there with 0. -/
def Obligations.WritesFinish : Prop :=
  ∀ (s : State) (c pc : Nat) (L : Latches) (i : Instr) (x y : Byte),
    i ∈ [.waitIbf, .waitObf, .ramWrite x y, .acpiWrite x y, .gpioStatusWrite x y, .gpioDirWrite x y,
      .onekeyWrite x y, .oemWrite x y] →
    s.now = .run c → s.client? c = some { phase := .busy pc .start, latches := L } →
    pc + 1 = (seqOf s.cfg i).length → s.lock = .held c →
    exec i s = .next (({ s with lock := .free, trace := s.trace ++ [Event.release c] } : State).setClient c
      { phase := .complete, latches := { L with res := some (.ok 0) } })

/-- R102, R103, R113, R114, R115, R118, R119 with R129: the last step of AD_READ, of the three SMBus operations, of
TABLE_SCAN and of TABLE_READ. The last step of SMB_WRITE_BYTE checks the status too where each RAM step has its own
lock. -/
def Obligations.OtherOperationsFinish : Prop :=
  ∀ (s : State) (c pc : Nat) (L : Latches), s.now = .run c →
    s.client? c = some { phase := .busy pc .start, latches := L } →
    (∀ index mult lsb msb : Byte, pc + 1 = (seqOf s.cfg (.adRead index mult)).length → s.lock = .held c →
      L.lsb = some lsb → L.msb = some msb → L.a1 = some mult →
      exec (.adRead index mult) s = .next (({ s with lock := .free, trace := s.trace ++ [Event.release c] } : State).setClient c
        { phase := .complete
          latches := { L with res := some (.ok
            ((((msb.setWidth 32 <<< 8) ||| lsb.setWidth 32) &&& 0x3FF#32) * mult.setWidth 32 * 100#32)) } })) ∧
    (∀ ch slv reg d0 : Byte, pc + 1 = (seqOf s.cfg (.smbReadByte ch slv reg)).length → s.lock = .held c →
      L.d0 = some d0 →
      exec (.smbReadByte ch slv reg) s = .next (({ s with lock := .free, trace := s.trace ++ [Event.release c] } : State).setClient c
        { phase := .complete, latches := { L with res := some (.ok (d0.setWidth 32)) } })) ∧
    (∀ ch slv reg data : Byte, pc + 1 = (seqOf s.cfg (.smbWriteByte ch slv reg data)).length → s.lock = .held c →
      L.st = some 0x80 →
      exec (.smbWriteByte ch slv reg data) s =
        .next (({ s with lock := .free, trace := s.trace ++ [Event.release c] } : State).setClient c
          { phase := .complete, latches := { L with res := some (.ok 0) } })) ∧
    (∀ ch slv reg d0 d1 : Byte, pc + 1 = (seqOf s.cfg (.smbReadWord ch slv reg)).length → s.lock = .held c →
      L.d0 = some d0 → L.d1 = some d1 →
      exec (.smbReadWord ch slv reg) s = .next (({ s with lock := .free, trace := s.trace ++ [Event.release c] } : State).setClient c
        { phase := .complete, latches := { L with res := some (.ok ((d0 ++ d1).setWidth 32)) } })) ∧
    (pc + 1 = (seqOf s.cfg .tableScan).length → s.lock = .held c →
      exec .tableScan s = .next (({ s with
          lock := .free, trace := s.trace ++ [Event.release c], scanStatus := .done } : State).setClient c
        { phase := .complete, latches := { L with res := some (.ok 0) } })) ∧
    (∀ (index : Byte) (e : Entry), pc = 0 → L.a0 = some index → s.table[index.toNat]? = some e →
      exec (.tableRead index) s = .next (s.setClient c
        { phase := .complete
          latches := { L with res := some (.ok ((e.deviceId ++ e.hwPinNumber).setWidth 32)) } }))

/-! ## Whole operations -/

/-- R85: WAIT_IBF holds the lock around one `WaitIBF()`, which ends at the first status read with bit 1 clear, or
after `MAX_POLL` reads with bit 1 set. -/
def Obligations.WaitIbfRuns : Prop :=
  Instr.waitIbf.opcode = 0x01 ∧ Instr.waitIbf.operands = (0, 0, 0, 0) ∧
  ∀ (s : State) (c : Nat) (reads : List Byte), s.cfg.wf = true → s.table.length = s.cfg.nTbl → Ready s c →
    EndsOrTimesOut s .waitIbf c [.acquire, .ibf reads, .release] (.ok 0)

/-- R86: WAIT_OBF holds the lock around one `WaitOBF()`, which ends at the first status read with bit 0 set, or
after `MAX_POLL` reads with bit 0 clear. -/
def Obligations.WaitObfRuns : Prop :=
  Instr.waitObf.opcode = 0x02 ∧ Instr.waitObf.operands = (0, 0, 0, 0) ∧
  ∀ (s : State) (c : Nat) (reads : List Byte), s.cfg.wf = true → s.table.length = s.cfg.nTbl → Ready s c →
    EndsOrTimesOut s .waitObf c [.acquire, .obf reads, .release] (.ok 0)

/-- R80: a wait that succeeds on its k-th status read makes exactly k reads, and one that never does makes exactly
`MAX_POLL` reads and then raises `Timeout`, with no read after that: for either wait, as its own operation. -/
def Obligations.WaitReadCounts : Prop :=
  ∀ (s : State) (c : Nat) (reads rest : List Byte) (i : Instr) (done : Byte → Bool),
    (i = .waitIbf ∧ done = fun b => !b.getLsbD 1) ∨ (i = .waitObf ∧ done = fun b => b.getLsbD 0) →
    s.cfg.wf = true → s.table.length = s.cfg.nTbl → Ready s c → s.script = reads ++ rest →
    (∀ last, reads = reads.dropLast ++ [last] → reads.length ≤ s.cfg.maxPoll →
      (∀ b ∈ reads.dropLast, done b = false) → done last = true →
      ∃ t, performs i c (reads.length + 2) s = .next t ∧ t.script = rest ∧ t.result? c = some (.ok 0) ∧
        t.trace = s.trace ++ [.acquire c] ++ reads.map (.input c s.cfg.portCmd) ++ [.release c]) ∧
    (reads.length = s.cfg.maxPoll → (∀ b ∈ reads, done b = false) →
      ∃ t, performs i c (s.cfg.maxPoll + 2) s = .next t ∧ t.script = rest ∧ t.result? c = some .timeout ∧
        t.trace = s.trace ++ [.acquire c] ++ reads.map (.input c s.cfg.portCmd) ++ [.release c])

/-- R87, R89, R92, R96, R104, R106: RAM_READ, ACPI_READ, ONEKEY_READ and OEM_READ, each with the EC opcode of its
family: three waits, the opcode to COMMAND, the address to DATA, and the byte read is the result. -/
def Obligations.UncheckedReadsRun : Prop :=
  ∀ (s : State) (c : Nat) (i : Instr) (opc addr b : Byte) (w1 w2 w3 : List Byte),
    (i, opc) ∈ [(.ramRead addr, s.cfg.opRamRead), (.acpiRead addr, s.cfg.opAcpiRead),
      (.onekeyRead addr, s.cfg.opOnekeyRead), (.oemRead addr, s.cfg.opOemRead)] →
    s.cfg.wf = true → s.table.length = s.cfg.nTbl → Ready s c →
    EndsOrTimesOut s i c
      [.acquire, .ibf w1, .command opc, .ibf w2, .argument addr, .obf w3, .response b, .release]
      (.ok (b.setWidth 32))

/-- R88, R90, R92, R97, R105, R107: RAM_WRITE, ACPI_WRITE, ONEKEY_WRITE and OEM_WRITE: three `WaitIBF()`s, the opcode
to COMMAND, the address and the value to DATA, and no wait after the value. -/
def Obligations.UncheckedWritesRun : Prop :=
  ∀ (s : State) (c : Nat) (i : Instr) (opc addr value : Byte) (w1 w2 w3 : List Byte),
    (i, opc) ∈ [(.ramWrite addr value, s.cfg.opRamWrite), (.acpiWrite addr value, s.cfg.opAcpiWrite),
      (.onekeyWrite addr value, s.cfg.opOnekeyWrite), (.oemWrite addr value, s.cfg.opOemWrite)] →
    s.cfg.wf = true → s.table.length = s.cfg.nTbl → Ready s c →
    EndsOrTimesOut s i c
      [.acquire, .ibf w1, .command opc, .ibf w2, .argument addr, .ibf w3, .argument value, .release] (.ok 0)

/-- R92, R95, R98, R100: GPIO_STATUS_READ and GPIO_DIR_READ read a validation byte after the pin: 0xFF ends the
operation with `InvalidTarget` and no further port access, any other byte lets it go on. -/
def Obligations.GpioReadsRun : Prop :=
  ∀ (s : State) (c : Nat) (i : Instr) (opc pin chk b : Byte) (w1 w2 w3 w4 : List Byte),
    (i, opc) ∈ [(.gpioStatusRead pin, s.cfg.opGpioStatusRead), (.gpioDirRead pin, s.cfg.opGpioDirRead)] →
    s.cfg.wf = true → s.table.length = s.cfg.nTbl → Ready s c →
    (chk ≠ 0xFF → EndsOrTimesOut s i c
      [.acquire, .ibf w1, .command opc, .ibf w2, .argument pin, .obf w3, .response chk, .obf w4, .response b, .release]
      (.ok (b.setWidth 32))) ∧
    EndsWith s i c [.acquire, .ibf w1, .command opc, .ibf w2, .argument pin, .obf w3, .response 0xFF, .release]
      .invalidTarget s.table s.scanStatus

/-- R92, R95, R99, R101: the same for GPIO_STATUS_WRITE and GPIO_DIR_WRITE. -/
def Obligations.GpioWritesRun : Prop :=
  ∀ (s : State) (c : Nat) (i : Instr) (opc pin value chk : Byte) (w1 w2 w3 w4 : List Byte),
    (i, opc) ∈ [(.gpioStatusWrite pin value, s.cfg.opGpioStatusWrite), (.gpioDirWrite pin value, s.cfg.opGpioDirWrite)] →
    s.cfg.wf = true → s.table.length = s.cfg.nTbl → Ready s c →
    (chk ≠ 0xFF → EndsOrTimesOut s i c
      [.acquire, .ibf w1, .command opc, .ibf w2, .argument pin, .obf w3, .response chk, .ibf w4, .argument value,
       .release] (.ok 0)) ∧
    EndsWith s i c [.acquire, .ibf w1, .command opc, .ibf w2, .argument pin, .obf w3, .response 0xFF, .release]
      .invalidTarget s.table s.scanStatus

/-- R95, R102, R103: AD_READ selects and validates the index, reads the low and the high byte, and returns the low
10 bits of `{msb, lsb}` times the multiplier times 100. -/
def Obligations.AdReadRuns : Prop :=
  ∀ (s : State) (c : Nat) (index mult chk lsb msb : Byte) (w1 w2 w3 w4 w5 w6 w7 : List Byte),
    s.cfg.wf = true → s.table.length = s.cfg.nTbl → Ready s c →
    (chk ≠ 0xFF → EndsOrTimesOut s (.adRead index mult) c
      [.acquire, .ibf w1, .command s.cfg.opAdIndex, .ibf w2, .argument index, .obf w3, .response chk,
       .ibf w4, .command s.cfg.opAdLsb, .obf w5, .response lsb,
       .ibf w6, .command s.cfg.opAdMsb, .obf w7, .response msb, .release]
      (.ok (BitVec.ofNat 32 ((msb.toNat * 256 + lsb.toNat) % 1024 * mult.toNat * 100)))) ∧
    EndsWith s (.adRead index mult) c
      [.acquire, .ibf w1, .command s.cfg.opAdIndex, .ibf w2, .argument index, .obf w3, .response 0xFF, .release]
      .invalidTarget s.table s.scanStatus

/-- R108 to R113: SMB_READ_BYTE under either lock scope: the three address cells, the mode, the idle poll, the status
check, and the result cell at offset 0; `SmbusError` and the poll's `Timeout` included. -/
def Obligations.SmbReadByteRuns : Prop :=
  ∀ (s : State) (c : Nat) (ch slv reg : Byte) (d : ReadAnswers),
    s.cfg.wf = true → s.table.length = s.cfg.nTbl → Ready s c →
    TransactionEnds s (.smbReadByte ch slv reg) c .byteRead ch slv reg 0
      (stepMoves s.cfg (readMoves s.cfg s.cfg.smbusData d)) (d.value.setWidth 32)

/-- R108 to R112, R114: SMB_WRITE_BYTE under either lock scope: the data cell is written before the mode, and no
result cell is read. -/
def Obligations.SmbWriteByteRuns : Prop :=
  ∀ (s : State) (c : Nat) (ch slv reg data : Byte),
    s.cfg.wf = true → s.table.length = s.cfg.nTbl → Ready s c →
    TransactionEnds s (.smbWriteByte ch slv reg data) c .byteWrite ch slv reg data [] 0

/-- R108 to R112, R115: SMB_READ_WORD under either lock scope: the cell at offset 0 is read first and is the high
byte. -/
def Obligations.SmbReadWordRuns : Prop :=
  ∀ (s : State) (c : Nat) (ch slv reg : Byte) (d0 d1 : ReadAnswers),
    s.cfg.wf = true → s.table.length = s.cfg.nTbl → Ready s c →
    TransactionEnds s (.smbReadWord ch slv reg) c .wordRead ch slv reg 0
      (stepMoves s.cfg (readMoves s.cfg s.cfg.smbusData d0)
        ++ stepMoves s.cfg (readMoves s.cfg s.cfg.smbusDataOffset1 d1))
      ((d0.value ++ d1.value).setWidth 32)

/-- R116, R118: TABLE_SCAN fetches every index in turn and ends with `Done`; a read-back of 0xFF ends it with
`InvalidTable`, a wait that runs out with `Timeout`, in both cases with `Failed`, the entries already fetched
kept and every later one undefined. -/
def Obligations.TableScanRuns : Prop :=
  ∀ (s : State) (c : Nat) (slots : List SlotAnswers), s.cfg.wf = true → Ready s c →
    s.scanStatus = .notRun ∨ s.scanStatus = .failed → slots.all (fun a => !isSentinel a.check) = true →
    (slots.length = s.cfg.nTbl →
      EndsWith s .tableScan c (.acquire :: (slotsMoves s.cfg 0 slots ++ [.release])) (.ok 0)
        (slots.map SlotAnswers.entry) .done) ∧
    (∀ a : SlotAnswers, slots.length < s.cfg.nTbl → a.check = 0xFF →
      EndsWith s .tableScan c
        (.acquire :: (slotsMoves s.cfg 0 slots ++ selectMoves s.cfg slots.length a ++ [.release])) .invalidTable
        (scannedTable s.cfg slots) .failed) ∧
    (∀ (a : SlotAnswers) (cut : List Move), slots.length < s.cfg.nTbl → a.check ≠ 0xFF →
      RunsOut (slotMoves s.cfg slots.length a) cut →
      EndsWith s .tableScan c (.acquire :: (slotsMoves s.cfg 0 slots ++ cut ++ [.release])) .timeout
        (scannedTable s.cfg slots) .failed)

/-- R119: TABLE_READ is one step with no lock and no port access, and returns the entry with `deviceId` in bits
15:8. It needs no lock, so it runs while another client holds it, also while a scan runs. An index past the table is
refused. -/
def Obligations.TableReadRuns : Prop :=
  (∀ index : Byte, (Instr.tableRead index).opcode = 0x41 ∧ (Instr.tableRead index).operands = (index, 0, 0, 0)) ∧
  (∀ (s : State) (c : Nat) (index : Byte), s.nextTurn = .request c (encodeReq (.tableRead index)) →
    ¬ index.toNat < s.cfg.nTbl → step s = .next s.takeTurn.markRefused) ∧
  ∀ (s : State) (c : Nat) (index : Byte) (e : Entry), s.life = .attached → s.phase? c = some .idle →
    index.toNat < s.cfg.nTbl → s.table[index.toNat]? = some e →
    ∃ t, performs (.tableRead index) c 1 s = .next t ∧ t.trace = s.trace ∧ t.script = s.script ∧ t.lock = s.lock ∧
      t.table = s.table ∧ t.scanStatus = s.scanStatus ∧ t.phase? c = some .complete ∧
      t.result? c = some (.ok ((e.deviceId ++ e.hwPinNumber).setWidth 32)) ∧ OthersKept s t c

/-- The machine refines the spec's pseudocode (40_port_primitives.md to 44_table_discovery.md): every operation,
issued and run, for any answers of the EC, ends in the state, the latches and the response that its pseudocode
gives, and the run has one turn for each event of the trace (one in all for TABLE_READ). The run has no turn of another
client (log entry 8), and its latches start from the descriptor's alone (DEDUCED, log entry 12). The pseudocode is
taken with the model's reading of R31: a read accessor writes `v` at its validation, low and high byte reads too, where
R92 and R103 name no `v` (DEDUCED, log entry 15). -/
def Obligations.RunsRefineThePseudocode : Prop :=
  ∀ (s : State) (c : Nat) (i : Instr), s.cfg.wf = true → s.table.length = s.cfg.nTbl → Ready s c →
    i.wellFormed s.cfg.nTbl = true → (i = .tableScan → s.scanStatus = .notRun ∨ s.scanStatus = .failed) →
    ∀ r w L, Pseudo.operation s.cfg c i (s.atTurn (.run c), Latches.ofRequest i) = (r, (w, L)) →
      ∃ n, performs i c n s = .next (w.setClient c
          { phase := .complete, latches := { L with res := some (Pseudo.response r) } }) ∧
        (∀ index, i ≠ .tableRead index → w.trace.length = s.trace.length + n) ∧
        (∀ index, i = .tableRead index → n = 1 ∧ w.trace = s.trace)

/-- R151: every operation ends after a bounded number of its own steps, whatever the EC answers, with no more port
events and lock events than the table allows. The run is one that no turn of another client interrupts: the model's
choice of what to count. -/
def Obligations.OperationsEndWithinTheirBounds : Prop :=
  ∀ (s : State) (c : Nat) (i : Instr), s.cfg.wf = true → s.table.length = s.cfg.nTbl → Ready s c →
    i.wellFormed s.cfg.nTbl = true → (i = .tableScan → s.scanStatus = .notRun ∨ s.scanStatus = .failed) →
    ∃ n t es, performs i c n s = .next t ∧ t.phase? c = some .complete ∧ t.trace = s.trace ++ es ∧
      (es.filter isPortEvent).length ≤ portBound s.cfg i ∧
      (es.filter fun e => !isPortEvent e).length ≤ lockBound s.cfg i

/-- R122: the error kinds that each operation can end with, whatever the EC answers, in a run that no turn of another
client interrupts (log entry 8). ResultsAreOfAllowedKinds says the same of every single step. -/
def Obligations.ErrorKindsByOperation : Prop :=
  ∀ (s : State) (c : Nat) (i : Instr), s.cfg.wf = true → s.table.length = s.cfg.nTbl → Ready s c →
    i.wellFormed s.cfg.nTbl = true → (i = .tableScan → s.scanStatus = .notRun ∨ s.scanStatus = .failed) →
    ∃ n t res, performs i c n s = .next t ∧ t.phase? c = some .complete ∧ t.result? c = some res ∧
      mayEndWith i res = true

/-! ## Single steps -/

/-- R122, in every interleaving: a run turn that ends an operation leaves a result that the operation's row allows.
The result is the one of the client whose turn it is, of the operation whose descriptor its latches held. -/
def Obligations.ResultsAreOfAllowedKinds : Prop :=
  ∀ (s t : State) (c pc : Nat) (stage : Stage) (L : Latches) (i : Instr), Inv s → s.nextTurn = .run c →
    s.client? c = some { phase := .busy pc stage, latches := L } → L.operation = some i → step s = .next t →
    t.phase? c = some .complete → ∃ res, t.result? c = some res ∧ mayEndWith i res = true

/-- R58: an `Acquire()` takes a free lock, appends its event and goes on to the next step with its latches as they are;
while another client holds the lock the step is disabled, and only the holder's own `Release()` ends that. That a disabled step is a turn that passes with nothing changed is the model's form
(DESIGN CHOICE, log entry 11). -/
def Obligations.AcquireStep : Prop :=
  (∀ (s : State) (c pc : Nat) (L : Latches) (i : Instr) (m : Micro), Stands s c i pc L m → m.act = .acquire →
    (s.lock = .free → ∃ t, exec i s = .next t ∧ t.lock = .held c ∧ t.trace = s.trace ++ [.acquire c] ∧
      t.client? c = some { phase := .busy (pc + 1) .start, latches := L } ∧
      t.table = s.table ∧ t.scanStatus = s.scanStatus ∧ t.script = s.script ∧ t.reads = s.reads ∧ OthersKept s t c) ∧
    (∀ d, s.lock = .held d → exec i s = .next s)) ∧
  (∀ (s t : State) (d : Nat), s.life = .attached → s.lock = .held d → step s = .next t → t.lock ≠ s.lock →
    s.nextTurn = .run d ∧ t.lock = .free ∧ t.trace = s.trace ++ [.release d])

/-- R59: a `Release()` is performed only by the holder, frees the lock and appends its event; the operation goes on to its
next step, or ends there with success (but for a decision that hangs on the step, IdlePollStep and StatusCheckStep); and
an operation is never at its end, nor Idle, with the lock held. -/
def Obligations.ReleaseStep : Prop :=
  (∀ (s : State) (c pc : Nat) (L : Latches) (i : Instr) (m : Micro), Stands s c i pc L m → m.act = .release →
    s.lock = .held c ∧ ∃ t q, exec i s = .next t ∧ t.lock = .free ∧ t.trace = s.trace ++ [.release c] ∧
      t.client? c = some q ∧ (∀ l, q.latches.read l = L.read l) ∧ q.latches.poll = L.poll ∧ q.latches.idx = L.idx ∧
      ((∀ back, m.after ≠ .checkIdle back) → q.latches.spoll = L.spoll) ∧
      t.table = s.table ∧ t.script = s.script ∧ t.reads = s.reads ∧ OthersKept s t c ∧
      (m.after = .proceed → pc + 1 < (seqOf s.cfg i).length → q.phase = .busy (pc + 1) .start ∧ q.latches = L ∧
        t.scanStatus = s.scanStatus) ∧
      (m.after = .proceed → pc + 1 = (seqOf s.cfg i).length → q.phase = .complete ∧
        ∃ v, q.latches = { L with res := some (.ok v) })) ∧
  (∀ (s : State) (c : Nat), Inv s → s.phase? c = some .complete ∨ s.phase? c = some .idle → s.lock ≠ .held c)

/-- R54: a `PortOut` step appends its event with the byte that the sequence names, never blocks and never fails, and
changes no other state of the block: the sequencer goes on to its next step with its latches as they are. -/
def Obligations.PortOutStep : Prop :=
  ∀ (s : State) (c pc : Nat) (L : Latches) (i : Instr) (m : Micro), Stands s c i pc L m →
    (∀ b, m.act = .command b → ∃ t q, exec i s = .next t ∧ t.trace = s.trace ++ [.output c s.cfg.portCmd b] ∧
      t.client? c = some q ∧ q.phase = .busy (pc + 1) .start ∧ q.latches = L ∧
      t.lock = s.lock ∧ t.table = s.table ∧ t.scanStatus = s.scanStatus ∧ t.script = s.script ∧ t.reads = s.reads ∧
      OthersKept s t c) ∧
    (∀ src, m.act = .argument src → ∃ b t q, src.byte L = .ok b ∧ exec i s = .next t ∧
      t.trace = s.trace ++ [.output c s.cfg.portData b] ∧
      t.client? c = some q ∧ q.phase = .busy (pc + 1) .start ∧ q.latches = L ∧
      t.lock = s.lock ∧ t.table = s.table ∧ t.scanStatus = s.scanStatus ∧ t.script = s.script ∧ t.reads = s.reads ∧
      OthersKept s t c)

/-- R15, R31, R49, R53: a `PortIn(PORT_DATA)` step is answered by the oracle, appends its event, and latches the byte
where the sequence says, for a read accessor and the SMBus operations in `v` too (log entry 15); every other byte latch
stays. Where no decision and no entry hang on the read, the sequencer goes on to its next step with nothing else changed;
ValidationStep, IdlePollStep, StatusCheckStep and EntryStep say what happens where one does. -/
def Obligations.DataReadStep : Prop :=
  ∀ (s : State) (c pc : Nat) (L : Latches) (i : Instr) (m : Micro) (ls : List Latch), Stands s c i pc L m →
    m.act = .response ls →
    ∃ t q, exec i s = .next t ∧ t.trace = s.trace ++ [.input c s.cfg.portData (s.answer .data)] ∧
      t.client? c = some q ∧ (∀ l ∈ ls, q.latches.read l = some (s.answer .data)) ∧
      (∀ l, l ∉ ls → q.latches.read l = L.read l) ∧
      (.v ∈ latchesOf i → q.latches.v = some (s.answer .data)) ∧
      q.latches.poll = L.poll ∧ q.latches.res = L.res ∧
      t.lock = s.lock ∧ t.scanStatus = s.scanStatus ∧ t.script = s.script.tail ∧ t.reads = s.reads + 1 ∧
      OthersKept s t c ∧
      ((∀ back, m.after ≠ .checkIdle back) → q.latches.spoll = L.spoll) ∧
      ((∀ back, m.after ≠ .storeEntry back) → q.latches.idx = L.idx ∧ t.table = s.table) ∧
      (m.after = .proceed → q.phase = .busy (pc + 1) .start)

/-- R95, R118: the read of a validation byte: 0xFF raises `InvalidTarget`, in the scan `InvalidTable`, with the lock held
so that only the `Release()` is left; any other byte lets the operation go on. -/
def Obligations.ValidationStep : Prop :=
  ∀ (s : State) (c pc : Nat) (L : Latches) (i : Instr) (m : Micro) (e : Response), Stands s c i pc L m →
    (m.after = .checkTarget ∧ e = .invalidTarget) ∨ (m.after = .checkTable ∧ e = .invalidTable) →
    ∃ t q, exec i s = .next t ∧ t.client? c = some q ∧ q.latches.chk = some (s.answer .data) ∧ t.lock = .held c ∧
      t.trace = s.trace ++ [.input c s.cfg.portData (s.answer .data)] ∧ t.table = s.table ∧
      t.scanStatus = s.scanStatus ∧ OthersKept s t c ∧
      q.phase = (if s.answer .data = 0xFF then .busy pc (.abort e) else .busy (pc + 1) .start)

/-- R109, R110: the decision of the idle poll on the byte `b` of SMBUS_PROTOCOL with `n` busy reads behind it: 0x00 goes
on, any other byte counts, and the read before that makes `SMB_MAX_POLL` raises `Timeout` where it would else loop back to
the first step of the same `RamR`. The decision belongs to the last step of that `RamR` (DEDUCED, log entry 15): the
`Release()` under `PerStep`, so that the operation then ends in it, and the DATA read under `WholeTransaction`, with the
operation's `Release()` left. The first status read of the same `RamR` is where `L.spoll` starts (StatusReadStep). -/
def Obligations.IdlePollStep : Prop :=
  ∀ (s : State) (c pc back : Nat) (L : Latches) (i : Instr) (m : Micro), Stands s c i pc L m →
    m.after = .checkIdle back →
    ((seqOf s.cfg i).drop (pc - back)).take (back + 1) =
      ramR s.cfg s.cfg.smbusProtocol .pr (.checkIdle back) (some .spoll) ∧
    ∃ b n t q, DecidesOn s L m .pr b ∧ L.spoll = some n ∧ n < s.cfg.smbMaxPoll ∧ exec i s = .next t ∧
      t.client? c = some q ∧ t.table = s.table ∧ t.scanStatus = s.scanStatus ∧ OthersKept s t c ∧
      q.latches.spoll = some (if b = 0x00 then n else n + 1) ∧
      (b = 0x00 → q.phase = .busy (pc + 1) .start) ∧
      (b ≠ 0x00 → n + 1 < s.cfg.smbMaxPoll → q.phase = .busy (pc - back) .start) ∧
      (b ≠ 0x00 → n + 1 = s.cfg.smbMaxPoll → EndsBy s t c pc q .timeout)

/-- R111: the decision on the status byte `b`: 0x80 lets the operation go on, and ends SMB_WRITE_BYTE with success where
this is its last step; any other byte raises `SmbusError(b)`. It belongs to the last step of its `RamR` (DEDUCED, log
entry 15). -/
def Obligations.StatusCheckStep : Prop :=
  ∀ (s : State) (c pc : Nat) (L : Latches) (i : Instr) (m : Micro), Stands s c i pc L m → m.after = .checkStatus →
    ∃ b t q, DecidesOn s L m .st b ∧ exec i s = .next t ∧ t.client? c = some q ∧ t.table = s.table ∧
      t.scanStatus = s.scanStatus ∧ OthersKept s t c ∧
      (b = 0x80 → pc + 1 < (seqOf s.cfg i).length → q.phase = .busy (pc + 1) .start) ∧
      (b = 0x80 → pc + 1 = (seqOf s.cfg i).length → q.phase = .complete ∧ q.latches.res = some (.ok 0)) ∧
      (b ≠ 0x80 → EndsBy s t c pc q (.smbusError b))

/-- R118: the last read of an index of the scan stores the entry, whose `deviceId` is the byte read and whose
`hwPinNumber` is the one read before, and counts the index in the same step (log entry 15): the scan loops back to the
first step of its body, the status read where `L.idx` starts (StatusReadStep), or, after the last index, goes on to its
`Release()`. -/
def Obligations.EntryStep : Prop :=
  ∀ (s : State) (c pc back : Nat) (L : Latches) (i : Instr) (m : Micro), Stands s c i pc L m →
    m.after = .storeEntry back →
    i = .tableScan ∧ ((seqOf s.cfg i).drop (pc - back)).take (back + 1) = scanBody s.cfg ∧
    (seqOf s.cfg i)[pc + 1]? = some { act := .release } ∧
    ∃ n pin t q, L.idx = some n ∧ n < s.cfg.nTbl ∧ L.pin = some pin ∧ exec i s = .next t ∧ t.client? c = some q ∧
      t.table = s.table.set n { deviceId := s.answer .data, hwPinNumber := pin } ∧
      q.latches.idx = some (n + 1) ∧ q.phase = .busy (if n + 1 < s.cfg.nTbl then pc - back else pc + 1) .start ∧
      t.lock = .held c ∧ t.scanStatus = s.scanStatus ∧ OthersKept s t c

/-- R78, R79, R80, R81: one status read of a wait, its first or a later one: one event; where the bit is wrong the count
goes up and the client stays on the wait, or, at `MAX_POLL`, raises `Timeout`; nothing else changes, but that a counter
starts in the first status read of the idle poll (`L.spoll <- 0`, R109) and of the scan (`L.idx <- 0`, R118), whatever the
answer. A later round of the same loop, which finds the counter written, leaves it. That the start belongs to this step,
the next one that reads the port (R49), is the model's reading (DEDUCED, log entry 15). -/
def Obligations.StatusReadStep : Prop :=
  ∀ (s : State) (c pc n : Nat) (stage : Stage) (L : Latches) (i : Instr) (m : Micro) (done : Byte → Bool), Inv s →
    s.now = .run c → s.client? c = some { phase := .busy pc stage, latches := L } → L.operation = some i →
    (seqOf s.cfg i)[pc]? = some m →
    (m.act = .waitIbf ∧ done = fun b => !b.getLsbD 1) ∨ (m.act = .waitObf ∧ done = fun b => b.getLsbD 0) →
    (stage = .start ∧ n = 0) ∨ (stage = .again ∧ L.poll = some n) →
    ∃ (M : Latches) (t : State) (q : Sequencer),
      ((m.starts = none ∧ M = L) ∨
        (m.starts = some .spoll ∧ M = { L with spoll := some (L.spoll.getD 0) } ∧
          ∃ after, memRead s.cfg (.const s.cfg.smbusProtocol) [.pr] after (some .spoll) <+: (seqOf s.cfg i).drop pc) ∨
        (m.starts = some .idx ∧ M = { L with idx := some (L.idx.getD 0) } ∧ i = .tableScan ∧
          scanBody s.cfg <+: (seqOf s.cfg i).drop pc)) ∧
      exec i s = .next t ∧ t.trace = s.trace ++ [.input c s.cfg.portCmd (s.answer .command)] ∧
      t.client? c = some q ∧ t.lock = s.lock ∧ t.table = s.table ∧ t.scanStatus = s.scanStatus ∧
      t.script = s.script.tail ∧ t.reads = s.reads + 1 ∧ OthersKept s t c ∧
      (done (s.answer .command) = true → q.latches = { M with poll := some n } ∧ q.phase = .busy (pc + 1) .start) ∧
      (done (s.answer .command) = false → q.latches = { M with poll := some (n + 1) } ∧
        q.phase = .busy pc (if n + 1 = s.cfg.maxPoll then .abort .timeout else .again))

/-- R127: taking an error. With the lock held, the operation's one remaining step is its `Release()`, and there it ends;
without the lock it ends in the step that raised. The end writes the result, for TABLE_SCAN `scanStatus`, and the
phase, and nothing else changes. -/
def Obligations.ErrorEntry : Prop :=
  ∀ (s : State) (c pc : Nat) (q : Sequencer) (i : Instr) (e : Response), (∀ v, e ≠ .ok v) →
    c < s.clients.length → s.now = .run c →
    (s.lock = .held c →
      s.raise (routineOf i) c pc q e = s.setClient c { q with phase := .busy pc (.abort e) } ∧
      exec i (s.raise (routineOf i) c pc q e) =
        .next (({ s with
            lock := .free
            trace := s.trace ++ [Event.release c]
            scanStatus := if i = Instr.tableScan then ScanStatus.failed else s.scanStatus } : State).setClient c
          { phase := .complete, latches := { q.latches with res := some e } })) ∧
    (s.lock ≠ .held c →
      s.raise (routineOf i) c pc q e =
        ({ s with scanStatus := if i = Instr.tableScan then ScanStatus.failed else s.scanStatus } : State).setClient c
          { phase := .complete, latches := { q.latches with res := some e } })

/-- R130: a client that is Complete collects its response word and is Idle again, whatever the result was, with nothing
else changed, and may then be admitted with any request that R75 admits. A collect of any other client, and a run turn of
an Idle client, whose sequencer does nothing of its own (no retry), are turns that pass (DESIGN CHOICE, log entry 11). -/
def Obligations.CollectStep : Prop :=
  (∀ (s : State) (c : Nat) (L : Latches) (res : Response), s.nextTurn = .collect c →
    s.client? c = some { phase := .complete, latches := L } → L.res = some res →
    ∃ t : State, step s = .next t ∧
      t = { s.takeTurn.setClient c { phase := .idle, latches := L } with
        collected := s.collected ++ [(c, res.word)] } ∧
      ∀ i : Instr, s.life = .attached → i.wellFormed s.cfg.nTbl = true → (i = .tableScan → s.scanStatus ≠ .running ∧
        s.scanStatus ≠ .done) → Admits t c (encodeReq i) i) ∧
  (∀ (s : State) (c : Nat), s.nextTurn = .collect c → s.phase? c ≠ some .complete → step s = .next s.takeTurn) ∧
  (∀ (s : State) (c : Nat), s.nextTurn = .run c → s.phase? c = some .idle → step s = .next s.takeTurn)

/-- R69, R121: the response word has the kind in bits 7:0 and the value in bits 39:8, with these codes, and no code
above 4. -/
def Obligations.ResponseWords : Prop :=
  (∀ v : Word32, (Response.ok v).word.extractLsb' 0 8 = 0x00 ∧ (Response.ok v).word.extractLsb' 8 32 = v) ∧
  (Response.timeout.word.extractLsb' 0 8 = 0x01 ∧ Response.timeout.word.extractLsb' 8 32 = 0) ∧
  (Response.invalidTarget.word.extractLsb' 0 8 = 0x02 ∧ Response.invalidTarget.word.extractLsb' 8 32 = 0) ∧
  (∀ code : Byte, (Response.smbusError code).word.extractLsb' 0 8 = 0x03 ∧
    (Response.smbusError code).word.extractLsb' 8 32 = code.setWidth 32) ∧
  (Response.invalidTable.word.extractLsb' 0 8 = 0x04 ∧ Response.invalidTable.word.extractLsb' 8 32 = 0) ∧
  (∀ r : Response, (r.word.extractLsb' 0 8).toNat ≤ 4)

/-! ## Invariants -/

/-- The state after reset meets the invariant, the scan's invariant and the handshake's. -/
def Obligations.InvariantsHoldAtReset : Prop :=
  Inv State.reset ∧ ScanInv State.reset ∧ HandshakeInv State.reset

/-- Every step from a state that meets the invariant ends in a state that meets it: the lock matches the trace and the
positions of all clients, every latch that the rest of an operation reads is written, the counters are in the ranges of
R31 and R134 with reads left of the bound while a wait or an idle poll goes on, an error raised or ended with is one that
R122 allows, and table and sequencers keep their number. -/
def Obligations.StepsKeepTheInvariant : Prop :=
  ∀ s t : State, Inv s → step s = .next t → Inv t

/-- From a state that meets the invariant no step faults and none is refused: R31's unwritten latches are never read, a
lock not held is never released, and every operation of the map has its meaning. -/
def Obligations.NoStepStops : Prop :=
  ∀ s : State, Inv s → ∃ t, step s = .next t

/-- R83: every step keeps the handshake discipline on the trace: a write to either port comes straight after a status read
of the same client that found IBF clear, and a read of DATA straight after one that found OBF set. -/
def Obligations.StepsKeepTheHandshake : Prop :=
  ∀ s t : State, Inv s → HandshakeInv s → step s = .next t → HandshakeInv t

/-- R25, R116: every step keeps `scanStatus = Running` while a client runs the scan, and one client at most runs it. A
scan runs up to its `Release()` step, which writes `Done` or `Failed`: that `scanStatus` is still Running between the step
that decides the end and that step is the model's reading of R118 and R127 (DEDUCED, log entry 14). -/
def Obligations.StepsKeepTheScanInvariant : Prop :=
  ∀ s t : State, Inv s → ScanInv s → step s = .next t → ScanInv t

/-- R57: in a state that meets the invariant, every port event between an `Acq(c)` and the next `Rel(c)` of the trace
belongs to `c`, and a step appends a port event of `c` only while `c` holds the lock. -/
def Obligations.MutualExclusion : Prop :=
  (∀ (s : State) (pre mid post : List Event) (c : Nat), Inv s → s.trace = pre ++ .acquire c :: (mid ++ post) →
    .release c ∉ mid → ∀ e ∈ mid, (∃ p b, e = .input c p b) ∨ (∃ p b, e = .output c p b)) ∧
  (∀ (s t : State) (e : Event), Inv s → step s = .next t → t.trace = s.trace ++ [e] → isPortEvent e = true →
    ∃ c, s.nextTurn = .run c ∧ s.lock = .held c ∧ ((∃ p b, e = .input c p b) ∨ (∃ p b, e = .output c p b)))

/-! ## What stays -/

/-- R23, R26, R29, R126, R136: a run turn of client `c`, whatever its operation, leaves every other client's sequencer,
the configuration, the lifecycle, the product string, the marks and the collected responses as they are, and the table
and `scanStatus` too unless the operation is TABLE_SCAN. -/
def Obligations.RunTurnFrame : Prop :=
  ∀ (s t : State) (c : Nat) (i : Instr), s.now = .run c → exec i s = .next t →
    OthersKept s t c ∧ t.now = s.now ∧ (i ≠ .tableScan → t.table = s.table ∧ t.scanStatus = s.scanStatus)

/-- R31, R52: a run turn of operation `i` leaves every byte latch of its client as it is but those that the operation
writes; the descriptor's latches are never overwritten; and the result latch changes only where the operation
ends. Which operations write `v`, 'the last byte read from DATA', is the model's reading of R31: the read accessors and
the SMBus operations do, TABLE_SCAN and the GPIO writes do not (DEDUCED, log entry 15). -/
def Obligations.LatchFrame : Prop :=
  ∀ (s t : State) (c : Nat) (i : Instr) (q q' : Sequencer), s.now = .run c → s.client? c = some q →
    exec i s = .next t → t.client? c = some q' →
    (∀ l, l ∉ latchesOf i → q'.latches.read l = q.latches.read l) ∧
    (∀ l ∈ latchesOf i, l ∉ [Latch.op, .a0, .a1, .a2, .a3]) ∧
    (q'.latches.res ≠ q.latches.res → q'.phase = .complete)

/-- R27, R43, R49: a run turn appends at most one event to the trace, an event of the client whose turn it is, at one of
the two ports; any other turn appends none. That a detach leaves the trace too is the model's reading (DEDUCED, log entry
16): R42 has the context's fields gone there, and the model keeps the trace as the observation of the run (R20). -/
def Obligations.OneEventPerStep : Prop :=
  (∀ (s t : State) (c : Nat) (i : Instr), s.now = .run c → exec i s = .next t →
    t.trace = s.trace ∨ ∃ e, t.trace = s.trace ++ [e] ∧
      (e = .acquire c ∨ e = .release c ∨
        ∃ p b, (p = s.cfg.portCmd ∨ p = s.cfg.portData) ∧ (e = .input c p b ∨ e = .output c p b))) ∧
  (∀ s t : State, (∀ c, s.nextTurn ≠ .run c) → (∀ p, s.nextTurn ≠ .attach p) → step s = .next t →
    t.trace = s.trace)

/-- R22: while a context exists only `Acquire()` and `Release()` steps of a client's own sequencer change the lock, each
with its event. -/
def Obligations.LockChangesOnlyByItsSteps : Prop :=
  ∀ s t : State, s.life = .attached → step s = .next t → t.lock ≠ s.lock →
    ∃ c, s.nextTurn = .run c ∧
      ((s.lock = .free ∧ t.lock = .held c ∧ t.trace = s.trace ++ [.acquire c]) ∨
       (s.lock = .held c ∧ t.lock = .free ∧ t.trace = s.trace ++ [.release c]))

/-- R25: the transitions of `scanStatus`, and no others, while a context exists and stays: `NotRun` or `Failed` to
`Running` where a TABLE_SCAN starts, `Running` to `Done` where it ends with success, and to `Failed` where it ends with
`Timeout` or `InvalidTable`. That the end is the step that writes the result too is the model's reading (DEDUCED, log
entry 14). -/
def Obligations.ScanStatusTransitions : Prop :=
  ∀ s t : State, Inv s → ScanInv s → s.life = .attached → t.life = .attached → step s = .next t →
    t.scanStatus ≠ s.scanStatus →
    (∃ c w, s.nextTurn = .request c w ∧ Admits s c w .tableScan ∧ t.scanStatus = .running) ∨
    (∃ c v, s.nextTurn = .run c ∧ s.scans c ∧ s.scanStatus = .running ∧ t.scanStatus = .done ∧
      t.result? c = some (.ok v)) ∨
    (∃ c e, s.nextTurn = .run c ∧ s.scans c ∧ s.scanStatus = .running ∧ t.scanStatus = .failed ∧
      t.result? c = some e ∧ (e = .timeout ∨ e = .invalidTable))

/-- R82, R148: no turn but its own changes a Busy client's sequencer: a running operation cannot be cancelled, shortened
or restarted, not even by its own client or by the lifecycle host. -/
def Obligations.NoCancellation : Prop :=
  ∀ (s t : State) (c pc : Nat) (stage : Stage), Inv s → s.phase? c = some (.busy pc stage) → s.nextTurn ≠ .run c →
    step s = .next t → t.client? c = s.client? c

/-- R62: the lock's scope in every operation's sequence. Between its first and its last step an operation holds the lock,
but for TABLE_READ, which has one step and never does, and but for the SMBus operations under `PerStep`, which are a
succession of lock-scoped RAM accesses, one COMMAND write in each, with the lock free between them. -/
def Obligations.LockScopes : Prop :=
  ∀ (k : Config) (i : Instr),
    (∀ index, i = .tableRead index → (seqOf k i).map Micro.act = [.lookup]) ∧
    ((∀ index, i ≠ .tableRead index) →
      k.smbusLockScope = .wholeTransaction ∨ (∀ a b d, i ≠ .smbReadByte a b d) ∧ (∀ a b d, i ≠ .smbReadWord a b d) ∧
        (∀ a b d e, i ≠ .smbWriteByte a b d e) →
      ∃ body, (seqOf k i).map Micro.act = .acquire :: (body ++ [.release]) ∧ .acquire ∉ body ∧ .release ∉ body) ∧
    (k.smbusLockScope = .perStep → (∃ a b d, i = .smbReadByte a b d) ∨ (∃ a b d, i = .smbReadWord a b d) ∨
        (∃ a b d e, i = .smbWriteByte a b d e) →
      ∃ bodies : List (List Act),
        (seqOf k i).map Micro.act = bodies.flatMap (fun body => .acquire :: (body ++ [.release])) ∧
        ∀ body ∈ bodies, .acquire ∉ body ∧ .release ∉ body ∧
          (body.filter fun a => match a with | .command _ => true | _ => false).length = 1)

/-! ## The lifecycle -/

/-- R139, R42: the first attach of an instance, with a product string, creates the context with the values of R42,
`refused` among them, makes no port access and starts no scan. An attach that fails leaves the machine detached, and as it
was: that it does not count as the instance's one attach is the model's reading (DEDUCED, log entry 16). -/
def Obligations.AttachCreatesTheContext : Prop :=
  (∀ (s : State) (p : String), s.nextTurn = .attach (some p) → s.life = .detached → s.used = false →
    ∃ t, step s = .next t ∧ t.life = .attached ∧ t.lock = .free ∧
      t.table = List.replicate s.cfg.nTbl { deviceId := 0xFF, hwPinNumber := 0xFF } ∧ t.scanStatus = .notRun ∧
      t.product = p ∧ t.trace = [] ∧ t.refused = false ∧
      t.clients = List.replicate s.cfg.nClients { phase := .idle, latches := {} } ∧ t.cfg = s.cfg) ∧
  (∀ s : State, s.nextTurn = .attach none → s.life = .detached → s.used = false → step s = .next s.takeTurn)

/-- R140: an attach while attached, and a second attach of the same instance, is refused: the mark is set and nothing else
changes. That a detach of an instance that is not attached is refused in the same way is the model's reading (DEDUCED,
log entry 16). -/
def Obligations.SecondAttachIsRefused : Prop :=
  (∀ (s : State) (p : Option String), s.nextTurn = .attach p → s.life = .attached ∨ s.used = true →
    step s = .next s.takeTurn.markRefused) ∧
  (∀ s : State, s.nextTurn = .detach → s.life = .detached → step s = .next s.takeTurn.markRefused)

/-- R141: detach is admitted with the lock free and every client Idle; it destroys the context. Otherwise it is refused.
After it every request is refused. The third condition, that the instance is attached, is the model's reading (DEDUCED,
log entry 16). -/
def Obligations.DetachStep : Prop :=
  ∀ s : State, s.nextTurn = .detach →
    (s.life = .attached → s.lock = .free → (∀ c q, s.client? c = some q → q.phase = .idle) →
      ∃ t, step s = .next t ∧ t.life = .detached ∧ t.clients = [] ∧ t.table = [] ∧
        ∀ (u : State) (c : Nat) (w : Req), u.life = .detached → u.nextTurn = .request c w →
          step u = .next u.takeTurn.markRefused) ∧
    (¬ (s.life = .attached ∧ s.lock = .free ∧ ∀ c q, s.client? c = some q → q.phase = .idle) →
      step s = .next s.takeTurn.markRefused)

/-! ## Assembly -/

/-- R77: a request written as its mnemonic and its operands in the order a0, a1, a2, a3 is read as that request. Blanks
and the use of two hexadecimal digits in what is printed are the model's choice (log entry 21). -/
def Obligations.RequestTextReadsBack : Prop :=
  ∀ i : Instr, readRequest (printRequest i) = some i
end

