-- ==== Sys2Proof/Laws/Assembly.lean ====
section
/-!
SUPPORT. What the assembler reads of what it prints (30_encoding.md R77), one lemma for each of its parts.
-/
namespace Sys2Proof.Machine

theorem hexDigit_plain : ∀ n, n < 16 →
    hexDigit n ≠ ',' ∧ isBlank (hexDigit n) = false ∧ digitValue (hexDigit n) = some n := by decide

theorem readByte_printByte (b : Byte) : readByte (printByte b) = some b := by
  have h1 := hexDigit_plain (b.toNat / 16) (by have := b.isLt; omega)
  have h2 := hexDigit_plain (b.toNat % 16) (by omega)
  have h3 : b.toNat / 16 < 16 := by have := b.isLt; omega
  have h4 : b.toNat % 16 < 16 := by omega
  have h5 : b.toNat / 16 * 16 + b.toNat % 16 = b.toNat := by omega
  simp only [readByte, printByte, readNumber, readDigits, h1, h2, h3, h4, if_true, Nat.zero_mul, Nat.zero_add, h5]
  simp [b.isLt]

theorem rowInstrs_found : rowInstrs.all (fun i =>
    decide (rowInstrs.find? (fun j => (mnemonicOf j).toList == (mnemonicOf i).toList) = some i)) = true := by decide

/-- A mnemonic finds the row of its operation. -/
theorem row_of_mnemonic (i : Instr) : ∃ r,
    rowInstrs.find? (fun j => (mnemonicOf j).toList == (mnemonicOf i).toList) = some r ∧ r.opcode = i.opcode ∧
      (argumentsOf r).length = (argumentsOf i).length := by
  obtain ⟨r, hr, hm, ho, ha⟩ : ∃ r ∈ rowInstrs, mnemonicOf r = mnemonicOf i ∧ r.opcode = i.opcode ∧
      (argumentsOf r).length = (argumentsOf i).length := by
    cases i <;> simp [rowInstrs, mnemonicOf, Instr.opcode, argumentsOf]
  refine ⟨r, ?_, ho, ha⟩
  have := List.all_eq_true.mp rowInstrs_found r hr
  rw [← hm]
  simpa using this

/-- An operation's mnemonic and operands assemble to it. -/
theorem assemble_mnemonic (i : Instr) : assemble (mnemonicOf i).toList (argumentsOf i) = some i := by
  obtain ⟨r, hr, ho, ha⟩ := row_of_mnemonic i
  simp only [assemble, hr, ha, if_true, ho]
  cases i <;> rfl

/-- A mnemonic followed by printed operands is read as that mnemonic with those operands. -/
theorem readRequest_printed (m : List Char) (args : List Byte) (hne : m ≠ [])
    (hm : m.all (fun ch => !isBlank ch) = true) (hl : args.length ≤ 4) :
    readRequest (m ++ printOperands args) = assemble m args := by
  have rb : ∀ b : Byte, readByte ['0', 'x', hexDigit (b.toNat / 16), hexDigit (b.toNat % 16)] = some b :=
    readByte_printByte
  have B1 : isBlank ' ' = true := rfl
  have B2 : isBlank '0' = false := rfl
  have hB (x : Byte) : isBlank (hexDigit (x.toNat % 16)) = false := (hexDigit_plain (x.toNat % 16) (by omega)).2.1
  have hC (x : Byte) : hexDigit (x.toNat / 16) ≠ ',' := (hexDigit_plain (x.toNat / 16) (by have := x.isLt; omega)).1
  have hD (x : Byte) : hexDigit (x.toNat % 16) ≠ ',' := (hexDigit_plain (x.toNat % 16) (by omega)).1
  have hm' : ∀ a ∈ m, isBlank a = false := by simpa using hm
  have hm2 : ∀ a ∈ m.reverse, isBlank a = false := by simpa using hm
  obtain ⟨m0, mt, rfl⟩ : ∃ a t, m = a :: t := by cases m with | nil => exact absurd rfl hne | cons a t => exact ⟨a, t, rfl⟩
  have h0 := hm' m0 (by simp)
  have T : trim (m0 :: mt ++ printOperands args) = m0 :: mt ++ printOperands args := by
    match args, hl with
    | [], _ =>
      obtain ⟨z, zt, hz⟩ : ∃ z zt, (m0 :: mt).reverse = z :: zt := by
        cases h : (m0 :: mt).reverse with | nil => simp at h | cons a t => exact ⟨a, t, rfl⟩
      have hzb : isBlank z = false := hm2 z (by rw [hz]; simp)
      simp only [printOperands, List.append_nil]
      rw [trim, List.dropWhile_cons, h0]
      simp only [Bool.false_eq_true, if_false, hz, List.dropWhile_cons, hzb]
      rw [← hz, List.reverse_reverse]
    | [a], _ => simp [trim, printOperands, printByte, h0, hB]
    | [a, b], _ => simp [trim, printOperands, printByte, h0, hB]
    | [a, b, c], _ => simp [trim, printOperands, printByte, h0, hB]
    | [a, b, c, d], _ => simp [trim, printOperands, printByte, h0, hB]
  have W : firstWord (m0 :: mt ++ printOperands args) = (m0 :: mt, printOperands args) := by
    have hp : ∀ x xs, printOperands args = x :: xs → isBlank x = true := by
      intro x xs h
      match args with
      | [] => simp [printOperands] at h
      | [a] => simp [printOperands] at h; rw [← h.1]; rfl
      | a :: b :: t => simp [printOperands] at h; rw [← h.1]; rfl
    rw [firstWord, List.takeWhile_append_of_pos (by simpa using hm'), List.dropWhile_append_of_pos (by simpa using hm')]
    cases h : printOperands args with
    | nil => simp
    | cons x xs => simp [hp x xs h]
  have R : readOperands (printOperands args) = some args := by
    match args, hl with
    | [], _ => rfl
    | [a], _ => simp [readOperands, trim, printOperands, printByte, splitAtChar, B1, B2, hB, hC, hD, rb]
    | [a, b], _ => simp [readOperands, trim, printOperands, printByte, splitAtChar, B1, B2, hB, hC, hD, rb]
    | [a, b, c], _ => simp [readOperands, trim, printOperands, printByte, splitAtChar, B1, B2, hB, hC, hD, rb]
    | [a, b, c, d], _ => simp [readOperands, trim, printOperands, printByte, splitAtChar, B1, B2, hB, hC, hD, rb]
  rw [readRequest, T, W]
  simp only [R]

/-- The parts of a printed request that the two lemmas above ask for. -/
theorem mnemonic_plain (i : Instr) : (mnemonicOf i).toList ≠ [] ∧
    (mnemonicOf i).toList.all (fun ch => !isBlank ch) = true ∧ (argumentsOf i).length ≤ 4 := by
  have h : rowInstrs.all (fun r => decide ((mnemonicOf r).toList ≠ []) &&
      (mnemonicOf r).toList.all (fun ch => !isBlank ch)) = true := by decide
  obtain ⟨r, hr, hm⟩ : ∃ r ∈ rowInstrs, mnemonicOf r = mnemonicOf i := by cases i <;> simp [rowInstrs, mnemonicOf]
  have h2 := List.all_eq_true.mp h r hr
  simp only [Bool.and_eq_true, decide_eq_true_eq] at h2
  rw [hm] at h2
  exact ⟨h2.1, h2.2, by cases i <;> simp [argumentsOf]⟩

end Sys2Proof.Machine
end

