-- ==== Sys2Proof/Laws/State.lean ====
section
/-!
SUPPORT. One lemma per field per update of the state, so that no later proof unfolds a record update.
-/
namespace Sys2Proof.Machine

/-! ## `State.setClient` -/

@[simp] theorem State.setClient_cfg (s : State) (c : Nat) (q : Sequencer) : (s.setClient c q).cfg = s.cfg := rfl
@[simp] theorem State.setClient_life (s : State) (c : Nat) (q : Sequencer) : (s.setClient c q).life = s.life := rfl
@[simp] theorem State.setClient_used (s : State) (c : Nat) (q : Sequencer) : (s.setClient c q).used = s.used := rfl
@[simp] theorem State.setClient_lock (s : State) (c : Nat) (q : Sequencer) : (s.setClient c q).lock = s.lock := rfl
@[simp] theorem State.setClient_table (s : State) (c : Nat) (q : Sequencer) : (s.setClient c q).table = s.table := rfl
@[simp] theorem State.setClient_scanStatus (s : State) (c : Nat) (q : Sequencer) : (s.setClient c q).scanStatus = s.scanStatus := rfl
@[simp] theorem State.setClient_product (s : State) (c : Nat) (q : Sequencer) : (s.setClient c q).product = s.product := rfl
@[simp] theorem State.setClient_trace (s : State) (c : Nat) (q : Sequencer) : (s.setClient c q).trace = s.trace := rfl
@[simp] theorem State.setClient_refused (s : State) (c : Nat) (q : Sequencer) : (s.setClient c q).refused = s.refused := rfl
@[simp] theorem State.setClient_clients (s : State) (c : Nat) (q : Sequencer) : (s.setClient c q).clients = s.clients.set c q := rfl
@[simp] theorem State.setClient_collected (s : State) (c : Nat) (q : Sequencer) : (s.setClient c q).collected = s.collected := rfl
@[simp] theorem State.setClient_now (s : State) (c : Nat) (q : Sequencer) : (s.setClient c q).now = s.now := rfl
@[simp] theorem State.setClient_schedule (s : State) (c : Nat) (q : Sequencer) : (s.setClient c q).schedule = s.schedule := rfl
@[simp] theorem State.setClient_turns (s : State) (c : Nat) (q : Sequencer) : (s.setClient c q).turns = s.turns := rfl
@[simp] theorem State.setClient_script (s : State) (c : Nat) (q : Sequencer) : (s.setClient c q).script = s.script := rfl
@[simp] theorem State.setClient_reads (s : State) (c : Nat) (q : Sequencer) : (s.setClient c q).reads = s.reads := rfl

/-! ## `State.markRefused` -/

@[simp] theorem State.markRefused_cfg (s : State) : s.markRefused.cfg = s.cfg := rfl
@[simp] theorem State.markRefused_life (s : State) : s.markRefused.life = s.life := rfl
@[simp] theorem State.markRefused_used (s : State) : s.markRefused.used = s.used := rfl
@[simp] theorem State.markRefused_lock (s : State) : s.markRefused.lock = s.lock := rfl
@[simp] theorem State.markRefused_table (s : State) : s.markRefused.table = s.table := rfl
@[simp] theorem State.markRefused_scanStatus (s : State) : s.markRefused.scanStatus = s.scanStatus := rfl
@[simp] theorem State.markRefused_product (s : State) : s.markRefused.product = s.product := rfl
@[simp] theorem State.markRefused_trace (s : State) : s.markRefused.trace = s.trace := rfl
@[simp] theorem State.markRefused_refused (s : State) : s.markRefused.refused = true := rfl
@[simp] theorem State.markRefused_clients (s : State) : s.markRefused.clients = s.clients := rfl
@[simp] theorem State.markRefused_collected (s : State) : s.markRefused.collected = s.collected := rfl
@[simp] theorem State.markRefused_now (s : State) : s.markRefused.now = s.now := rfl
@[simp] theorem State.markRefused_schedule (s : State) : s.markRefused.schedule = s.schedule := rfl
@[simp] theorem State.markRefused_turns (s : State) : s.markRefused.turns = s.turns := rfl
@[simp] theorem State.markRefused_script (s : State) : s.markRefused.script = s.script := rfl
@[simp] theorem State.markRefused_reads (s : State) : s.markRefused.reads = s.reads := rfl

/-! ## `State.record` -/

@[simp] theorem State.record_cfg (s : State) (e : Event) : (s.record e).cfg = s.cfg := rfl
@[simp] theorem State.record_life (s : State) (e : Event) : (s.record e).life = s.life := rfl
@[simp] theorem State.record_used (s : State) (e : Event) : (s.record e).used = s.used := rfl
@[simp] theorem State.record_lock (s : State) (e : Event) : (s.record e).lock = s.lock := rfl
@[simp] theorem State.record_table (s : State) (e : Event) : (s.record e).table = s.table := rfl
@[simp] theorem State.record_scanStatus (s : State) (e : Event) : (s.record e).scanStatus = s.scanStatus := rfl
@[simp] theorem State.record_product (s : State) (e : Event) : (s.record e).product = s.product := rfl
@[simp] theorem State.record_trace (s : State) (e : Event) : (s.record e).trace = s.trace ++ [e] := rfl
@[simp] theorem State.record_refused (s : State) (e : Event) : (s.record e).refused = s.refused := rfl
@[simp] theorem State.record_clients (s : State) (e : Event) : (s.record e).clients = s.clients := rfl
@[simp] theorem State.record_collected (s : State) (e : Event) : (s.record e).collected = s.collected := rfl
@[simp] theorem State.record_now (s : State) (e : Event) : (s.record e).now = s.now := rfl
@[simp] theorem State.record_schedule (s : State) (e : Event) : (s.record e).schedule = s.schedule := rfl
@[simp] theorem State.record_turns (s : State) (e : Event) : (s.record e).turns = s.turns := rfl
@[simp] theorem State.record_script (s : State) (e : Event) : (s.record e).script = s.script := rfl
@[simp] theorem State.record_reads (s : State) (e : Event) : (s.record e).reads = s.reads := rfl

/-! ## `State.portIn` -/

@[simp] theorem State.portIn_cfg (s : State) (c : Nat) (p : Port) : (s.portIn c p).cfg = s.cfg := rfl
@[simp] theorem State.portIn_life (s : State) (c : Nat) (p : Port) : (s.portIn c p).life = s.life := rfl
@[simp] theorem State.portIn_used (s : State) (c : Nat) (p : Port) : (s.portIn c p).used = s.used := rfl
@[simp] theorem State.portIn_lock (s : State) (c : Nat) (p : Port) : (s.portIn c p).lock = s.lock := rfl
@[simp] theorem State.portIn_table (s : State) (c : Nat) (p : Port) : (s.portIn c p).table = s.table := rfl
@[simp] theorem State.portIn_scanStatus (s : State) (c : Nat) (p : Port) : (s.portIn c p).scanStatus = s.scanStatus := rfl
@[simp] theorem State.portIn_product (s : State) (c : Nat) (p : Port) : (s.portIn c p).product = s.product := rfl
@[simp] theorem State.portIn_trace (s : State) (c : Nat) (p : Port) : (s.portIn c p).trace = s.trace ++ [.input c (portAddr s.cfg p) (s.answer p)] := rfl
@[simp] theorem State.portIn_refused (s : State) (c : Nat) (p : Port) : (s.portIn c p).refused = s.refused := rfl
@[simp] theorem State.portIn_clients (s : State) (c : Nat) (p : Port) : (s.portIn c p).clients = s.clients := rfl
@[simp] theorem State.portIn_collected (s : State) (c : Nat) (p : Port) : (s.portIn c p).collected = s.collected := rfl
@[simp] theorem State.portIn_now (s : State) (c : Nat) (p : Port) : (s.portIn c p).now = s.now := rfl
@[simp] theorem State.portIn_schedule (s : State) (c : Nat) (p : Port) : (s.portIn c p).schedule = s.schedule := rfl
@[simp] theorem State.portIn_turns (s : State) (c : Nat) (p : Port) : (s.portIn c p).turns = s.turns := rfl
@[simp] theorem State.portIn_script (s : State) (c : Nat) (p : Port) : (s.portIn c p).script = s.script.tail := rfl
@[simp] theorem State.portIn_reads (s : State) (c : Nat) (p : Port) : (s.portIn c p).reads = s.reads + 1 := rfl

/-! ## `State.portOut` -/

@[simp] theorem State.portOut_cfg (s : State) (c : Nat) (p : Port) (b : Byte) : (s.portOut c p b).cfg = s.cfg := rfl
@[simp] theorem State.portOut_life (s : State) (c : Nat) (p : Port) (b : Byte) : (s.portOut c p b).life = s.life := rfl
@[simp] theorem State.portOut_used (s : State) (c : Nat) (p : Port) (b : Byte) : (s.portOut c p b).used = s.used := rfl
@[simp] theorem State.portOut_lock (s : State) (c : Nat) (p : Port) (b : Byte) : (s.portOut c p b).lock = s.lock := rfl
@[simp] theorem State.portOut_table (s : State) (c : Nat) (p : Port) (b : Byte) : (s.portOut c p b).table = s.table := rfl
@[simp] theorem State.portOut_scanStatus (s : State) (c : Nat) (p : Port) (b : Byte) : (s.portOut c p b).scanStatus = s.scanStatus := rfl
@[simp] theorem State.portOut_product (s : State) (c : Nat) (p : Port) (b : Byte) : (s.portOut c p b).product = s.product := rfl
@[simp] theorem State.portOut_trace (s : State) (c : Nat) (p : Port) (b : Byte) : (s.portOut c p b).trace = s.trace ++ [.output c (portAddr s.cfg p) b] := rfl
@[simp] theorem State.portOut_refused (s : State) (c : Nat) (p : Port) (b : Byte) : (s.portOut c p b).refused = s.refused := rfl
@[simp] theorem State.portOut_clients (s : State) (c : Nat) (p : Port) (b : Byte) : (s.portOut c p b).clients = s.clients := rfl
@[simp] theorem State.portOut_collected (s : State) (c : Nat) (p : Port) (b : Byte) : (s.portOut c p b).collected = s.collected := rfl
@[simp] theorem State.portOut_now (s : State) (c : Nat) (p : Port) (b : Byte) : (s.portOut c p b).now = s.now := rfl
@[simp] theorem State.portOut_schedule (s : State) (c : Nat) (p : Port) (b : Byte) : (s.portOut c p b).schedule = s.schedule := rfl
@[simp] theorem State.portOut_turns (s : State) (c : Nat) (p : Port) (b : Byte) : (s.portOut c p b).turns = s.turns := rfl
@[simp] theorem State.portOut_script (s : State) (c : Nat) (p : Port) (b : Byte) : (s.portOut c p b).script = s.script := rfl
@[simp] theorem State.portOut_reads (s : State) (c : Nat) (p : Port) (b : Byte) : (s.portOut c p b).reads = s.reads := rfl

/-! ## `State.acquire` -/

@[simp] theorem State.acquire_cfg (s : State) (c : Nat) : (s.acquire c).cfg = s.cfg := rfl
@[simp] theorem State.acquire_life (s : State) (c : Nat) : (s.acquire c).life = s.life := rfl
@[simp] theorem State.acquire_used (s : State) (c : Nat) : (s.acquire c).used = s.used := rfl
@[simp] theorem State.acquire_lock (s : State) (c : Nat) : (s.acquire c).lock = .held c := rfl
@[simp] theorem State.acquire_table (s : State) (c : Nat) : (s.acquire c).table = s.table := rfl
@[simp] theorem State.acquire_scanStatus (s : State) (c : Nat) : (s.acquire c).scanStatus = s.scanStatus := rfl
@[simp] theorem State.acquire_product (s : State) (c : Nat) : (s.acquire c).product = s.product := rfl
@[simp] theorem State.acquire_trace (s : State) (c : Nat) : (s.acquire c).trace = s.trace ++ [.acquire c] := rfl
@[simp] theorem State.acquire_refused (s : State) (c : Nat) : (s.acquire c).refused = s.refused := rfl
@[simp] theorem State.acquire_clients (s : State) (c : Nat) : (s.acquire c).clients = s.clients := rfl
@[simp] theorem State.acquire_collected (s : State) (c : Nat) : (s.acquire c).collected = s.collected := rfl
@[simp] theorem State.acquire_now (s : State) (c : Nat) : (s.acquire c).now = s.now := rfl
@[simp] theorem State.acquire_schedule (s : State) (c : Nat) : (s.acquire c).schedule = s.schedule := rfl
@[simp] theorem State.acquire_turns (s : State) (c : Nat) : (s.acquire c).turns = s.turns := rfl
@[simp] theorem State.acquire_script (s : State) (c : Nat) : (s.acquire c).script = s.script := rfl
@[simp] theorem State.acquire_reads (s : State) (c : Nat) : (s.acquire c).reads = s.reads := rfl

/-! ## `State.release` -/

@[simp] theorem State.release_cfg (s : State) (c : Nat) : (s.release c).cfg = s.cfg := rfl
@[simp] theorem State.release_life (s : State) (c : Nat) : (s.release c).life = s.life := rfl
@[simp] theorem State.release_used (s : State) (c : Nat) : (s.release c).used = s.used := rfl
@[simp] theorem State.release_lock (s : State) (c : Nat) : (s.release c).lock = .free := rfl
@[simp] theorem State.release_table (s : State) (c : Nat) : (s.release c).table = s.table := rfl
@[simp] theorem State.release_scanStatus (s : State) (c : Nat) : (s.release c).scanStatus = s.scanStatus := rfl
@[simp] theorem State.release_product (s : State) (c : Nat) : (s.release c).product = s.product := rfl
@[simp] theorem State.release_trace (s : State) (c : Nat) : (s.release c).trace = s.trace ++ [.release c] := rfl
@[simp] theorem State.release_refused (s : State) (c : Nat) : (s.release c).refused = s.refused := rfl
@[simp] theorem State.release_clients (s : State) (c : Nat) : (s.release c).clients = s.clients := rfl
@[simp] theorem State.release_collected (s : State) (c : Nat) : (s.release c).collected = s.collected := rfl
@[simp] theorem State.release_now (s : State) (c : Nat) : (s.release c).now = s.now := rfl
@[simp] theorem State.release_schedule (s : State) (c : Nat) : (s.release c).schedule = s.schedule := rfl
@[simp] theorem State.release_turns (s : State) (c : Nat) : (s.release c).turns = s.turns := rfl
@[simp] theorem State.release_script (s : State) (c : Nat) : (s.release c).script = s.script := rfl
@[simp] theorem State.release_reads (s : State) (c : Nat) : (s.release c).reads = s.reads := rfl

/-! ## `State.writeEntry` -/

@[simp] theorem State.writeEntry_cfg (s : State) (n : Nat) (dev pin : Byte) : (s.writeEntry n dev pin).cfg = s.cfg := rfl
@[simp] theorem State.writeEntry_life (s : State) (n : Nat) (dev pin : Byte) : (s.writeEntry n dev pin).life = s.life := rfl
@[simp] theorem State.writeEntry_used (s : State) (n : Nat) (dev pin : Byte) : (s.writeEntry n dev pin).used = s.used := rfl
@[simp] theorem State.writeEntry_lock (s : State) (n : Nat) (dev pin : Byte) : (s.writeEntry n dev pin).lock = s.lock := rfl
@[simp] theorem State.writeEntry_table (s : State) (n : Nat) (dev pin : Byte) : (s.writeEntry n dev pin).table = s.table.set n { deviceId := dev, hwPinNumber := pin } := rfl
@[simp] theorem State.writeEntry_scanStatus (s : State) (n : Nat) (dev pin : Byte) : (s.writeEntry n dev pin).scanStatus = s.scanStatus := rfl
@[simp] theorem State.writeEntry_product (s : State) (n : Nat) (dev pin : Byte) : (s.writeEntry n dev pin).product = s.product := rfl
@[simp] theorem State.writeEntry_trace (s : State) (n : Nat) (dev pin : Byte) : (s.writeEntry n dev pin).trace = s.trace := rfl
@[simp] theorem State.writeEntry_refused (s : State) (n : Nat) (dev pin : Byte) : (s.writeEntry n dev pin).refused = s.refused := rfl
@[simp] theorem State.writeEntry_clients (s : State) (n : Nat) (dev pin : Byte) : (s.writeEntry n dev pin).clients = s.clients := rfl
@[simp] theorem State.writeEntry_collected (s : State) (n : Nat) (dev pin : Byte) : (s.writeEntry n dev pin).collected = s.collected := rfl
@[simp] theorem State.writeEntry_now (s : State) (n : Nat) (dev pin : Byte) : (s.writeEntry n dev pin).now = s.now := rfl
@[simp] theorem State.writeEntry_schedule (s : State) (n : Nat) (dev pin : Byte) : (s.writeEntry n dev pin).schedule = s.schedule := rfl
@[simp] theorem State.writeEntry_turns (s : State) (n : Nat) (dev pin : Byte) : (s.writeEntry n dev pin).turns = s.turns := rfl
@[simp] theorem State.writeEntry_script (s : State) (n : Nat) (dev pin : Byte) : (s.writeEntry n dev pin).script = s.script := rfl
@[simp] theorem State.writeEntry_reads (s : State) (n : Nat) (dev pin : Byte) : (s.writeEntry n dev pin).reads = s.reads := rfl

/-! ## `State.takeTurn` -/

@[simp] theorem State.takeTurn_cfg (s : State) : s.takeTurn.cfg = s.cfg := rfl
@[simp] theorem State.takeTurn_life (s : State) : s.takeTurn.life = s.life := rfl
@[simp] theorem State.takeTurn_used (s : State) : s.takeTurn.used = s.used := rfl
@[simp] theorem State.takeTurn_lock (s : State) : s.takeTurn.lock = s.lock := rfl
@[simp] theorem State.takeTurn_table (s : State) : s.takeTurn.table = s.table := rfl
@[simp] theorem State.takeTurn_scanStatus (s : State) : s.takeTurn.scanStatus = s.scanStatus := rfl
@[simp] theorem State.takeTurn_product (s : State) : s.takeTurn.product = s.product := rfl
@[simp] theorem State.takeTurn_trace (s : State) : s.takeTurn.trace = s.trace := rfl
@[simp] theorem State.takeTurn_refused (s : State) : s.takeTurn.refused = s.refused := rfl
@[simp] theorem State.takeTurn_clients (s : State) : s.takeTurn.clients = s.clients := rfl
@[simp] theorem State.takeTurn_collected (s : State) : s.takeTurn.collected = s.collected := rfl
@[simp] theorem State.takeTurn_now (s : State) : s.takeTurn.now = s.nextTurn := rfl
@[simp] theorem State.takeTurn_schedule (s : State) : s.takeTurn.schedule = s.schedule.tail := rfl
@[simp] theorem State.takeTurn_turns (s : State) : s.takeTurn.turns = s.turns + 1 := rfl
@[simp] theorem State.takeTurn_script (s : State) : s.takeTurn.script = s.script := rfl
@[simp] theorem State.takeTurn_reads (s : State) : s.takeTurn.reads = s.reads := rfl

/-! ## `State.atTurn` -/

@[simp] theorem State.atTurn_cfg (s : State) (t : Turn) : (s.atTurn t).cfg = s.cfg := rfl
@[simp] theorem State.atTurn_life (s : State) (t : Turn) : (s.atTurn t).life = s.life := rfl
@[simp] theorem State.atTurn_used (s : State) (t : Turn) : (s.atTurn t).used = s.used := rfl
@[simp] theorem State.atTurn_lock (s : State) (t : Turn) : (s.atTurn t).lock = s.lock := rfl
@[simp] theorem State.atTurn_table (s : State) (t : Turn) : (s.atTurn t).table = s.table := rfl
@[simp] theorem State.atTurn_scanStatus (s : State) (t : Turn) : (s.atTurn t).scanStatus = s.scanStatus := rfl
@[simp] theorem State.atTurn_product (s : State) (t : Turn) : (s.atTurn t).product = s.product := rfl
@[simp] theorem State.atTurn_trace (s : State) (t : Turn) : (s.atTurn t).trace = s.trace := rfl
@[simp] theorem State.atTurn_refused (s : State) (t : Turn) : (s.atTurn t).refused = s.refused := rfl
@[simp] theorem State.atTurn_clients (s : State) (t : Turn) : (s.atTurn t).clients = s.clients := rfl
@[simp] theorem State.atTurn_collected (s : State) (t : Turn) : (s.atTurn t).collected = s.collected := rfl
@[simp] theorem State.atTurn_now (s : State) (t : Turn) : (s.atTurn t).now = t := rfl
@[simp] theorem State.atTurn_schedule (s : State) (t : Turn) : (s.atTurn t).schedule = s.schedule := rfl
@[simp] theorem State.atTurn_turns (s : State) (t : Turn) : (s.atTurn t).turns = s.turns := rfl
@[simp] theorem State.atTurn_script (s : State) (t : Turn) : (s.atTurn t).script = s.script := rfl
@[simp] theorem State.atTurn_reads (s : State) (t : Turn) : (s.atTurn t).reads = s.reads := rfl

/-! ## `State.withRequest` -/

@[simp] theorem State.withRequest_cfg (s : State) (w : Req) : (s.withRequest w).cfg = s.cfg := rfl
@[simp] theorem State.withRequest_life (s : State) (w : Req) : (s.withRequest w).life = s.life := rfl
@[simp] theorem State.withRequest_used (s : State) (w : Req) : (s.withRequest w).used = s.used := rfl
@[simp] theorem State.withRequest_lock (s : State) (w : Req) : (s.withRequest w).lock = s.lock := rfl
@[simp] theorem State.withRequest_table (s : State) (w : Req) : (s.withRequest w).table = s.table := rfl
@[simp] theorem State.withRequest_scanStatus (s : State) (w : Req) : (s.withRequest w).scanStatus = s.scanStatus := rfl
@[simp] theorem State.withRequest_product (s : State) (w : Req) : (s.withRequest w).product = s.product := rfl
@[simp] theorem State.withRequest_trace (s : State) (w : Req) : (s.withRequest w).trace = s.trace := rfl
@[simp] theorem State.withRequest_refused (s : State) (w : Req) : (s.withRequest w).refused = s.refused := rfl
@[simp] theorem State.withRequest_clients (s : State) (w : Req) : (s.withRequest w).clients = s.clients := rfl
@[simp] theorem State.withRequest_collected (s : State) (w : Req) : (s.withRequest w).collected = s.collected := rfl
@[simp] theorem State.withRequest_now (s : State) (w : Req) : (s.withRequest w).now = s.now := rfl
@[simp] theorem State.withRequest_schedule (s : State) (w : Req) : (s.withRequest w).schedule = .request 0 w :: s.schedule := rfl
@[simp] theorem State.withRequest_turns (s : State) (w : Req) : (s.withRequest w).turns = s.turns := rfl
@[simp] theorem State.withRequest_script (s : State) (w : Req) : (s.withRequest w).script = s.script := rfl
@[simp] theorem State.withRequest_reads (s : State) (w : Req) : (s.withRequest w).reads = s.reads := rfl

end Sys2Proof.Machine
end

