-- ==== Sys2Proof/Laws/Clients.lean ====
section
/-!
SUPPORT. What looking up and replacing a client's sequencer does.
-/
namespace Sys2Proof.Machine

theorem State.client?_setClient_self (s : State) {c : Nat} (q : Sequencer) (h : c < s.clients.length) :
    (s.setClient c q).client? c = some q := by
  simp [State.client?, h]

theorem State.client?_setClient_ne (s : State) {c d : Nat} (q : Sequencer) (h : d ≠ c) :
    (s.setClient c q).client? d = s.client? d := by
  simp [State.client?, List.getElem?_set_ne (Ne.symm h)]

theorem State.setClient_setClient (s : State) (c : Nat) (q q' : Sequencer) :
    (s.setClient c q).setClient c q' = s.setClient c q' := by
  simp [State.setClient]

theorem State.client?_lt {s : State} {c : Nat} {q : Sequencer} (h : s.client? c = some q) : c < s.clients.length := by
  simp [State.client?] at h
  exact (List.getElem?_eq_some_iff.mp h).1

theorem State.phase?_some {s : State} {c : Nat} {p : Phase} (h : s.phase? c = some p) : ∃ q, s.client? c = some q ∧ q.phase = p := by
  simp [State.phase?] at h
  exact h

end Sys2Proof.Machine
end

