-- ==== Sys2Proof/Laws/Pseudocode.lean ====
section
/-!
SUPPORT. The laws of the pseudocode's monad, and names for parts of the pseudocode.
-/
namespace Sys2Proof.Machine

theorem Pseudo.bind_run {α β : Type} (p : Pseudo.Code α) (q : α → Pseudo.Code β) (w : State × Latches) :
    (p >>= q) w = match p w with
      | (.ok a, w') => q a w'
      | (.error e, w') => (.error e, w') := by
  show ExceptT.bindCont q (p w).1 (p w).2 = _
  rcases p w with ⟨_ | _, _⟩ <;> rfl

theorem Pseudo.pure_run {α : Type} (a : α) (w : State × Latches) : (pure a : Pseudo.Code α) w = (.ok a, w) := rfl

theorem Pseudo.bind_assoc' {α β γ : Type} (p : Pseudo.Code α) (q : α → Pseudo.Code β) (r : β → Pseudo.Code γ) :
    (p >>= q) >>= r = p >>= fun a => q a >>= r := by
  funext w
  simp only [Pseudo.bind_run]
  rcases p w with ⟨_ | _, _⟩ <;> rfl

theorem Pseudo.pure_bind' {α β : Type} (a : α) (q : α → Pseudo.Code β) : (pure a : Pseudo.Code α) >>= q = q a := by
  funext w
  simp only [Pseudo.bind_run, Pseudo.pure_run]

theorem Pseudo.bind_pure' {α : Type} (p : Pseudo.Code α) : p >>= (fun a => pure a) = p := by
  funext w
  simp only [Pseudo.bind_run, Pseudo.pure_run]
  rcases p w with ⟨_ | _, _⟩ <;> rfl

theorem Pseudo.raise_bind {α β : Type} (e : Response) (q : α → Pseudo.Code β) :
    (Pseudo.raise e >>= q) = Pseudo.raise e := by
  funext w
  rw [Pseudo.bind_run]; rfl

theorem Pseudo.ite_bind {α β : Type} (b : Prop) [Decidable b] (p p' : Pseudo.Code α) (q : α → Pseudo.Code β) :
    ((if b then p else p') >>= q) = if b then p >>= q else p' >>= q := by
  split <;> rfl

/-! ## Parts of the pseudocode under names of their own -/

/-- A counter's start, where a part of the sequence has one. -/
def Pseudo.begin (x : Option Counter) : Pseudo.Code Unit :=
  Pseudo.assign fun L => L.starting x

theorem Pseudo.begin_none {α : Type} (p : Pseudo.Code α) : (do Pseudo.begin none; p) = p := by
  funext w; rfl

/-- Reading DATA and latching the byte in each of `ls`. -/
def Pseudo.receive (c : Nat) (ls : List Latch) : Pseudo.Code Byte := do
  let b ← Pseudo.portIn c .data
  Pseudo.assign fun L => L.writeAll b ls
  pure b

/-- The result cells (R109, step 8). -/
def Pseudo.smbCells (k : Config) (c : Nat) : SmbKind → Pseudo.Code Word32
  | .byteWrite => pure 0
  | .byteRead => do
    let d0 ← Pseudo.ramR k c k.smbusData
    Pseudo.assign fun L => { L with d0 := some d0 }
    pure (byteValue d0)
  | .wordRead => do
    let d0 ← Pseudo.ramR k c k.smbusData
    Pseudo.assign fun L => { L with d0 := some d0 }
    let d1 ← Pseudo.ramR k c k.smbusDataOffset1
    Pseudo.assign fun L => { L with d1 := some d1 }
    pure ((smbWord d0 d1).setWidth 32)

/-- One index of the scan, without the entry's write. -/
def Pseudo.scanOne (k : Config) (c idx : Nat) : Pseudo.Code (Byte × Byte) := do
  Pseudo.waitIBF k c
  Pseudo.portOut c .command k.opTblSelect
  Pseudo.waitIBF k c
  Pseudo.portOut c .data (BitVec.ofNat 8 idx)
  Pseudo.waitOBF k c
  let chk ← Pseudo.portIn c .data
  Pseudo.assign fun L => { L with chk := some chk }
  if isSentinel chk then Pseudo.raise .invalidTable else pure ()
  Pseudo.waitIBF k c
  Pseudo.portOut c .command k.opTblGetPin
  Pseudo.waitOBF k c
  let pin ← Pseudo.receive c [.pin]
  Pseudo.waitIBF k c
  Pseudo.portOut c .command k.opTblGetDevice
  Pseudo.waitOBF k c
  let dev ← Pseudo.receive c [.dev]
  pure (pin, dev)

theorem Pseudo.scanLoop_eq (k : Config) (c left idx : Nat) :
    Pseudo.scanLoop k c (left + 1) idx = (do
      let r ← Pseudo.scanOne k c idx
      Pseudo.update fun s => s.writeEntry idx r.2 r.1
      Pseudo.assign fun L => { L with idx := some (idx + 1) }
      Pseudo.scanLoop k c left (idx + 1)) := by
  rw [Pseudo.scanLoop]
  simp only [Pseudo.scanOne, Pseudo.receive, Pseudo.bind_assoc', Pseudo.pure_bind', Pseudo.ite_bind, Pseudo.raise_bind]
  rfl

end Sys2Proof.Machine
end

