-- ==== Sys2Proof/Laws/Latches.lean ====
section
/-!
SUPPORT. What reading and writing latches does, and that the fields of a descriptor and the operation they
stand for determine each other.
-/
namespace Sys2Proof.Machine

/-- The latches that hold the descriptor of the running operation (R31, R68). -/
def requestLatches : List Latch := [.op, .a0, .a1, .a2, .a3]

theorem Latches.read_write (L : Latches) (b : Byte) (l l' : Latch) :
    (L.write b l).read l' = if l' = l then some b else L.read l' := by
  cases l <;> cases l' <;> rfl

theorem Latches.write_counter (L : Latches) (b : Byte) (l : Latch) (n : Counter) :
    (L.write b l).readCounter n = L.readCounter n := by
  cases l <;> cases n <;> rfl

theorem Latches.read_writeAll (L : Latches) (b : Byte) (ls : List Latch) (l' : Latch) :
    (L.writeAll b ls).read l' = if l' ∈ ls then some b else L.read l' := by
  induction ls generalizing L with
  | nil => simp [Latches.writeAll]
  | cons l ls ih =>
    have : L.writeAll b (l :: ls) = (L.write b l).writeAll b ls := rfl
    rw [this, ih, Latches.read_write]
    by_cases h1 : l' ∈ ls <;> by_cases h2 : l' = l <;> simp [h1, h2]

theorem Latches.writeAll_counter (L : Latches) (b : Byte) (ls : List Latch) (n : Counter) :
    (L.writeAll b ls).readCounter n = L.readCounter n := by
  induction ls generalizing L with
  | nil => rfl
  | cons l ls ih =>
    have : L.writeAll b (l :: ls) = (L.write b l).writeAll b ls := rfl
    rw [this, ih, Latches.write_counter]

theorem Latches.operation_congr {L L' : Latches} (h : ∀ l ∈ requestLatches, L'.read l = L.read l) : L'.operation = L.operation := by
  have h0 := h .op (by simp [requestLatches]); have h1 := h .a0 (by simp [requestLatches]); have h2 := h .a1 (by simp [requestLatches])
  have h3 := h .a2 (by simp [requestLatches]); have h4 := h .a3 (by simp [requestLatches])
  simp only [Latches.read] at h0 h1 h2 h3 h4
  simp [Latches.operation, h0, h1, h2, h3, h4]

/-! ## Starting a counter (R109, R118) -/

@[simp] theorem Latches.starting_none (L : Latches) : L.starting none = L := rfl

@[simp] theorem Latches.read_starting (L : Latches) (x : Option Counter) (l : Latch) : (L.starting x).read l = L.read l := by
  rcases x with _ | (_ | _ | _) <;> cases l <;> rfl

@[simp] theorem Latches.operation_starting (L : Latches) (x : Option Counter) : (L.starting x).operation = L.operation :=
  Latches.operation_congr fun l _ => Latches.read_starting L x l

/-- A counter that starts is 0 on the first pass and stays as it is on a later one; the others stay. -/
theorem Latches.readCounter_starting (L : Latches) (x : Option Counter) (n : Counter) :
    (L.starting x).readCounter n = if x = some n then some ((L.readCounter n).getD 0) else L.readCounter n := by
  rcases x with _ | (_ | _ | _) <;> cases n <;> rfl

theorem Latches.starting_isSome {L : Latches} {x : Option Counter} {n : Counter}
    (h : x = some n ∨ (L.readCounter n).isSome) : ((L.starting x).readCounter n).isSome := by
  rw [Latches.readCounter_starting]
  split
  · rfl
  · exact h.resolve_left ‹_›

/-- A counter that has started stays as it is. -/
theorem Latches.starting_starting (L : Latches) (x : Option Counter) (p f : Option Nat) :
    ({ ({ L.starting x with poll := p } : Latches).starting x with poll := f } : Latches) = { L.starting x with poll := f } := by
  rcases x with _ | (_ | _ | _) <;> rfl

/-- A bound that 0 and the counter's value meet, its value after the start meets. -/
theorem Latches.starting_bound {L : Latches} {x : Option Counter} {n : Counter} {P : Nat → Prop} (h0 : P 0)
    (h : ∀ v, L.readCounter n = some v → P v) (v : Nat) (hv : (L.starting x).readCounter n = some v) : P v := by
  rw [Latches.readCounter_starting] at hv
  split at hv
  · cases hn : L.readCounter n with
    | none => rw [hn] at hv; cases hv; exact h0
    | some u => rw [hn] at hv; cases hv; exact h u hn
  · exact h v hv

theorem Latches.need_some {L : Latches} {l : Latch} (h : (L.read l).isSome) : ∃ b, L.need l = .ok b ∧ L.read l = some b := by
  obtain ⟨b, hb⟩ := Option.isSome_iff_exists.mp h
  exact ⟨b, by simp [Latches.need, hb], hb⟩

theorem Latches.count_some {L : Latches} {n : Counter} (h : (L.readCounter n).isSome) : ∃ b, L.count n = .ok b ∧ L.readCounter n = some b := by
  obtain ⟨b, hb⟩ := Option.isSome_iff_exists.mp h
  exact ⟨b, by simp [Latches.count, hb], hb⟩

/-- The fields that latches holding an operation's descriptor have, and that they decode to it. -/
theorem Latches.operation_fields {L : Latches} {i : Instr} (h : L.operation = some i) : ∃ op a0 a1 a2 a3, L.op = some op ∧ L.a0 = some a0 ∧
    L.a1 = some a1 ∧ L.a2 = some a2 ∧ L.a3 = some a3 ∧ decodeFields op a0 a1 a2 a3 = .ok i := by
  unfold Latches.operation at h
  split at h
  · rename_i op a0 a1 a2 a3 h1 h2 h3 h4 h5
    refine ⟨op, a0, a1, a2, a3, h1, h2, h3, h4, h5, ?_⟩
    cases hd : decodeFields op a0 a1 a2 a3 with
    | error e => rw [hd] at h; cases h
    | ok j => rw [hd] at h; simp [Except.toOption] at h; rw [h]
  · cases h

theorem reserving_ok {rs : List Byte} {i j : Instr} (h : reserving rs i = .ok j) : i = j ∧ rs.all (· == 0) = true := by
  unfold reserving at h
  split at h
  · cases h; exact ⟨rfl, by assumption⟩
  · cases h

/-- Fields that decode to an operation are the fields of its encoding (R73). -/
theorem decodeFields_encode {op a0 a1 a2 a3 : Byte} {i : Instr} (h : decodeFields op a0 a1 a2 a3 = .ok i) :
    encode i = [op, a0, a1, a2, a3] := by
  unfold decodeFields at h
  split at h <;> first | (cases h; done) | skip
  all_goals
    rename_i hop
    obtain ⟨rfl, hr⟩ := reserving_ok h
    have hop' : op = BitVec.ofNat 8 op.toNat := by simp
    rw [hop] at hop'
    subst hop'
    simp [List.all_cons] at hr
    simp [encode, Instr.opcode, Instr.operands, hr]

theorem decodeFields_opcode (i : Instr) : decodeFields i.opcode i.operands.1 i.operands.2.1 i.operands.2.2.1 i.operands.2.2.2 = .ok i := by
  cases i <;> rfl

/-- The latches right after an issue hold the operation's descriptor. -/
theorem Latches.operation_ofRequest (i : Instr) : (Latches.ofRequest i).operation = some i := by
  simp [Latches.operation, Latches.ofRequest, decodeFields_opcode, Except.toOption]

end Sys2Proof.Machine
end

