-- ==== Sys2Proof/Laws/Sequence.lean ====
section
/-!
SUPPORT. Every operation's sequence is sound: each step finds the lock and the latches as it needs them.
A checker says so of one sequence; it looks at shapes only, so that two runs of it (one per lock scope)
cover every configuration and every operand.
-/
namespace Sys2Proof.Machine

/-- Every arm of `exec` is the shared interpreter on its routine. -/
theorem exec_eq_operate (i : Instr) (s : State) : exec i s = operate i (routineOf i) s := by
  cases i <;> rfl

/-- The end of an operation touches `scanStatus` only. -/
theorem routineOf_ended (i : Instr) (res : Response) (s : State) :
    ∃ st, (routineOf i).ended res s = { s with scanStatus := st } := by
  cases i <;> first | exact ⟨s.scanStatus, rfl⟩ | (cases res <;> exact ⟨_, rfl⟩)

/-- A step's act finds the lock as it needs it, and every latch it reads written. -/
def actOk (seq : List Micro) (pc : Nat) : Act → Bool
  | .acquire => !heldBefore seq pc
  | .lookup => true
  | .waitIbf | .waitObf | .command _ | .release => heldBefore seq pc
  | .argument (.const _) => heldBefore seq pc
  | .argument (.latch l) => heldBefore seq pc && (writtenBefore seq pc).contains l
  | .argument .index => heldBefore seq pc && (startedBefore seq pc).contains .idx
  | .response ls => heldBefore seq pc && ls.all (fun l => !requestLatches.contains l)

/-- The internal work after a step finds what it needs, and a loop goes back to a place that is like this one. -/
def afterOk (seq : List Micro) (pc : Nat) : After → Bool
  | .proceed => true
  | .checkTarget | .checkTable =>
    (writtenBefore seq (pc + 1)).contains .chk && (!heldBefore seq (pc + 1) || heldBefore seq pc)
  | .checkIdle back =>
    (writtenBefore seq (pc + 1)).contains .pr && (startedBefore seq pc).contains .spoll && decide (back ≤ pc)
      && (!heldBefore seq (pc + 1) || heldBefore seq pc)
      && (heldBefore seq (pc - back) == heldBefore seq (pc + 1)) && !storesFrom seq (pc - back)
  | .checkStatus =>
    (writtenBefore seq (pc + 1)).contains .st && (!heldBefore seq (pc + 1) || heldBefore seq pc)
  | .storeEntry back =>
    (writtenBefore seq (pc + 1)).contains .dev && (writtenBefore seq (pc + 1)).contains .pin
      && (startedBefore seq pc).contains .idx && decide (back ≤ pc)
      && (heldBefore seq (pc - back) == heldBefore seq (pc + 1)) && !storesFrom seq (pc + 1)
      && !pollsFrom seq (pc - back)

/-- A counter starts in a status read, nowhere else (R49). -/
def startsOk (m : Micro) : Bool :=
  match m.act with
  | .waitIbf | .waitObf => true
  | .acquire | .command _ | .argument _ | .response _ | .release | .lookup => m.starts.isNone

/-- Step `pc` passes the checks. -/
def microOk (seq : List Micro) (pc : Nat) : Bool :=
  match seq[pc]? with
  | some m => actOk seq pc m.act && afterOk seq pc m.after && startsOk m
  | none => true

/-- Every step passes, the lock is free at the end, and there is a step. -/
def seqOk (seq : List Micro) : Bool :=
  (List.range seq.length).all (microOk seq) && !heldBefore seq seq.length && decide (0 < seq.length)

/-- An act with its bytes forgotten. -/
def Act.shape : Act → Act
  | .acquire => .acquire
  | .waitIbf => .waitIbf
  | .waitObf => .waitObf
  | .command _ => .command 0
  | .argument (.const _) => .argument (.const 0)
  | .argument (.latch l) => .argument (.latch l)
  | .argument .index => .argument .index
  | .response ls => .response ls
  | .release => .release
  | .lookup => .lookup

/-- A step with its bytes forgotten. -/
def Micro.shape (m : Micro) : Micro := { m with act := m.act.shape }

theorem Act.shape_holdsAfter (b : Bool) (a : Act) : a.shape.holdsAfter b = a.holdsAfter b := by
  cases a <;> try rfl
  rename_i s; cases s <;> rfl

theorem heldBefore_shape (seq : List Micro) (pc : Nat) : heldBefore (seq.map Micro.shape) pc = heldBefore seq pc := by
  simp [heldBefore, ← List.map_take, List.foldl_map, Micro.shape, Act.shape_holdsAfter]

theorem Micro.shape_writes (m : Micro) : m.shape.writes = m.writes := by
  rcases m with ⟨a, f, x⟩
  cases a <;> try rfl
  rename_i s; cases s <;> rfl

theorem Micro.shape_startsOk (m : Micro) : startsOk m.shape = startsOk m := by
  rcases m with ⟨a, f, x⟩
  cases a <;> try rfl
  rename_i s; cases s <;> rfl

theorem writtenBefore_shape (seq : List Micro) (pc : Nat) : writtenBefore (seq.map Micro.shape) pc = writtenBefore seq pc := by
  simp [writtenBefore, ← List.map_take, List.flatMap_map, Micro.shape_writes]

theorem startedBefore_shape (seq : List Micro) (pc : Nat) : startedBefore (seq.map Micro.shape) pc = startedBefore seq pc := by
  simp [startedBefore, ← List.map_take, List.flatMap_map, Micro.shape]

theorem storesFrom_shape (seq : List Micro) (pc : Nat) : storesFrom (seq.map Micro.shape) pc = storesFrom seq pc := by
  simp [storesFrom, ← List.map_drop, List.any_map, Function.comp_def, Micro.shape]

theorem pollsFrom_shape (seq : List Micro) (pc : Nat) : pollsFrom (seq.map Micro.shape) pc = pollsFrom seq pc := by
  simp [pollsFrom, ← List.map_drop, List.any_map, Function.comp_def, Micro.shape]

theorem microOk_shape (seq : List Micro) (pc : Nat) : microOk (seq.map Micro.shape) pc = microOk seq pc := by
  unfold microOk
  rw [List.getElem?_map]
  cases h : seq[pc]? with
  | none => rfl
  | some m =>
    have h3 := Micro.shape_startsOk m
    rcases m with ⟨a, f, x⟩
    have h1 : actOk (seq.map Micro.shape) pc a.shape = actOk seq pc a := by
      cases a <;> simp [actOk, Act.shape, heldBefore_shape]
      rename_i s
      cases s <;> simp [actOk, heldBefore_shape, writtenBefore_shape, startedBefore_shape]
    have h2 : afterOk (seq.map Micro.shape) pc f = afterOk seq pc f := by
      cases f <;> simp [afterOk, heldBefore_shape, writtenBefore_shape, startedBefore_shape, storesFrom_shape, pollsFrom_shape]
    simp only [Micro.shape] at h3
    simp [Micro.shape, h1, h2, h3]

theorem seqOk_shape (seq : List Micro) : seqOk (seq.map Micro.shape) = seqOk seq := by
  have h : microOk (seq.map Micro.shape) = microOk seq := funext (microOk_shape seq)
  simp [seqOk, h, heldBefore_shape]

/-- The same operation with zero operands. -/
def rep : Instr → Instr
  | .waitIbf => .waitIbf
  | .waitObf => .waitObf
  | .ramRead _ => .ramRead 0
  | .ramWrite _ _ => .ramWrite 0 0
  | .acpiRead _ => .acpiRead 0
  | .acpiWrite _ _ => .acpiWrite 0 0
  | .gpioStatusRead _ => .gpioStatusRead 0
  | .gpioStatusWrite _ _ => .gpioStatusWrite 0 0
  | .gpioDirRead _ => .gpioDirRead 0
  | .gpioDirWrite _ _ => .gpioDirWrite 0 0
  | .adRead _ _ => .adRead 0 0
  | .onekeyRead _ => .onekeyRead 0
  | .onekeyWrite _ _ => .onekeyWrite 0 0
  | .oemRead _ => .oemRead 0
  | .oemWrite _ _ => .oemWrite 0 0
  | .smbReadByte _ _ _ => .smbReadByte 0 0 0
  | .smbWriteByte _ _ _ _ => .smbWriteByte 0 0 0 0
  | .smbReadWord _ _ _ => .smbReadWord 0 0 0
  | .tableScan => .tableScan
  | .tableRead _ => .tableRead 0

/-- The lock scope is the only parameter that changes a sequence's shape. -/
def withScope (scope : LockScope) : Config := { Config.fallback with smbusLockScope := scope }

/-- A sequence's shape depends on the lock scope and the kind of operation only. -/
theorem seqOf_shape (k : Config) (i : Instr) :
    (seqOf k i).map Micro.shape = (seqOf (withScope k.smbusLockScope) (rep i)).map Micro.shape := by
  obtain ⟨_, _, _, _, _, _, scope⟩ := k
  cases i <;> cases scope <;> rfl

/-- All representatives. -/
def reps : List Instr :=
  [.waitIbf, .waitObf, .ramRead 0, .ramWrite 0 0, .acpiRead 0, .acpiWrite 0 0, .gpioStatusRead 0,
   .gpioStatusWrite 0 0, .gpioDirRead 0, .gpioDirWrite 0 0, .adRead 0 0, .onekeyRead 0, .onekeyWrite 0 0,
   .oemRead 0, .oemWrite 0 0, .smbReadByte 0 0 0, .smbWriteByte 0 0 0 0, .smbReadWord 0 0 0, .tableScan,
   .tableRead 0]

theorem rep_mem (i : Instr) : rep i ∈ reps := by
  cases i <;> simp [rep, reps]

theorem reps_ok_perStep : (reps.all fun i => seqOk (seqOf (withScope .perStep) i)) = true := by
  decide +kernel

theorem reps_ok_wholeTransaction : (reps.all fun i => seqOk (seqOf (withScope .wholeTransaction) i)) = true := by
  decide +kernel

/-- Every sequence passes the checker. -/
theorem seqOf_ok (k : Config) (i : Instr) : seqOk (seqOf k i) = true := by
  rw [← seqOk_shape, seqOf_shape, seqOk_shape]
  cases k.smbusLockScope
  · exact List.all_eq_true.mp reps_ok_perStep _ (rep_mem i)
  · exact List.all_eq_true.mp reps_ok_wholeTransaction _ (rep_mem i)

/-- At the end of a sequence the lock is not held, and a sequence is not empty. -/
theorem seq_end (k : Config) (i : Instr) : heldBefore (seqOf k i) (seqOf k i).length = false ∧ 0 < (seqOf k i).length := by
  have h := seqOf_ok k i
  simp [seqOk] at h
  exact ⟨h.1.2, h.2⟩

/-- What the checker says of one step. -/
theorem seq_micro {k : Config} {i : Instr} {pc : Nat} {m : Micro} (hm : (seqOf k i)[pc]? = some m) :
    actOk (seqOf k i) pc m.act = true ∧ afterOk (seqOf k i) pc m.after = true ∧ startsOk m = true := by
  have h := seqOf_ok k i
  simp only [seqOk, Bool.and_eq_true, List.all_eq_true, List.mem_range] at h
  have := h.1.1 pc (List.getElem?_eq_some_iff.mp hm).1
  simpa [microOk, hm, and_assoc] using this

theorem heldBefore_succ {seq : List Micro} {pc : Nat} {m : Micro} (h : seq[pc]? = some m) :
    heldBefore seq (pc + 1) = m.act.holdsAfter (heldBefore seq pc) := by
  simp [heldBefore, List.take_add_one, h]

theorem writtenBefore_succ {seq : List Micro} {pc : Nat} {m : Micro} (h : seq[pc]? = some m) :
    writtenBefore seq (pc + 1) = writtenBefore seq pc ++ m.writes := by
  simp [writtenBefore, List.take_add_one, h]

theorem startedBefore_succ {seq : List Micro} {pc : Nat} {m : Micro} (h : seq[pc]? = some m) :
    startedBefore seq (pc + 1) = startedBefore seq pc ++ m.starts.toList := by
  simp [startedBefore, List.take_add_one, h]

theorem storesFrom_succ {seq : List Micro} {pc : Nat} {m : Micro} (h : seq[pc]? = some m) :
    storesFrom seq pc = ((match m.after with | .storeEntry _ => true | _ => false) || storesFrom seq (pc + 1)) := by
  have hlt := (List.getElem?_eq_some_iff.mp h).1
  have he := (List.getElem?_eq_some_iff.mp h).2
  simp only [storesFrom]
  rw [List.drop_eq_getElem_cons hlt, he, List.any_cons]
  rcases m with ⟨a, f, x⟩
  cases f <;> rfl

theorem pollsFrom_succ {seq : List Micro} {pc : Nat} {m : Micro} (h : seq[pc]? = some m) :
    pollsFrom seq pc = ((match m.after with | .checkIdle _ => true | _ => false) || pollsFrom seq (pc + 1)) := by
  have hlt := (List.getElem?_eq_some_iff.mp h).1
  have he := (List.getElem?_eq_some_iff.mp h).2
  simp only [pollsFrom]
  rw [List.drop_eq_getElem_cons hlt, he, List.any_cons]
  rcases m with ⟨a, f, x⟩
  cases f <;> rfl

theorem writtenBefore_mono {seq : List Micro} {a b : Nat} (h : a ≤ b) : ∀ l ∈ writtenBefore seq a, l ∈ writtenBefore seq b := by
  intro l hl
  simp only [writtenBefore, List.mem_append, List.mem_flatMap] at *
  rcases hl with hl | ⟨m, hm, hl⟩
  · exact Or.inl hl
  · exact Or.inr ⟨m, (List.take_subset_take_left seq h) hm, hl⟩

theorem startedBefore_mono {seq : List Micro} {a b : Nat} (h : a ≤ b) : ∀ l ∈ startedBefore seq a, l ∈ startedBefore seq b := by
  intro l hl
  simp only [startedBefore, List.mem_flatMap] at *
  obtain ⟨m, hm, hl⟩ := hl
  exact ⟨m, (List.take_subset_take_left seq h) hm, hl⟩

/-- The error that a step may raise, by its act or by the work after it, is one that R122 allows the operation. -/
def errorsOk (i : Instr) (m : Micro) : Bool :=
  (match m.act with
    | .waitIbf | .waitObf => mayEndWith i .timeout
    | .acquire | .command _ | .argument _ | .response _ | .release | .lookup => true) &&
  (match m.after with
    | .checkTarget => mayEndWith i .invalidTarget
    | .checkTable => mayEndWith i .invalidTable
    | .checkIdle _ => mayEndWith i .timeout
    | .checkStatus => mayEndWith i (.smbusError 0)
    | .proceed | .storeEntry _ => true)

theorem errorsOk_shape (i : Instr) (m : Micro) : errorsOk i m.shape = errorsOk i m := by
  rcases m with ⟨a, f, x⟩
  cases a <;> try rfl
  rename_i src; cases src <;> rfl

theorem mayEndWith_smbusError (i : Instr) (a b : Byte) : mayEndWith i (.smbusError a) = mayEndWith i (.smbusError b) := by
  cases i <;> rfl

theorem mayEndWith_ok (i : Instr) (v : Word32) : mayEndWith i (.ok v) = true := by
  cases i <;> rfl

theorem reps_errors (scope : LockScope) :
    (reps.all fun i => (seqOf (withScope scope) i).all (errorsOk i)) = true := by
  cases scope <;> decide +kernel

/-- Every error that a step of a sequence may raise is one that R122 allows. -/
theorem seq_errors {k : Config} {i : Instr} {m : Micro} (hm : m ∈ seqOf k i) : errorsOk i m = true := by
  have hi : ∀ m, errorsOk i m = errorsOk (rep i) m := by intro m; cases i <;> rfl
  have h1 : m.shape ∈ (seqOf (withScope k.smbusLockScope) (rep i)).map Micro.shape := by
    rw [← seqOf_shape]; exact List.mem_map_of_mem hm
  obtain ⟨m', hm', hs⟩ := List.mem_map.mp h1
  rw [hi, ← errorsOk_shape, ← hs, errorsOk_shape]
  exact List.all_eq_true.mp (List.all_eq_true.mp (reps_errors _) _ (rep_mem i)) _ hm'

/-- The latches that an operation's result is made of. -/
def valueNeeds : Instr → List Latch
  | .ramRead _ | .acpiRead _ | .gpioStatusRead _ | .gpioDirRead _ | .onekeyRead _ | .oemRead _ => [.v]
  | .adRead _ _ => [.msb, .lsb, .a1]
  | .smbReadByte _ _ _ => [.d0]
  | .smbReadWord _ _ _ => [.d0, .d1]
  | .tableRead _ => [.a0]
  | .waitIbf | .waitObf | .ramWrite _ _ | .acpiWrite _ _ | .gpioStatusWrite _ _ | .gpioDirWrite _ _
  | .onekeyWrite _ _ | .oemWrite _ _ | .smbWriteByte _ _ _ _ | .tableScan => []

theorem reps_value_perStep : (reps.all fun i => (valueNeeds i).all fun l =>
    (writtenBefore (seqOf (withScope .perStep) i) (seqOf (withScope .perStep) i).length).contains l) = true := by
  decide +kernel

theorem reps_value_wholeTransaction : (reps.all fun i => (valueNeeds i).all fun l =>
    (writtenBefore (seqOf (withScope .wholeTransaction) i) (seqOf (withScope .wholeTransaction) i).length).contains l)
      = true := by
  decide +kernel

/-- At the end of its sequence an operation has written every latch its result needs. -/
theorem valueNeeds_written (k : Config) (i : Instr) :
    (valueNeeds i).all (fun l => (writtenBefore (seqOf k i) (seqOf k i).length).contains l) = true := by
  have h1 : valueNeeds i = valueNeeds (rep i) := by cases i <;> rfl
  have h2 : ((seqOf k i).map Micro.shape).length = (seqOf k i).length := by simp
  have h3 := congrArg List.length (seqOf_shape k i)
  simp only [List.length_map] at h3
  rw [← writtenBefore_shape, seqOf_shape, writtenBefore_shape, h1, h3]
  cases k.smbusLockScope
  · exact List.all_eq_true.mp reps_value_perStep _ (rep_mem i)
  · exact List.all_eq_true.mp reps_value_wholeTransaction _ (rep_mem i)

end Sys2Proof.Machine
end

