-- ==== Sys2Proof/Laws/Run.lean ====
section
/-!
SUPPORT. Runs of one operation, and the relation `Sim` between the steps of a part of a sequence and the
pseudocode of that part: what single steps, waits and composition do.
-/
namespace Sys2Proof.Machine

/-! ## Runs -/

/-- Client `c` stands at step `pc` with latches `L`. -/
def State.seat (w : State) (c pc : Nat) (L : Latches) : State :=
  w.setClient c { phase := .busy pc .start, latches := L }

theorem runTurns_add (i : Instr) (c m n : Nat) (s : State) :
    runTurns i c (m + n) s = match runTurns i c m s with
      | .next t => runTurns i c n t
      | .fault f => .fault f
      | .refused r => .refused r := by
  induction m generalizing s with
  | zero => simp [runTurns]
  | succ m ih =>
    rw [Nat.succ_add]
    simp only [runTurns]
    cases exec i (s.atTurn (.run c)) with
    | next t => exact ih t
    | fault f => rfl
    | refused r => rfl

/-- One run turn, in a state whose turn is that one already. -/
theorem runTurns_one {i : Instr} {c : Nat} {s : State} {o : Out} (h : s.now = .run c)
    (ho : s.advance (routineOf i) c = o) : runTurns i c 1 s = o := by
  have : s.atTurn (.run c) = s := by cases s; cases h; rfl
  simp only [runTurns, this, exec_eq_operate, operate, h, ho]
  cases o <;> rfl

theorem runTurns_trans {i : Instr} {c m n : Nat} {s t : State} {o : Out} (h1 : runTurns i c m s = .next t)
    (h2 : runTurns i c n t = o) : runTurns i c (m + n) s = o := by
  rw [runTurns_add, h1]; exact h2

/-- The first run turn overwrites the turn that stands in the state. -/
theorem runTurns_atTurn (i : Instr) (c n : Nat) (s : State) (h : 0 < n) :
    runTurns i c n (s.atTurn (.run c)) = runTurns i c n s := by
  obtain ⟨m, rfl⟩ := Nat.exists_eq_add_of_lt h
  simp only [Nat.zero_add, runTurns]; rfl

theorem State.client?_seat (w : State) {c pc : Nat} {L : Latches} (h : c < w.clients.length) :
    (w.seat c pc L).client? c = some { phase := .busy pc .start, latches := L } :=
  State.client?_setClient_self w _ h

/-! ## What stays while an operation runs -/

/-- The latches hold the descriptor of `i`, and the loop counters `idx` and `spoll` as `z` says, where it
says anything. -/
structure Holds (i : Instr) (z : Option (Option Nat × Option Nat)) (L : Latches) : Prop where
  op : L.op = some i.opcode
  a0 : L.a0 = some i.operands.1
  a1 : L.a1 = some i.operands.2.1
  a2 : L.a2 = some i.operands.2.2.1
  a3 : L.a3 = some i.operands.2.2.2
  counters : ∀ p, z = some p → L.idx = p.1 ∧ L.spoll = p.2

theorem Holds.forget {i : Instr} {z : Option (Option Nat × Option Nat)} {L : Latches} (h : Holds i z L) :
    Holds i none L :=
  ⟨h.op, h.a0, h.a1, h.a2, h.a3, by simp⟩

/-- What no step of a running operation changes in the rest of the state. -/
structure Kept (w w' : State) : Prop where
  cfg : w'.cfg = w.cfg
  now : w'.now = w.now
  clients : w'.clients = w.clients
  table : w'.table.length = w.table.length

theorem Kept.refl (w : State) : Kept w w := ⟨rfl, rfl, rfl, rfl⟩

theorem Kept.trans {w w' w'' : State} (h : Kept w w') (h' : Kept w' w'') : Kept w w'' :=
  ⟨h'.cfg.trans h.cfg, h'.now.trans h.now, h'.clients.trans h.clients, h'.table.trans h.table⟩

/-- Client `c` runs `i` and may take a step. -/
structure Live (k : Config) (i : Instr) (c : Nat) (z : Option (Option Nat × Option Nat)) (w : State)
    (L : Latches) : Prop where
  cfg : w.cfg = k
  now : w.now = .run c
  here : c < w.clients.length
  table : w.table.length = k.nTbl
  holds : Holds i z L

theorem Live.kept {k : Config} {i : Instr} {c : Nat} {z z' : Option (Option Nat × Option Nat)} {w w' : State}
    {L L' : Latches} (h : Live k i c z w L) (hk : Kept w w') (hL : Holds i z' L') : Live k i c z' w' L' :=
  ⟨hk.cfg.trans h.cfg, hk.now.trans h.now, by rw [hk.clients]; exact h.here, by rw [hk.table]; exact h.table, hL⟩

/-- Every latch outside `ls` is as it was. -/
def Frame (ls : List Latch) (L L' : Latches) : Prop :=
  ∀ l, l ∉ ls → L'.read l = L.read l

theorem Frame.refl (ls : List Latch) (L : Latches) : Frame ls L L := fun _ _ => rfl

theorem Frame.trans {ls ls' : List Latch} {L L' L'' : Latches} (h : Frame ls L L') (h' : Frame ls' L' L'') :
    Frame (ls ++ ls') L L'' := by
  intro l hl
  simp only [List.mem_append, not_or] at hl
  exact (h' l hl.2).trans (h l hl.1)

theorem Frame.mono {ls ls' : List Latch} {L L' : Latches} (h : Frame ls L L') (hs : ls ⊆ ls') : Frame ls' L L' :=
  fun l hl => h l (fun hm => hl (hs hm))

/-- The latches that a part of a sequence writes. -/
abbrev writesOf (ms : List Micro) : List Latch := ms.flatMap Micro.writes

/-- THE RELATION. The steps `ms`, run from where they stand in `i`'s sequence with lock `lk`, do what the
pseudocode `p` does: where `p` returns, they reach the internal work `after` of their last step in the state
and latches that `p` leaves, and `post` holds; where `p` raises, they raise the same. Each run turn is one
event of the trace. -/
def Sim {α : Type} (k : Config) (i : Instr) (c : Nat) (z z' : Option (Option Nat × Option Nat)) (lk : Lock)
    (ms : List Micro) (after : After) (p : Pseudo.Code α) (post : α → Latches → Prop := fun _ _ => True) : Prop :=
  ∀ (w : State) (L : Latches) (pc : Nat), Live k i c z w L → w.lock = lk → ms <+: (seqOf k i).drop pc →
    match p (w, L) with
    | (.ok a, (w', L')) => Kept w w' ∧ w'.lock = lk ∧ Holds i z' L' ∧ post a L' ∧ Frame (writesOf ms) L L' ∧
        ∃ n, w'.trace.length = w.trace.length + n ∧
          runTurns i c n (w.seat c pc L) = w'.settle (routineOf i) after c (pc + ms.length - 1) { latches := L' }
    | (.error e, (w', L')) => Kept w w' ∧ ∃ n pc', w'.trace.length = w.trace.length + n ∧ w'.lock = lk ∧
          runTurns i c n (w.seat c pc L) = .next (w'.raise (routineOf i) c pc' { latches := L' } e)

/-! ## Parts of a sequence -/

theorem prefix_split {a b l : List Micro} {pc : Nat} (h : a ++ b <+: l.drop pc) :
    a <+: l.drop pc ∧ b <+: l.drop (pc + a.length) := by
  obtain ⟨r, hr⟩ := h
  refine ⟨⟨b ++ r, by rw [← hr, List.append_assoc]⟩, ⟨r, ?_⟩⟩
  rw [← List.drop_drop, ← hr, List.append_assoc, List.drop_left]

theorem prefix_head {m : Micro} {ms l : List Micro} {pc : Nat} (h : m :: ms <+: l.drop pc) : l[pc]? = some m := by
  obtain ⟨r, hr⟩ := h
  have := congrArg (·[0]?) hr
  simp at this
  exact this.symm

theorem prefix_lt {ms l : List Micro} {pc : Nat} (h : ms <+: l.drop pc) (hne : ms ≠ []) : pc < l.length := by
  cases ms with
  | nil => exact absurd rfl hne
  | cons m ms => exact (List.getElem?_eq_some_iff.mp (prefix_head h)).1

/-! ## The client's own sequencer is overwritten -/

theorem goto_lt {s : State} {r : Routine} {c pc : Nat} {q : Sequencer} (h : pc < (r.seq s.cfg).length) :
    s.goto r c pc q = .next (s.seat c pc q.latches) := by
  simp [State.goto, h, State.seat]

theorem settle_phase (s : State) (r : Routine) (a : After) (c pc : Nat) (ph : Phase) (L : Latches) :
    s.settle r a c pc { phase := ph, latches := L } = s.settle r a c pc { latches := L } := by
  cases a <;> simp [State.settle, State.goto, State.raise, State.complete]

theorem raise_phase (s : State) (r : Routine) (c pc : Nat) (ph : Phase) (L : Latches) (e : Response) :
    s.raise r c pc { phase := ph, latches := L } e = s.raise r c pc { latches := L } e := by
  simp [State.raise, State.complete]

theorem ended_setClient (i : Instr) (res : Response) (s : State) (c : Nat) (q : Sequencer) :
    (routineOf i).ended res (s.setClient c q) = ((routineOf i).ended res s).setClient c q := by
  cases i <;> cases res <;> rfl

theorem complete_setClient (s : State) (i : Instr) (c : Nat) (q q' : Sequencer) (res : Response) :
    (s.setClient c q').complete (routineOf i) c q res = s.complete (routineOf i) c q res := by
  simp [State.complete, ended_setClient, State.setClient_setClient]

theorem raise_setClient (s : State) (i : Instr) (c pc : Nat) (q q' : Sequencer) (e : Response) :
    (s.setClient c q').raise (routineOf i) c pc q e = s.raise (routineOf i) c pc q e := by
  simp [State.raise, complete_setClient, State.setClient_setClient]

theorem goto_setClient (s : State) (i : Instr) (c pc : Nat) (q q' : Sequencer) :
    (s.setClient c q').goto (routineOf i) c pc q = s.goto (routineOf i) c pc q := by
  have hv : (routineOf i).value (s.setClient c q') q.latches = (routineOf i).value s q.latches := by cases i <;> rfl
  simp only [State.goto, hv, complete_setClient, State.setClient_setClient, State.setClient_cfg]

theorem settle_setClient (s : State) (i : Instr) (a : After) (c pc : Nat) (q q' : Sequencer) :
    (s.setClient c q').settle (routineOf i) a c pc q = s.settle (routineOf i) a c pc q := by
  have hw : ∀ n d p, (s.setClient c q').writeEntry n d p = (s.writeEntry n d p).setClient c q' := fun _ _ _ => rfl
  cases a <;> simp [State.settle, goto_setClient, raise_setClient, hw]

theorem settle_seat (s : State) (i : Instr) (a : After) (c pc pc' : Nat) (L : Latches) (q : Sequencer) :
    (s.seat c pc' L).settle (routineOf i) a c pc q = s.settle (routineOf i) a c pc { latches := q.latches } := by
  rw [State.seat, settle_setClient]; exact settle_phase ..

theorem seat_portOut (w : State) (c pc : Nat) (L : Latches) (p : Port) (b : Byte) :
    (w.seat c pc L).portOut c p b = (w.portOut c p b).seat c pc L := rfl

theorem seat_portIn (w : State) (c pc : Nat) (L : Latches) (p : Port) :
    (w.seat c pc L).portIn c p = (w.portIn c p).seat c pc L := rfl

theorem seat_answer (w : State) (c pc : Nat) (L : Latches) (p : Port) : (w.seat c pc L).answer p = w.answer p := rfl

/-! ## Composition -/

/-- Sequential composition. -/
theorem sim_bind {α β : Type} {k : Config} {i : Instr} {c : Nat} {z z' z'' : Option (Option Nat × Option Nat)}
    {lk : Lock} {ms ms' : List Micro} {after : After} {p : Pseudo.Code α} {q : α → Pseudo.Code β}
    {post : α → Latches → Prop} {post' : α → β → Latches → Prop} {post'' : β → Latches → Prop}
    (hne : ms ≠ []) (hne' : ms' ≠ []) (hp : Sim k i c z z' lk ms .proceed p post)
    (hq : ∀ a, Sim k i c z' z'' lk ms' after (q a) (post' a))
    (hpost : ∀ a b L L', post a L → Frame (writesOf ms') L L' → post' a b L' → post'' b L') :
    Sim k i c z z'' lk (ms ++ ms') after (p >>= q) post'' := by
  intro w L pc hl hh hpre
  obtain ⟨h1, h2⟩ := prefix_split hpre
  have := hp w L pc hl hh h1
  rw [Pseudo.bind_run]
  rcases hpw : p (w, L) with ⟨r, w', L'⟩
  rw [hpw] at this
  cases r with
  | error e => exact this
  | ok a =>
    obtain ⟨hk1, hh1, hL1, hp1, hf1, n1, ht1, hn1⟩ := this
    have h2' := hq a w' L' (pc + ms.length) (hl.kept hk1 hL1) hh1 h2
    have hpos : 0 < ms.length := List.length_pos_iff.mpr hne
    have hlt := prefix_lt h2 hne'
    have hn1' : runTurns i c n1 (w.seat c pc L) = .next (w'.seat c (pc + ms.length) L') := by
      rw [hn1]
      simp only [State.settle]
      rw [goto_lt]
      · rw [show pc + ms.length - 1 + 1 = pc + ms.length by omega]
      · show _ < (seqOf w'.cfg i).length
        rw [hk1.cfg, hl.cfg]; omega
    dsimp only
    rcases hqw : q a (w', L') with ⟨r, w'', L''⟩
    rw [hqw] at h2'
    cases r with
    | error e =>
      obtain ⟨hk2, n2, pc', ht2, hh2, hn2⟩ := h2'
      exact ⟨hk1.trans hk2, _, pc', by omega, hh2, runTurns_trans hn1' hn2⟩
    | ok b =>
      obtain ⟨hk2, hh2, hL2, hp2, hf2, n2, ht2, hn2⟩ := h2'
      refine ⟨hk1.trans hk2, hh2, hL2, hpost a b L' L'' hp1 hf2 hp2, ?_, n1 + n2, by omega, ?_⟩
      · rw [writesOf, List.flatMap_append]; exact hf1.trans hf2
      · rw [List.length_append, ← Nat.add_assoc]
        exact runTurns_trans hn1' hn2

/-- Sequential composition where only the second part says anything. -/
theorem sim_then {α β : Type} {k : Config} {i : Instr} {c : Nat} {z z' z'' : Option (Option Nat × Option Nat)}
    {lk : Lock} {ms ms' : List Micro} {after : After} {p : Pseudo.Code α} {q : α → Pseudo.Code β}
    {post : α → Latches → Prop} {post' : β → Latches → Prop} (hne : ms ≠ []) (hne' : ms' ≠ [])
    (hp : Sim k i c z z' lk ms .proceed p post) (hq : ∀ a, Sim k i c z' z'' lk ms' after (q a) post') :
    Sim k i c z z'' lk (ms ++ ms') after (p >>= q) post' :=
  sim_bind hne hne' hp hq fun _ _ _ _ _ _ h => h

/-- A pure function of the value. -/
theorem sim_map {α β : Type} {k : Config} {i : Instr} {c : Nat} {z z' : Option (Option Nat × Option Nat)} {lk : Lock}
    {ms : List Micro} {after : After} {p : Pseudo.Code α} {post : α → Latches → Prop} {post' : β → Latches → Prop}
    (f : α → β) (hp : Sim k i c z z' lk ms after p post) (hf : ∀ a L, Holds i z' L → post a L → post' (f a) L) :
    Sim k i c z z' lk ms after (p >>= fun a => pure (f a)) post' := by
  intro w L pc hl hh hpre
  have := hp w L pc hl hh hpre
  rw [Pseudo.bind_run]
  rcases hpw : p (w, L) with ⟨r, w', L'⟩
  rw [hpw] at this
  cases r with
  | error e => exact this
  | ok a =>
    obtain ⟨h1, h2, h3, h4, h5⟩ := this
    exact ⟨h1, h2, h3, hf _ _ h3 h4, h5⟩

/-- A weaker claim about the value. -/
theorem sim_post {α : Type} {k : Config} {i : Instr} {c : Nat} {z z' : Option (Option Nat × Option Nat)} {lk : Lock}
    {ms : List Micro} {after : After} {p : Pseudo.Code α} {post post' : α → Latches → Prop}
    (hp : Sim k i c z z' lk ms after p post) (hf : ∀ a L, Holds i z' L → post a L → post' a L) :
    Sim k i c z z' lk ms after p post' := by
  have := sim_map id hp hf
  simpa only [id, Pseudo.bind_pure'] using this

/-- Internal work that the pseudocode writes out after the steps. -/
theorem sim_absorb {α β : Type} {k : Config} {i : Instr} {c : Nat} {z z' z'' : Option (Option Nat × Option Nat)}
    {lk : Lock} {ms : List Micro} {after : After} {p : Pseudo.Code α}
    {post : α → Latches → Prop} {post' : β → Latches → Prop} (f : α → Pseudo.Code β)
    (hp : Sim k i c z z' lk ms after p post)
    (hf : ∀ a w L pc, Live k i c z' w L → w.lock = lk → post a L →
      match f a (w, L) with
      | (.ok b, (w', L')) => Kept w w' ∧ w'.lock = lk ∧ Holds i z'' L' ∧ post' b L' ∧ Frame [] L L' ∧
          w'.trace = w.trace ∧
          w.settle (routineOf i) after c pc { latches := L } =
            w'.settle (routineOf i) .proceed c pc { latches := L' }
      | (.error e, (w', L')) => Kept w w' ∧ w'.lock = lk ∧ w'.trace = w.trace ∧
          w.settle (routineOf i) after c pc { latches := L } =
            .next (w'.raise (routineOf i) c pc { latches := L' } e)) :
    Sim k i c z z'' lk ms .proceed (p >>= f) post' := by
  intro w L pc hl hh hpre
  have := hp w L pc hl hh hpre
  rw [Pseudo.bind_run]
  rcases hpw : p (w, L) with ⟨r, w', L'⟩
  rw [hpw] at this
  cases r with
  | error e => exact this
  | ok a =>
    obtain ⟨hk1, hh1, hL1, hp1, hf1, n1, ht1, hn1⟩ := this
    have h2 := hf a w' L' (pc + ms.length - 1) (hl.kept hk1 hL1) hh1 hp1
    dsimp only
    rcases hqw : f a (w', L') with ⟨r, w'', L''⟩
    rw [hqw] at h2
    cases r with
    | error e =>
      obtain ⟨hk2, hh2, ht2, hs2⟩ := h2
      exact ⟨hk1.trans hk2, n1, _, by rw [ht2]; exact ht1, hh2, hn1.trans hs2⟩
    | ok b =>
      obtain ⟨hk2, hh2, hL2, hp2, hf2, ht2, hs2⟩ := h2
      refine ⟨hk1.trans hk2, hh2, hL2, hp2, ?_, n1, by rw [ht2]; exact ht1, hn1.trans hs2⟩
      simpa using hf1.trans hf2

/-! ## Single steps -/

theorem advance_seat {k : Config} {i : Instr} {c pc : Nat} {z : Option (Option Nat × Option Nat)} {w : State}
    {L : Latches} {m : Micro} (hl : Live k i c z w L) (hm : (seqOf k i)[pc]? = some m) :
    (w.seat c pc L).advance (routineOf i) c =
      (w.seat c pc L).perform (routineOf i) m c pc { phase := .busy pc .start, latches := L } .start := by
  have hm' : ((routineOf i).seq (w.seat c pc L).cfg)[pc]? = some m := by
    show (seqOf w.cfg i)[pc]? = some m
    rw [hl.cfg]; exact hm
  simp only [State.advance, State.client?_seat w hl.here, hm']

theorem sim_single {α : Type} {k : Config} {i : Instr} {c : Nat} {z z' : Option (Option Nat × Option Nat)} {lk : Lock}
    {m : Micro} {p : Pseudo.Code α} {post : α → Latches → Prop}
    (h : ∀ (w : State) (L : Latches) (pc : Nat), Live k i c z w L → w.lock = lk →
      match p (w, L) with
      | (.ok a, (w', L')) => Kept w w' ∧ w'.lock = lk ∧ Holds i z' L' ∧ post a L' ∧ Frame m.writes L L' ∧
          w'.trace.length = w.trace.length + 1 ∧
          (w.seat c pc L).perform (routineOf i) m c pc { phase := .busy pc .start, latches := L } .start =
            w'.settle (routineOf i) m.after c pc { latches := L' }
      | (.error _, _) => False) : Sim k i c z z' lk [m] m.after p post := by
  intro w L pc hl hh hpre
  have := h w L pc hl hh
  have hm := prefix_head hpre
  rcases hpw : p (w, L) with ⟨r, w', L'⟩
  rw [hpw] at this
  cases r with
  | error e => exact this.elim
  | ok a =>
    obtain ⟨h1, h2, h3, h4, h5, h6, h7⟩ := this
    exact ⟨h1, h2, h3, h4, by simpa [writesOf] using h5, 1, h6,
      runTurns_one (show (w.seat c pc L).now = _ from hl.now) ((advance_seat hl hm).trans h7)⟩

theorem sim_command {k : Config} {i : Instr} {c : Nat} {z : Option (Option Nat × Option Nat)} {lk : Lock} (b : Byte) :
    Sim k i c z z lk [{ act := .command b }] .proceed (Pseudo.portOut c .command b) := by
  apply sim_single
  intro w L pc hl hh
  refine ⟨⟨rfl, rfl, rfl, rfl⟩, hh, hl.holds, trivial, Frame.refl _ _, by simp [State.portOut, State.record], ?_⟩
  simp only [State.perform, seat_portOut, settle_seat]

theorem sim_argument {k : Config} {i : Instr} {c : Nat} {z : Option (Option Nat × Option Nat)} {lk : Lock}
    {src : Source} {b : Byte} {after : After} (hb : ∀ L, Holds i z L → src.byte L = .ok b) :
    Sim k i c z z lk [{ act := .argument src, after := after }] after (Pseudo.portOut c .data b) := by
  apply sim_single (m := { act := .argument src, after := after })
  intro w L pc hl hh
  refine ⟨⟨rfl, rfl, rfl, rfl⟩, hh, hl.holds, trivial, Frame.refl _ _, by simp [State.portOut, State.record], ?_⟩
  simp only [State.perform, hb L hl.holds, attempt, seat_portOut, settle_seat]

theorem Holds.writeAll {i : Instr} {z : Option (Option Nat × Option Nat)} {L : Latches} (h : Holds i z L) (b : Byte)
    {ls : List Latch} (hls : ∀ l ∈ ls, l ∉ requestLatches) : Holds i z (L.writeAll b ls) := by
  have hr : ∀ l ∈ requestLatches, (L.writeAll b ls).read l = L.read l := by
    intro l hl
    rw [Latches.read_writeAll, if_neg (fun hmem => hls l hmem hl)]
  have h0 := hr .op (by simp [requestLatches])
  have h1 := hr .a0 (by simp [requestLatches])
  have h2 := hr .a1 (by simp [requestLatches])
  have h3 := hr .a2 (by simp [requestLatches])
  have h4 := hr .a3 (by simp [requestLatches])
  simp only [Latches.read] at h0 h1 h2 h3 h4
  refine ⟨h0.trans h.op, h1.trans h.a0, h2.trans h.a1, h3.trans h.a2, h4.trans h.a3, ?_⟩
  intro p hp
  have hi := Latches.writeAll_counter L b ls .idx
  have hs := Latches.writeAll_counter L b ls .spoll
  simp only [Latches.readCounter] at hi hs
  rw [hi, hs]; exact h.counters p hp

theorem sim_response {k : Config} {i : Instr} {c : Nat} {z : Option (Option Nat × Option Nat)} {lk : Lock}
    {ls : List Latch} {after : After} (hls : ∀ l ∈ ls, l ∉ requestLatches) :
    Sim k i c z z lk [{ act := .response ls, after := after }] after (Pseudo.receive c ls)
      (fun b L => ∀ l ∈ ls, L.read l = some b) := by
  apply sim_single (m := { act := .response ls, after := after })
  intro w L pc hl hh
  refine ⟨⟨rfl, rfl, rfl, rfl⟩, hh, hl.holds.writeAll _ hls, ?_, ?_, by simp, ?_⟩
  · intro l hmem
    rw [Latches.read_writeAll, if_pos hmem]
  · intro l hmem
    rw [Latches.read_writeAll, if_neg (show l ∉ ls from hmem)]
  · simp only [State.perform, seat_portIn, settle_seat, seat_answer]

/-! ## Waits -/

/-- From the first or a later read of a wait on, with `left` reads left (R78, R79). -/
theorem wait_run {k : Config} {i : Instr} {c pc : Nat} {z' : Option (Option Nat × Option Nat)} {m : Micro}
    {done : Byte → Bool} (hm : (seqOf k i)[pc]? = some m)
    (hact : ∀ (s : State) (q : Sequencer) (st : Stage),
      s.perform (routineOf i) m c pc q st =
        s.pollStep (routineOf i) m.after c pc { q with latches := q.latches.starting m.starts } st done)
    {L0 : Latches} (hL0 : Holds i z' L0)
    (hset : ∀ p f, ({ ({ L0 with poll := p } : Latches).starting m.starts with poll := f } : Latches) = { L0 with poll := f }) :
    ∀ (left n : Nat) (st : Stage) (w : State) (L : Latches) (z : Option (Option Nat × Option Nat)), Live k i c z w L →
      (∀ e, st ≠ .abort e) → left + n = k.maxPoll →
      (if st = .again then (L.starting m.starts).count .poll else .ok 0) = .ok n →
      (∀ f, ({ L.starting m.starts with poll := f } : Latches) = { L0 with poll := f }) → 0 < left →
      match Pseudo.waitLoop c done left (w, { L0 with poll := some n }) with
      | (.ok _, (w', L')) => Kept w w' ∧ w'.lock = w.lock ∧ Holds i z' L' ∧ Frame [] L L' ∧
          ∃ t, w'.trace.length = w.trace.length + t ∧
            runTurns i c t (w.setClient c { phase := .busy pc st, latches := L }) =
              w'.settle (routineOf i) m.after c pc { latches := L' }
      | (.error e, (w', L')) => Kept w w' ∧ ∃ t, w'.trace.length = w.trace.length + t ∧ w'.lock = w.lock ∧
            runTurns i c t (w.setClient c { phase := .busy pc st, latches := L }) =
              .next (w'.raise (routineOf i) c pc { latches := L' } e) := by
  intro left
  induction left with
  | zero => intro n st w L z _ _ _ _ _ h; omega
  | succ left ih =>
    intro n st w L z hl hst hsum hn hlq _
    have hany : ∀ f, Holds i z' { L0 with poll := f } := fun f =>
      ⟨hL0.op, hL0.a0, hL0.a1, hL0.a2, hL0.a3, hL0.counters⟩
    have hframe : ∀ f, Frame [] L { L0 with poll := f } := by
      intro f l _
      rw [← hlq, ← Latches.read_starting L m.starts l]; cases l <;> rfl
    have hadv : (w.setClient c { phase := .busy pc st, latches := L }).advance (routineOf i) c =
        (w.setClient c { phase := .busy pc st, latches := L }).pollStep (routineOf i) m.after c pc
          { phase := .busy pc st, latches := L.starting m.starts } st done := by
      have hm' : ((routineOf i).seq (w.setClient c { phase := .busy pc st, latches := L }).cfg)[pc]? = some m := by
        show (seqOf w.cfg i)[pc]? = some m
        rw [hl.cfg]; exact hm
      rw [← hact _ { phase := .busy pc st, latches := L }]
      unfold State.advance
      rw [State.client?_setClient_self w _ hl.here]
      cases st with
      | abort e => exact absurd rfl (hst e)
      | start => simp only [hm']
      | again => simp only [hm']
    have hone := fun o ho => runTurns_one (o := o)
      (show (w.setClient c { phase := .busy pc st, latches := L }).now = .run c from hl.now) (hadv.trans ho)
    have hans : (w.setClient c { phase := .busy pc st, latches := L }).answer .command = w.answer .command := rfl
    have hin : (w.setClient c { phase := .busy pc st, latches := L }).portIn c .command =
        (w.portIn c .command).setClient c { phase := .busy pc st, latches := L } := rfl
    have hpoll : (w.setClient c { phase := .busy pc st, latches := L }).pollStep (routineOf i) m.after c pc
          { phase := .busy pc st, latches := L.starting m.starts } st done =
        if done (w.answer .command) then
          (w.portIn c .command).settle (routineOf i) m.after c pc { latches := { L0 with poll := some n } }
        else if n + 1 = k.maxPoll then
          .next ((w.portIn c .command).raise (routineOf i) c pc { latches := { L0 with poll := some (n + 1) } } .timeout)
        else .next ((w.portIn c .command).setClient c
          { phase := .busy pc .again, latches := { L0 with poll := some (n + 1) } }) := by
      unfold State.pollStep
      simp only [hn, attempt, hans, hin, hlq, State.setClient_setClient, State.setClient_cfg, hl.cfg,
        settle_setClient, raise_setClient]
      rw [settle_phase, raise_phase]
    have hp : Pseudo.waitLoop c done (left + 1) (w, { L0 with poll := some n }) =
        if done (w.answer .command) then (.ok (), (w.portIn c .command, { L0 with poll := some n }))
        else Pseudo.waitLoop c done left (w.portIn c .command, { L0 with poll := some (n + 1) }) := by
      rw [Pseudo.waitLoop, Pseudo.bind_run]
      simp only [Pseudo.portIn]
      by_cases hd : done (w.answer .command)
      · simp only [hd, if_true]; rfl
      · simp only [hd]; rfl
    rw [hp]
    have hk1 : Kept w (w.portIn c .command) := ⟨rfl, rfl, rfl, rfl⟩
    by_cases hd : done (w.answer .command)
    · simp only [hd, if_true] at hpoll ⊢
      exact ⟨hk1, rfl, hany _, hframe _, 1, by simp, hone _ hpoll⟩
    · simp only [hd] at hpoll ⊢
      by_cases hlast : n + 1 = k.maxPoll
      · have h0 : left = 0 := by omega
        subst h0
        simp only [hlast, if_true] at hpoll
        simp only [Pseudo.waitLoop, Pseudo.raise]
        exact ⟨hk1, 1, by simp, rfl, by rw [hlast]; exact hone _ hpoll⟩
      · simp only [hlast, if_false] at hpoll
        have hl' : Live k i c z' (w.portIn c .command) { L0 with poll := some (n + 1) } := hl.kept hk1 (hany _)
        have := ih (n + 1) .again (w.portIn c .command) { L0 with poll := some (n + 1) } z' hl' (by simp) (by omega)
          (by rw [if_pos rfl, Latches.count, Latches.readCounter_starting]; simp [Latches.readCounter]) (hset _) (by omega)
        have hfirst := hone _ hpoll
        simp only [Bool.false_eq_true, if_false] at hfirst ⊢
        rcases hpw : Pseudo.waitLoop c done left (w.portIn c .command, { L0 with poll := some (n + 1) }) with ⟨r, w', L'⟩
        rw [hpw] at this
        cases r with
        | ok a =>
          obtain ⟨hk2, h2, h3, h4, t, ht, hrun⟩ := this
          refine ⟨hk1.trans hk2, h2, h3, ?_, 1 + t, ?_, runTurns_trans hfirst hrun⟩
          · simpa using (hframe (some (n + 1))).trans h4
          · rw [ht]; simp; omega
        | error e =>
          obtain ⟨hk2, t, ht, h2, hrun⟩ := this
          refine ⟨hk1.trans hk2, 1 + t, ?_, h2, runTurns_trans hfirst hrun⟩
          rw [ht]; simp; omega

theorem sim_waiting {k : Config} {i : Instr} {c : Nat} {z z' : Option (Option Nat × Option Nat)} {lk : Lock} {m : Micro}
    {done : Byte → Bool} (hk : 0 < k.maxPoll)
    (hact : ∀ (s : State) (pc : Nat) (q : Sequencer) (st : Stage),
      s.perform (routineOf i) m c pc q st =
        s.pollStep (routineOf i) m.after c pc { q with latches := q.latches.starting m.starts } st done)
    (hw : m.writes = []) (hz : ∀ L, Holds i z L → Holds i z' (L.starting m.starts)) :
    Sim k i c z z' lk [m] m.after (do
      Pseudo.begin m.starts
      Pseudo.assign fun L => { L with poll := some 0 }
      Pseudo.waitLoop c done k.maxPoll) := by
  intro w L pc hl hh hpre
  have hm := prefix_head hpre
  have := wait_run hm (fun s q st => hact s pc q st) (hz L hl.holds) (Latches.starting_starting L m.starts) k.maxPoll 0
    .start w L z hl (by simp) rfl rfl (fun _ => rfl) hk
  simp only [Pseudo.bind_run, Pseudo.begin, Pseudo.assign]
  rcases hpw : Pseudo.waitLoop c done k.maxPoll (w, { L.starting m.starts with poll := some 0 }) with ⟨r, w', L'⟩
  rw [hpw] at this
  cases r with
  | ok a =>
    obtain ⟨h1, h2, h3, h4, t, ht, hrun⟩ := this
    exact ⟨h1, h2.trans hh, h3, trivial, by simpa [writesOf, hw] using h4, t, ht, hrun⟩
  | error e =>
    obtain ⟨h1, t, ht, h2, hrun⟩ := this
    exact ⟨h1, t, pc, ht, h2.trans hh, hrun⟩

end Sys2Proof.Machine
end

