-- ==== Sys2Proof/Laws/Composite.lean ====
section
/-!
SUPPORT. `Sim` for the composites that every family uses: the handshake parts, the two RAM composites, the
register-family accessors, and taking and releasing the lock around a body.
-/
namespace Sys2Proof.Machine

variable {k : Config} {i : Instr} {c : Nat} {z z' : Option (Option Nat × Option Nat)} {lk : Lock}

/-! ## The handshake (R78, R79, R83) -/

theorem sim_waitIbf (hk : 0 < k.maxPoll) : Sim k i c z z lk [{ act := .waitIbf }] .proceed (Pseudo.waitIBF k c) :=
  sim_waiting (m := { act := .waitIbf }) hk (fun _ _ _ _ => rfl) rfl fun _ h => h

theorem sim_waitObf (hk : 0 < k.maxPoll) : Sim k i c z z lk [{ act := .waitObf }] .proceed (Pseudo.waitOBF k c) :=
  sim_waiting (m := { act := .waitObf }) hk (fun _ _ _ _ => rfl) rfl fun _ h => h

/-- A command byte whose status read starts a counter. -/
theorem sim_sendCommand_begin (hk : 0 < k.maxPoll) (b : Byte) {x : Option Counter}
    (hz : ∀ L, Holds i z L → Holds i z' (L.starting x)) :
    Sim k i c z z' lk (sendCommand b x) .proceed
      (do Pseudo.begin x; Pseudo.waitIBF k c; Pseudo.portOut c .command b) := by
  have := sim_then (ms := [{ act := .waitIbf, starts := x }]) (by simp) (by simp)
    (sim_waiting (i := i) (c := c) (lk := lk) (done := ibfClear) (m := { act := .waitIbf, starts := x }) hk
      (fun _ _ _ _ => rfl) rfl hz)
    fun _ => sim_command b
  simpa only [Pseudo.bind_assoc', Pseudo.waitIBF, sendCommand, List.cons_append, List.nil_append] using this

theorem sim_sendCommand (hk : 0 < k.maxPoll) (b : Byte) :
    Sim k i c z z lk (sendCommand b) .proceed (do Pseudo.waitIBF k c; Pseudo.portOut c .command b) :=
  sim_sendCommand_begin (x := none) hk b fun _ h => h

theorem sim_sendArgument (hk : 0 < k.maxPoll) {src : Source} {b : Byte}
    (hb : ∀ L, Holds i z L → src.byte L = .ok b) :
    Sim k i c z z lk (sendArgument src) .proceed (do Pseudo.waitIBF k c; Pseudo.portOut c .data b) :=
  sim_then (ms := [{ act := .waitIbf }]) (by simp) (by simp) (sim_waitIbf hk) fun _ => sim_argument hb

theorem sim_receive (hk : 0 < k.maxPoll) {ls : List Latch} {after : After} (hls : ∀ l ∈ ls, l ∉ requestLatches) :
    Sim k i c z z lk (receive ls after) after (do Pseudo.waitOBF k c; Pseudo.receive c ls)
      (fun b L => ∀ l ∈ ls, L.read l = some b) :=
  sim_then (ms := [{ act := .waitObf }]) (by simp) (by simp) (sim_waitObf hk) fun _ => sim_response hls

/-- The bytes of the descriptor's operands. -/
theorem holds_a0 {b : Byte} (h : i.operands.1 = b) (L : Latches) (hL : Holds i z L) :
    (Source.latch .a0).byte L = .ok b := by
  simp [Source.byte, Latches.need, Latches.read, hL.a0, h]

theorem holds_a1 {b : Byte} (h : i.operands.2.1 = b) (L : Latches) (hL : Holds i z L) :
    (Source.latch .a1).byte L = .ok b := by
  simp [Source.byte, Latches.need, Latches.read, hL.a1, h]

theorem holds_a2 {b : Byte} (h : i.operands.2.2.1 = b) (L : Latches) (hL : Holds i z L) :
    (Source.latch .a2).byte L = .ok b := by
  simp [Source.byte, Latches.need, Latches.read, hL.a2, h]

theorem holds_a3 {b : Byte} (h : i.operands.2.2.2 = b) (L : Latches) (hL : Holds i z L) :
    (Source.latch .a3).byte L = .ok b := by
  simp [Source.byte, Latches.need, Latches.read, hL.a3, h]

/-! ## The RAM composites (R87, R88) -/

/-- `MemRead` that latches the byte in `ls` too. -/
def Pseudo.memReadTo (k : Config) (c : Nat) (addr : Byte) (ls : List Latch) : Pseudo.Code Byte := do
  Pseudo.waitIBF k c
  Pseudo.portOut c .command k.opRamRead
  Pseudo.waitIBF k c
  Pseudo.portOut c .data addr
  Pseudo.waitOBF k c
  Pseudo.receive c (.v :: ls)

theorem Pseudo.memRead_eq (k : Config) (c : Nat) (addr : Byte) :
    Pseudo.memRead k c addr = Pseudo.memReadTo k c addr [] := rfl

theorem Pseudo.memReadTo_eq (k : Config) (c : Nat) (addr : Byte) (l : Latch) :
    Pseudo.memReadTo k c addr [l] =
      (do let b ← Pseudo.memRead k c addr; Pseudo.assign (fun L => L.write b l); pure b) := by
  simp only [Pseudo.memReadTo, Pseudo.memRead, Pseudo.receive, Pseudo.bind_assoc', Pseudo.pure_bind']
  rfl

theorem sim_memReadTo (hk : 0 < k.maxPoll) {src : Source} {addr : Byte} {ls : List Latch} {after : After}
    {x : Option Counter} (hz : ∀ L, Holds i z L → Holds i z' (L.starting x))
    (hb : ∀ L, Holds i z' L → src.byte L = .ok addr) (hls : ∀ l ∈ ls, l ∉ requestLatches) :
    Sim k i c z z' lk (memRead k src ls after x) after (do Pseudo.begin x; Pseudo.memReadTo k c addr ls)
      (fun b L => ∀ l ∈ Latch.v :: ls, L.read l = some b) := by
  have := sim_then (by simp [sendCommand]) (by simp [receive])
    (sim_then (by simp [sendCommand]) (by simp [sendArgument])
      (sim_sendCommand_begin (i := i) (c := c) (lk := lk) hk k.opRamRead hz)
      fun _ => sim_sendArgument hk hb)
    fun _ => sim_receive (ls := .v :: ls) (after := after) hk (by simpa [requestLatches] using hls)
  simpa only [Pseudo.bind_assoc', memRead, Pseudo.memReadTo] using this

theorem sim_memRead (hk : 0 < k.maxPoll) {src : Source} {addr : Byte} (hb : ∀ L, Holds i z L → src.byte L = .ok addr) :
    Sim k i c z z lk (memRead k src) .proceed (Pseudo.memRead k c addr) (fun b L => L.read .v = some b) :=
  sim_post (sim_memReadTo (x := none) hk (fun _ h => h) hb (by simp)) fun _ _ _ h => h .v (by simp)

theorem sim_memWrite (hk : 0 < k.maxPoll) {src vsrc : Source} {addr val : Byte}
    (hb : ∀ L, Holds i z L → src.byte L = .ok addr) (hv : ∀ L, Holds i z L → vsrc.byte L = .ok val) :
    Sim k i c z z lk (memWrite k src vsrc) .proceed (Pseudo.memWrite k c addr val) := by
  have := sim_then (by simp [sendCommand]) (by simp [sendArgument])
    (sim_then (by simp [sendCommand]) (by simp [sendArgument])
      (sim_sendCommand (i := i) (c := c) (z := z) (lk := lk) hk k.opRamWrite)
      fun _ => sim_sendArgument hk hb)
    fun _ => sim_sendArgument hk hv
  simpa only [Pseudo.bind_assoc', memWrite, Pseudo.memWrite] using this

/-! ## The lock around a body (R62, R93) -/

/-- Take the lock, run, release. -/
theorem sim_locked {α : Type} {ms : List Micro} {after : After} {p : Pseudo.Code α} {post : α → Latches → Prop}
    (hne : ms ≠ []) (hp : Sim k i c z z' (.held c) ms .proceed p post) :
    Sim k i c z z' .free ({ act := .acquire } :: (ms ++ [{ act := .release, after := after }])) after
      (Pseudo.locked c p) post := by
  intro w L pc hl hh hpre
  have hm := prefix_head hpre
  obtain ⟨_, h2⟩ := prefix_split (a := [{ act := .acquire }]) hpre
  obtain ⟨h3, h4⟩ := prefix_split h2
  simp only [List.length_singleton] at h3 h4
  have hpos : 0 < ms.length := List.length_pos_iff.mpr hne
  have hlt1 := prefix_lt h3 hne
  have hlt2 := prefix_lt h4 (by simp)
  have hacq : runTurns i c 1 (w.seat c pc L) = .next ((w.acquire c).seat c (pc + 1) L) := by
    refine runTurns_one (show (w.seat c pc L).now = _ from hl.now) ((advance_seat hl hm).trans ?_)
    have hfree : (w.seat c pc L).lock = .free := hh
    simp only [State.perform, hfree, if_true]
    rw [show (w.seat c pc L).acquire c = (w.acquire c).seat c pc L from rfl, settle_seat, State.settle, goto_lt]
    show _ < (seqOf w.cfg i).length
    rw [hl.cfg]; exact hlt1
  have hk1 : Kept w (w.acquire c) := ⟨rfl, rfl, rfl, rfl⟩
  have := hp (w.acquire c) L (pc + 1) (hl.kept hk1 hl.holds) rfl h3
  simp only [Pseudo.locked]
  rcases hpw : p (w.acquire c, L) with ⟨r, w', L'⟩
  rw [hpw] at this
  cases r with
  | ok a =>
    obtain ⟨hk2, hh2, hL2, hp2, hf2, n, ht, hrun⟩ := this
    have hk3 : Kept w' (w'.release c) := ⟨rfl, rfl, rfl, rfl⟩
    have hl2 := hl.kept (hk1.trans hk2) hL2
    have hrun' : runTurns i c n ((w.acquire c).seat c (pc + 1) L) = .next (w'.seat c (pc + 1 + ms.length) L') := by
      rw [hrun]
      simp only [State.settle]
      rw [goto_lt]
      · rw [show pc + 1 + ms.length - 1 + 1 = pc + 1 + ms.length by omega]
      · show _ < (seqOf w'.cfg i).length
        rw [hl2.cfg]; omega
    have hrel : runTurns i c 1 (w'.seat c (pc + 1 + ms.length) L') =
        (w'.release c).settle (routineOf i) after c (pc + 1 + ms.length) { latches := L' } := by
      refine runTurns_one (show (w'.seat c _ L').now = _ from hl2.now) ((advance_seat hl2 (prefix_head h4)).trans ?_)
      have hheld : (w'.seat c (pc + 1 + ms.length) L').lock = .held c := hh2
      simp only [State.perform, hheld, if_true]
      rw [show (w'.seat c (pc + 1 + ms.length) L').release c = (w'.release c).seat c (pc + 1 + ms.length) L' from rfl,
        settle_seat]
    refine ⟨(hk1.trans hk2).trans hk3, rfl, hL2, hp2, ?_, 1 + n + 1, ?_, ?_⟩
    · simpa [writesOf, Micro.writes] using hf2
    · simp only [State.release_trace, List.length_append, List.length_singleton, ht, State.acquire_trace]; omega
    · have h6 := runTurns_trans (runTurns_trans hacq hrun') hrel
      rw [h6]
      congr 1
      simp; omega
  | error e =>
    obtain ⟨hk2, n, pc', ht, hh2, hrun⟩ := this
    have hl2 : w'.now = .run c := (hk1.trans hk2).now.trans hl.now
    have hhere : c < w'.clients.length := by rw [(hk1.trans hk2).clients]; exact hl.here
    have hrun' : runTurns i c n ((w.acquire c).seat c (pc + 1) L) =
        .next (w'.setClient c { phase := .busy pc' (.abort e), latches := L' }) := by
      rw [hrun]; simp [State.raise, hh2]
    have hrel : runTurns i c 1 (w'.setClient c { phase := .busy pc' (.abort e), latches := L' }) =
        .next ((w'.release c).complete (routineOf i) c { latches := L' } e) := by
      refine runTurns_one hl2 ?_
      have hheld : (w'.setClient c { phase := .busy pc' (.abort e), latches := L' }).lock = .held c := hh2
      simp only [State.advance, State.client?_setClient_self w' _ hhere, State.abortStep, hheld, if_true]
      rw [show (w'.setClient c { phase := .busy pc' (.abort e), latches := L' }).release c =
        (w'.release c).setClient c { phase := .busy pc' (.abort e), latches := L' } from rfl, complete_setClient]
      simp [State.complete]
    refine ⟨(hk1.trans hk2).trans ⟨rfl, rfl, rfl, rfl⟩, 1 + n + 1, pc', ?_, rfl, ?_⟩
    · simp only [State.release_trace, List.length_append, List.length_singleton, ht, State.acquire_trace]; omega
    · rw [runTurns_trans (runTurns_trans hacq hrun') hrel]
      simp [State.raise]

/-! ## Validation and the register families (R92, R95) -/

theorem sim_checked (hk : 0 < k.maxPoll) {after : After} {e : Response} {also : List Latch}
    (ha : after = .checkTarget ∧ e = .invalidTarget ∨ after = .checkTable ∧ e = .invalidTable)
    (hals : ∀ l ∈ also, l ∉ requestLatches) :
    Sim k i c z z lk (receive (.chk :: also) after) .proceed (do
      Pseudo.waitOBF k c
      let chk ← Pseudo.portIn c .data
      Pseudo.assign fun L => L.writeAll chk (.chk :: also)
      if isSentinel chk then Pseudo.raise e else pure ()) := by
  have h := sim_absorb (post' := fun _ _ => True) (z'' := z) (fun chk => if isSentinel chk then Pseudo.raise e else pure ())
    (sim_receive (i := i) (c := c) (z := z) (lk := lk) (ls := .chk :: also) (after := after) hk
      (by simpa [requestLatches] using hals)) (by
      intro a w L pc hl hh hp
      have hchk : L.need .chk = .ok a := by simp [Latches.need, hp .chk (by simp)]
      by_cases hs : isSentinel a
      · simp only [hs, if_true, Pseudo.raise]
        rcases ha with ⟨h1, h2⟩ | ⟨h1, h2⟩ <;> subst h1 h2 <;>
          exact ⟨Kept.refl w, hh, trivial, by simp [State.settle, hchk, attempt, hs]⟩
      · simp only [hs]
        rcases ha with ⟨h1, h2⟩ | ⟨h1, h2⟩ <;> subst h1 h2 <;>
          exact ⟨Kept.refl w, hh, hl.holds, trivial, Frame.refl _ _, rfl,
            by simp [State.settle, hchk, attempt, hs]⟩)
  simp only [Pseudo.receive, Pseudo.bind_assoc', Pseudo.pure_bind'] at h
  exact h

theorem sim_familyRead (hk : 0 < k.maxPoll) (opc tgt : Byte) (validate : Bool) (ht : i.operands.1 = tgt) :
    Sim k i c z z lk (familyRead opc validate) .proceed (Pseudo.familyRead k c opc tgt validate)
      (fun b L => L.read .v = some b) := by
  have h1 := sim_then (by simp [sendCommand]) (by simp [sendArgument])
    (sim_sendCommand (i := i) (c := c) (z := z) (lk := lk) hk opc)
    fun _ => sim_sendArgument hk (holds_a0 ht)
  have hr : Sim k i c z z lk (receive [.v]) .proceed (do Pseudo.waitOBF k c; Pseudo.receive c [.v])
      (fun b L => L.read .v = some b) :=
    sim_post (sim_receive (ls := [.v]) (after := .proceed) hk (by simp [requestLatches])) fun _ _ _ h => h .v (by simp)
  cases validate with
  | false =>
    have := sim_then (by simp [sendCommand]) (by simp [receive]) h1 fun _ => hr
    simp only [Pseudo.bind_assoc', familyRead, validation, Pseudo.familyRead, Pseudo.validation, Pseudo.receive,
      Bool.false_eq_true, if_false, List.append_nil, Pseudo.pure_bind'] at this ⊢
    exact this
  | true =>
    have h2 := sim_then (by simp [sendCommand]) (by simp [receive]) h1 fun _ => sim_checked (also := [.v]) hk (Or.inl ⟨rfl, rfl⟩)
      (by simp [requestLatches])
    have := sim_then (by simp [sendCommand]) (by simp [receive]) h2 fun _ => hr
    simp only [Pseudo.bind_assoc', familyRead, validation, Pseudo.familyRead, Pseudo.validation, Pseudo.receive,
      if_true] at this ⊢
    exact this

theorem sim_familyWrite (hk : 0 < k.maxPoll) (opc tgt val : Byte) (validate : Bool) (ht : i.operands.1 = tgt)
    (hv : i.operands.2.1 = val) :
    Sim k i c z z lk (familyWrite opc validate) .proceed (Pseudo.familyWrite k c opc tgt val validate) := by
  have h1 := sim_then (by simp [sendCommand]) (by simp [sendArgument])
    (sim_sendCommand (i := i) (c := c) (z := z) (lk := lk) hk opc)
    fun _ => sim_sendArgument hk (holds_a0 ht)
  cases validate with
  | false =>
    have := sim_then (by simp [sendCommand]) (by simp [sendArgument]) h1
      fun _ => sim_sendArgument hk (holds_a1 hv)
    simpa only [Pseudo.bind_assoc', familyWrite, validation, Pseudo.familyWrite, Pseudo.validation, Bool.false_eq_true,
      if_false, List.append_nil, Pseudo.pure_bind'] using this
  | true =>
    have h2 := sim_then (by simp [sendCommand]) (by simp [receive]) h1 fun _ => sim_checked (also := []) hk (Or.inl ⟨rfl, rfl⟩)
      (by simp)
    have := sim_then (by simp [sendCommand]) (by simp [sendArgument]) h2
      fun _ => sim_sendArgument hk (holds_a1 hv)
    simp only [Pseudo.bind_assoc', familyWrite, validation, Pseudo.familyWrite, Pseudo.validation, if_true] at this ⊢
    exact this

/-! ## AD_READ (R103) -/

theorem sim_adRead (hk : 0 < k.maxPoll) (index mult : Byte) (ht : i.operands.1 = index) (hm : i.operands.2.1 = mult) :
    Sim k i c z z lk
      (sendCommand k.opAdIndex ++ sendArgument (.latch .a0) ++ validation true [.v]
        ++ sendCommand k.opAdLsb ++ receive [.lsb, .v] ++ sendCommand k.opAdMsb ++ receive [.msb, .v]) .proceed
      (Pseudo.adRead k c index mult)
      (fun v L => ∀ s, adResult s L = .ok v) := by
  have h1 := sim_then (by simp [sendCommand]) (by simp [sendArgument])
    (sim_sendCommand (i := i) (c := c) (z := z) (lk := lk) hk k.opAdIndex)
    fun _ => sim_sendArgument hk (holds_a0 ht)
  have h2 := sim_then (by simp [sendCommand]) (by simp [receive]) h1 fun _ => sim_checked (also := [.v]) hk (Or.inl ⟨rfl, rfl⟩)
    (by simp [requestLatches])
  have h3 := sim_then (by simp [sendCommand]) (by simp [sendCommand]) h2 fun _ => sim_sendCommand hk k.opAdLsb
  have h4 := sim_then (by simp [sendCommand]) (by simp [receive]) h3
    fun _ => sim_receive (ls := [.lsb, .v]) (after := .proceed) hk (by simp [requestLatches])
  have h5 : ∀ lsb, Sim k i c z z lk (sendCommand k.opAdMsb ++ receive [.msb, .v]) .proceed
      (do (do Pseudo.waitIBF k c; Pseudo.portOut c .command k.opAdMsb)
          let msb ← (do Pseudo.waitOBF k c; Pseudo.receive c [.msb, .v])
          pure (adValue msb lsb mult))
      (fun v L => ∃ msb, L.read .msb = some msb ∧ v = adValue msb lsb mult) := by
    intro lsb
    have := sim_map (post' := fun v L => ∃ msb, L.read .msb = some msb ∧ v = adValue msb lsb mult)
      (fun msb => adValue msb lsb mult)
      (sim_then (by simp [sendCommand]) (by simp [receive]) (sim_sendCommand (i := i) (c := c) (z := z) (lk := lk) hk k.opAdMsb)
        fun _ => sim_receive (ls := [.msb, .v]) (after := .proceed) hk (by simp [requestLatches]))
      (fun a L _ h => ⟨a, h .msb (by simp), rfl⟩)
    simpa only [Pseudo.bind_assoc'] using this
  have h6 := sim_bind (z'' := z) (post'' := fun v L => ∃ lsb msb, L.read .lsb = some lsb ∧ L.read .msb = some msb ∧
      v = adValue msb lsb mult) (by simp [sendCommand]) (by simp [sendCommand]) h4 h5
    (fun lsb v L L' hl hf hv => by
      obtain ⟨msb, h1, h2⟩ := hv
      refine ⟨lsb, msb, ?_, h1, h2⟩
      rw [hf .lsb (by simp [writesOf, sendCommand, receive, Micro.writes])]
      exact hl .lsb (by simp))
  have h7 := sim_post (post' := fun v L => ∀ s, adResult s L = .ok v) h6 (fun v L hL h s => by
    obtain ⟨lsb, msb, h1, h2, rfl⟩ := h
    have h3 : L.read .a1 = some mult := by rw [← hm]; exact hL.a1
    simp only [adResult, Latches.need, h1, h2, h3]; rfl)
  simp only [Pseudo.bind_assoc', Pseudo.adRead, Pseudo.receive, Pseudo.validation, validation, if_true, List.append_assoc,
    Pseudo.pure_bind'] at h7 ⊢
  exact h7

end Sys2Proof.Machine
end

