-- ==== Sys2Proof/Laws/Script.lean ====
section
/-!
SUPPORT. What the pseudocode does when the EC gives the answers of a list of moves: the events of those moves,
and no other effect. `Says` covers the success and every wait that may run out.
-/
namespace Sys2Proof.Machine

/-- The lock after a list of moves by client `c`. -/
def lockOf (c : Nat) : Lock → List Move → Lock
  | lk, [] => lk
  | _, .acquire :: ms => lockOf c (.held c) ms
  | _, .release :: ms => lockOf c .free ms
  | lk, .ibf _ :: ms | lk, .obf _ :: ms | lk, .lateIbf _ :: ms | lk, .lateObf _ :: ms => lockOf c lk ms
  | lk, .command _ :: ms | lk, .argument _ :: ms | lk, .response _ :: ms => lockOf c lk ms

theorem lockOf_append (c : Nat) (lk : Lock) (ms ms' : List Move) :
    lockOf c lk (ms ++ ms') = lockOf c (lockOf c lk ms) ms' := by
  induction ms generalizing lk with
  | nil => rfl
  | cons m ms ih => cases m <;> simp only [List.cons_append, lockOf, ih]

/-- The state after a list of moves by client `c`. -/
def State.played (w : State) (c : Nat) (ms : List Move) : State :=
  { w with
    trace := w.trace ++ eventsOf w.cfg c ms
    script := w.script.drop (answersOf ms).length
    reads := w.reads + (answersOf ms).length
    lock := lockOf c w.lock ms }

theorem answersOf_append (ms ms' : List Move) : answersOf (ms ++ ms') = answersOf ms ++ answersOf ms' := by
  simp [answersOf]

theorem eventsOf_append (k : Config) (c : Nat) (ms ms' : List Move) :
    eventsOf k c (ms ++ ms') = eventsOf k c ms ++ eventsOf k c ms' := by
  simp [eventsOf]

theorem State.played_append (w : State) (c : Nat) (ms ms' : List Move) :
    w.played c (ms ++ ms') = (w.played c ms).played c ms' := by
  simp [State.played, answersOf_append, eventsOf_append, lockOf_append, List.drop_drop, Nat.add_assoc]

/-- With the answers of `ms` first in the script, `p` plays `ms` and ends with `r`. -/
def Plays {α : Type} (k : Config) (c : Nat) (p : Pseudo.Code α) (ms : List Move) (r : Except Response α) : Prop :=
  ∀ (w : State) (L : Latches) (rest : List Byte), w.cfg = k → w.script = answersOf ms ++ rest →
    ms.all (Move.ok k) = true → ∃ L', p (w, L) = (r, (w.played c ms, L'))

theorem plays_bind {α β : Type} {k : Config} {c : Nat} {p : Pseudo.Code α} {q : α → Pseudo.Code β}
    {ms ms' : List Move} {a : α} {r : Except Response β} (hp : Plays k c p ms (.ok a)) (hq : Plays k c (q a) ms' r) :
    Plays k c (p >>= q) (ms ++ ms') r := by
  intro w L rest hk hs hok
  rw [List.all_append, Bool.and_eq_true] at hok
  rw [answersOf_append, List.append_assoc] at hs
  obtain ⟨L1, h1⟩ := hp w L _ hk hs hok.1
  obtain ⟨L2, h2⟩ := hq (w.played c ms) L1 rest hk (by simp [State.played, hs]) hok.2
  refine ⟨L2, ?_⟩
  rw [State.played_append, ← h2]
  rw [Pseudo.bind_run, h1]

theorem plays_raise {α β : Type} {k : Config} {c : Nat} {p : Pseudo.Code α} {q : α → Pseudo.Code β} {ms : List Move}
    {e : Response} (hp : Plays k c p ms (.error e)) : Plays k c (p >>= q) ms (.error e) := by
  intro w L rest hk hs hok
  obtain ⟨L1, h1⟩ := hp w L _ hk hs hok
  refine ⟨L1, ?_⟩
  rw [Pseudo.bind_run, h1]

theorem plays_nil {α : Type} {k : Config} {c : Nat} {p : Pseudo.Code α} {r : Except Response α}
    (h : ∀ w L, ∃ L', p (w, L) = (r, (w, L'))) : Plays k c p [] r := by
  intro w L rest _ _ _
  obtain ⟨L', h⟩ := h w L
  exact ⟨L', by rw [h]; simp [State.played, answersOf, eventsOf, lockOf]⟩

theorem plays_assign {k : Config} {c : Nat} (f : Latches → Latches) : Plays k c (Pseudo.assign f) [] (.ok ()) :=
  plays_nil fun _ L => ⟨f L, rfl⟩

theorem plays_pure {α : Type} {k : Config} {c : Nat} (a : α) : Plays k c (pure a : Pseudo.Code α) [] (.ok a) :=
  plays_nil fun _ L => ⟨L, rfl⟩

theorem plays_error {α : Type} {k : Config} {c : Nat} (e : Response) :
    Plays k c (Pseudo.raise e : Pseudo.Code α) [] (.error e) :=
  plays_nil fun _ L => ⟨L, rfl⟩

theorem plays_command {k : Config} {c : Nat} (b : Byte) :
    Plays k c (Pseudo.portOut c .command b) [.command b] (.ok ()) := by
  intro w L rest hk _ _
  subst hk
  exact ⟨L, by
    simp [Pseudo.portOut, State.played, answersOf, eventsOf, Move.answers, Move.events, lockOf, State.portOut,
      State.record, portAddr]⟩

theorem plays_argument {k : Config} {c : Nat} (b : Byte) :
    Plays k c (Pseudo.portOut c .data b) [.argument b] (.ok ()) := by
  intro w L rest hk _ _
  subst hk
  exact ⟨L, by
    simp [Pseudo.portOut, State.played, answersOf, eventsOf, Move.answers, Move.events, lockOf, State.portOut,
      State.record, portAddr]⟩

theorem plays_response {k : Config} {c : Nat} (b : Byte) :
    Plays k c (Pseudo.portIn c .data) [.response b] (.ok b) := by
  intro w L rest hk hs _
  subst hk
  simp [answersOf, Move.answers] at hs
  have ha : w.answer .data = b := by simp [State.answer, hs]
  exact ⟨L, by
    simp [Pseudo.portIn, State.played, answersOf, eventsOf, Move.answers, Move.events, lockOf, State.portIn, portAddr,
      ha, hs]⟩

/-- A wait loop that succeeds. -/
theorem waitLoop_done (c : Nat) (done : Byte → Bool) :
    ∀ (reads : List Byte) (left : Nat) (w : State) (L : Latches) (rest : List Byte), reads.length ≤ left →
      reads.dropLast.all (fun b => !done b) = true → reads.getLast?.any done = true → w.script = reads ++ rest →
      ∃ L', Pseudo.waitLoop c done left (w, L) = (.ok (), ({ w with
        trace := w.trace ++ reads.map (.input c w.cfg.portCmd)
        script := rest
        reads := w.reads + reads.length }, L')) := by
  intro reads
  induction reads with
  | nil => intro left w L rest _ _ h; simp at h
  | cons b bs ih =>
    intro left w L rest hlen hall hlast hs
    cases left with
    | zero => simp at hlen
    | succ left =>
      have ha : w.answer .command = b := by simp [State.answer, hs]
      have hp : Pseudo.waitLoop c done (left + 1) (w, L) =
          if done b then (.ok (), (w.portIn c .command, L))
          else Pseudo.waitLoop c done left (w.portIn c .command, { L with poll := L.poll.map (· + 1) }) := by
        rw [Pseudo.waitLoop, Pseudo.bind_run]
        simp only [Pseudo.portIn, ha]
        by_cases hd : done b
        · simp only [hd, if_true]; rfl
        · simp only [hd]; rfl
      rw [hp]
      cases bs with
      | nil =>
        have hd : done b = true := by simpa using hlast
        refine ⟨L, ?_⟩
        simp only [hd, if_true]
        simp [State.portIn, portAddr, ha, hs]
      | cons b' bs' =>
        have hd : done b = false := by
          simp at hall; exact hall.1
        obtain ⟨L', h⟩ := ih left (w.portIn c .command) { L with poll := L.poll.map (· + 1) } rest (by simpa using hlen)
          (by simp at hall ⊢; exact hall.2) (by simpa using hlast) (by simp [hs])
        refine ⟨L', ?_⟩
        simp only [hd, Bool.false_eq_true, if_false, h]
        simp [State.portIn, portAddr, ha, Nat.add_assoc, Nat.add_comm]

/-- A wait loop that runs out. -/
theorem waitLoop_late (c : Nat) (done : Byte → Bool) :
    ∀ (reads : List Byte) (w : State) (L : Latches) (rest : List Byte),
      reads.all (fun b => !done b) = true → w.script = reads ++ rest →
      ∃ L', Pseudo.waitLoop c done reads.length (w, L) = (.error .timeout, ({ w with
        trace := w.trace ++ reads.map (.input c w.cfg.portCmd)
        script := rest
        reads := w.reads + reads.length }, L')) := by
  intro reads
  induction reads with
  | nil =>
    intro w L rest _ hs
    refine ⟨L, ?_⟩
    simp at hs
    simp [Pseudo.waitLoop, Pseudo.raise, ← hs]
  | cons b bs ih =>
    intro w L rest hall hs
    have ha : w.answer .command = b := by simp [State.answer, hs]
    simp only [List.all_cons, Bool.and_eq_true, Bool.not_eq_true'] at hall
    have hp : Pseudo.waitLoop c done (bs.length + 1) (w, L) =
        Pseudo.waitLoop c done bs.length (w.portIn c .command, { L with poll := L.poll.map (· + 1) }) := by
      rw [Pseudo.waitLoop, Pseudo.bind_run]
      simp only [Pseudo.portIn, ha, hall.1]; rfl
    obtain ⟨L', h⟩ := ih (w.portIn c .command) { L with poll := L.poll.map (· + 1) } rest hall.2 (by simp [hs])
    refine ⟨L', ?_⟩
    rw [List.length_cons, hp, h]
    simp [State.portIn, portAddr, ha, Nat.add_assoc, Nat.add_comm]

theorem plays_wait {k : Config} {c : Nat} {done : Byte → Bool} {reads : List Byte} {m : Move}
    (hm : m.answers = reads) (he : ∀ k c, m.events k c = reads.map (.input c k.portCmd))
    (hl : ∀ c lk, lockOf c lk [m] = lk) (hok : m.ok k = true → waitDone k done reads = true) :
    Plays k c (do Pseudo.assign fun L => { L with poll := some 0 }; Pseudo.waitLoop c done k.maxPoll) [m] (.ok ()) := by
  intro w L rest hk hs h
  subst hk
  simp [answersOf, hm] at hs
  simp only [List.all_cons, List.all_nil, Bool.and_true] at h
  have h := hok h
  simp only [waitDone, Bool.and_eq_true, decide_eq_true_eq] at h
  obtain ⟨L', hw⟩ := waitLoop_done c done reads w.cfg.maxPoll w { L with poll := some 0 } rest h.1.1 h.1.2 h.2 hs
  refine ⟨L', ?_⟩
  show Pseudo.waitLoop c done w.cfg.maxPoll (w, { L with poll := some 0 }) = _
  rw [hw]
  simp [State.played, answersOf, eventsOf, hm, he, hl, hs]

theorem plays_late {k : Config} {c : Nat} {done : Byte → Bool} {reads : List Byte} {m : Move}
    (hm : m.answers = reads) (he : ∀ k c, m.events k c = reads.map (.input c k.portCmd))
    (hl : ∀ c lk, lockOf c lk [m] = lk) (hok : m.ok k = true → waitLate k done reads = true) :
    Plays k c (do Pseudo.assign fun L => { L with poll := some 0 }; Pseudo.waitLoop c done k.maxPoll) [m]
      (.error .timeout) := by
  intro w L rest hk hs h
  subst hk
  simp [answersOf, hm] at hs
  simp only [List.all_cons, List.all_nil, Bool.and_true] at h
  have h := hok h
  simp only [waitLate, Bool.and_eq_true, decide_eq_true_eq] at h
  obtain ⟨L', hw⟩ := waitLoop_late c done reads w { L with poll := some 0 } rest h.2 hs
  refine ⟨L', ?_⟩
  show Pseudo.waitLoop c done w.cfg.maxPoll (w, { L with poll := some 0 }) = _
  rw [← h.1, hw]
  simp [State.played, answersOf, eventsOf, hm, he, hl, hs]

/-- `p` plays `ms` and returns `a`; and where one of the waits of `ms` runs out, it plays `ms` up to there, then
`close`, and raises `Timeout`. -/
def Says {α : Type} (k : Config) (c : Nat) (close : List Move) (p : Pseudo.Code α) (ms : List Move) (a : α) : Prop :=
  Plays k c p ms (.ok a) ∧ ∀ ms', RunsOut ms ms' → Plays k c p (ms' ++ close) (.error .timeout)

theorem runsOut_append {ms₁ ms₂ ms' : List Move} (h : RunsOut (ms₁ ++ ms₂) ms') :
    RunsOut ms₁ ms' ∨ ∃ ms'', ms' = ms₁ ++ ms'' ∧ RunsOut ms₂ ms'' := by
  have key : ∀ (pre post : List Move) (m l : Move), ms₁ ++ ms₂ = pre ++ m :: post → ms' = pre ++ [l] →
      (∃ post', ms₁ = pre ++ m :: post') ∨ ∃ pre', ms' = ms₁ ++ (pre' ++ [l]) ∧ ms₂ = pre' ++ m :: post := by
    intro pre post m l he hl
    rcases List.append_eq_append_iff.mp he with ⟨a, h1, h2⟩ | ⟨a, h1, h2⟩
    · exact Or.inr ⟨a, by rw [hl, h1, List.append_assoc], h2⟩
    · cases a with
      | nil =>
        simp at h1 h2
        exact Or.inr ⟨[], by rw [hl, h1]; rfl, by rw [← h2]; rfl⟩
      | cons x xs =>
        simp at h2
        exact Or.inl ⟨xs, by rw [h1, h2.1]⟩
  obtain ⟨pre, post, reads, late, ⟨h1, h2⟩ | ⟨h1, h2⟩⟩ := h
  · rcases key pre post _ _ h1 h2 with ⟨post', hp⟩ | ⟨pre', hp, hq⟩
    · exact Or.inl ⟨pre, post', reads, late, Or.inl ⟨hp, h2⟩⟩
    · exact Or.inr ⟨_, hp, pre', post, reads, late, Or.inl ⟨hq, rfl⟩⟩
  · rcases key pre post _ _ h1 h2 with ⟨post', hp⟩ | ⟨pre', hp, hq⟩
    · exact Or.inl ⟨pre, post', reads, late, Or.inr ⟨hp, h2⟩⟩
    · exact Or.inr ⟨_, hp, pre', post, reads, late, Or.inr ⟨hq, rfl⟩⟩

theorem runsOut_single {m : Move} {ms' : List Move} (h : RunsOut [m] ms') :
    (∃ reads late, m = .ibf reads ∧ ms' = [.lateIbf late]) ∨ (∃ reads late, m = .obf reads ∧ ms' = [.lateObf late]) := by
  obtain ⟨pre, post, reads, late, ⟨h1, h2⟩ | ⟨h1, h2⟩⟩ := h
  · cases pre with
    | nil => simp at h1; exact Or.inl ⟨reads, late, h1.1, by simpa using h2⟩
    | cons x xs => simp at h1
  · cases pre with
    | nil => simp at h1; exact Or.inr ⟨reads, late, h1.1, by simpa using h2⟩
    | cons x xs => simp at h1

theorem not_runsOut_nil {ms' : List Move} : ¬ RunsOut [] ms' := by
  rintro ⟨pre, post, reads, late, ⟨h1, _⟩ | ⟨h1, _⟩⟩ <;> simp at h1

theorem says_bind {α β : Type} {k : Config} {c : Nat} {close : List Move} {p : Pseudo.Code α} {q : α → Pseudo.Code β}
    {ms ms' : List Move} {a : α} {b : β} (hp : Says k c close p ms a) (hq : Says k c close (q a) ms' b) :
    Says k c close (p >>= q) (ms ++ ms') b := by
  refine ⟨plays_bind hp.1 hq.1, ?_⟩
  intro ms'' h
  rcases runsOut_append h with h1 | ⟨t, rfl, h2⟩
  · exact plays_raise (hp.2 _ h1)
  · rw [List.append_assoc]; exact plays_bind hp.1 (hq.2 _ h2)

/-- A piece that no wait of the EC can stop. -/
theorem says_of_plays {α : Type} {k : Config} {c : Nat} {close : List Move} {p : Pseudo.Code α} {ms : List Move} {a : α}
    (hp : Plays k c p ms (.ok a)) (h : ∀ ms', ¬ RunsOut ms ms') : Says k c close p ms a :=
  ⟨hp, fun ms' hr => absurd hr (h ms')⟩

theorem says_nil {α : Type} {k : Config} {c : Nat} {close : List Move} {p : Pseudo.Code α} {a : α}
    (hp : Plays k c p [] (.ok a)) : Says k c close p [] a :=
  says_of_plays hp fun _ => not_runsOut_nil

theorem says_command {k : Config} {c : Nat} {close : List Move} (b : Byte) :
    Says k c close (Pseudo.portOut c .command b) [.command b] () :=
  says_of_plays (plays_command b) fun ms' h => by rcases runsOut_single h with ⟨_, _, h, _⟩ | ⟨_, _, h, _⟩ <;> cases h

theorem says_argument {k : Config} {c : Nat} {close : List Move} (b : Byte) :
    Says k c close (Pseudo.portOut c .data b) [.argument b] () :=
  says_of_plays (plays_argument b) fun ms' h => by rcases runsOut_single h with ⟨_, _, h, _⟩ | ⟨_, _, h, _⟩ <;> cases h

theorem says_response {k : Config} {c : Nat} {close : List Move} (b : Byte) :
    Says k c close (Pseudo.portIn c .data) [.response b] b :=
  says_of_plays (plays_response b) fun ms' h => by rcases runsOut_single h with ⟨_, _, h, _⟩ | ⟨_, _, h, _⟩ <;> cases h

theorem says_waitIbf {k : Config} {c : Nat} (reads : List Byte) :
    Says k c [] (Pseudo.waitIBF k c) [.ibf reads] () := by
  refine ⟨plays_wait (m := .ibf reads) rfl (fun _ _ => rfl) (fun _ _ => rfl) id, ?_⟩
  intro ms' h
  rcases runsOut_single h with ⟨_, late, _, rfl⟩ | ⟨_, _, h, _⟩
  · exact plays_late (m := .lateIbf late) rfl (fun _ _ => rfl) (fun _ _ => rfl) id
  · cases h

theorem says_waitObf {k : Config} {c : Nat} (reads : List Byte) :
    Says k c [] (Pseudo.waitOBF k c) [.obf reads] () := by
  refine ⟨plays_wait (m := .obf reads) rfl (fun _ _ => rfl) (fun _ _ => rfl) id, ?_⟩
  intro ms' h
  rcases runsOut_single h with ⟨_, _, h, _⟩ | ⟨_, late, _, rfl⟩
  · cases h
  · exact plays_late (m := .lateObf late) rfl (fun _ _ => rfl) (fun _ _ => rfl) id

/-! ## The lock -/

theorem plays_locked {α : Type} {k : Config} {c : Nat} {p : Pseudo.Code α} {ms : List Move} {r : Except Response α}
    (hp : Plays k c p ms r) : Plays k c (Pseudo.locked c p) (.acquire :: (ms ++ [.release])) r := by
  intro w L rest hk hs hok
  have h1 : answersOf (.acquire :: (ms ++ [.release])) = answersOf ms := by
    simp [answersOf, Move.answers]
  rw [h1] at hs
  simp only [List.all_cons, List.all_append, Move.ok, List.all_nil, Bool.true_and, Bool.and_true] at hok
  obtain ⟨L', h⟩ := hp (w.acquire c) L rest hk hs hok
  refine ⟨L', ?_⟩
  simp only [Pseudo.locked, h]
  simp [State.played, State.release, State.acquire, h1, eventsOf, lockOf, lockOf_append, Move.events]

theorem says_locked {α : Type} {k : Config} {c : Nat} {p : Pseudo.Code α} {ms : List Move} {a : α}
    (hp : Says k c [] p ms a) : Says k c [.release] (Pseudo.locked c p) (.acquire :: (ms ++ [.release])) a := by
  refine ⟨plays_locked hp.1, ?_⟩
  intro ms' h
  have hone : ∀ (m : Move) t, (m = .acquire ∨ m = .release) → ¬ RunsOut [m] t := by
    intro m t hm hr
    rcases runsOut_single hr with ⟨_, _, h, _⟩ | ⟨_, _, h, _⟩ <;> rcases hm with hm | hm <;> rw [hm] at h <;> cases h
  rcases runsOut_append (ms₁ := [.acquire]) h with h1 | ⟨t, rfl, h2⟩
  · exact absurd h1 (hone _ _ (Or.inl rfl))
  · rcases runsOut_append h2 with h3 | ⟨u, _, h4⟩
    · have := plays_locked (hp.2 _ h3)
      simpa using this
    · exact absurd h4 (hone _ _ (Or.inr rfl))

end Sys2Proof.Machine
end

