-- ==== Sys2Proof/Laws/Dialogue.lean ====
section
/-!
SUPPORT. `Says` and `Plays` for the pseudocode of every operation: its moves, every wait that may run out, and
the errors that an answer of the EC may decide.
-/
namespace Sys2Proof.Machine

variable {k : Config} {c : Nat}

/-! ## Composites -/

theorem says_then {close : List Move} {β : Type} {p : Pseudo.Code Unit} {q : Pseudo.Code β} {ms ms' : List Move} {b : β}
    (hp : Says k c close p ms ()) (hq : Says k c close q ms' b) : Says k c close (p >>= fun _ => q) (ms ++ ms') b :=
  says_bind (q := fun _ => q) hp hq

theorem plays_then {β : Type} {p : Pseudo.Code Unit} {q : Pseudo.Code β} {ms ms' : List Move} {r : Except Response β}
    (hp : Plays k c p ms (.ok ())) (hq : Plays k c q ms' r) : Plays k c (p >>= fun _ => q) (ms ++ ms') r :=
  plays_bind (q := fun _ => q) hp hq

theorem says_sendCommand (reads : List Byte) (b : Byte) :
    Says k c [] (do Pseudo.waitIBF k c; Pseudo.portOut c .command b) [.ibf reads, .command b] () :=
  says_bind (says_waitIbf reads) (says_command b)

theorem says_sendArgument (reads : List Byte) (b : Byte) :
    Says k c [] (do Pseudo.waitIBF k c; Pseudo.portOut c .data b) [.ibf reads, .argument b] () :=
  says_bind (says_waitIbf reads) (says_argument b)

/-- Reading DATA and latching what was read. -/
theorem says_receive (reads : List Byte) (b : Byte) (f : Byte → Latches → Latches) :
    Says k c [] (do Pseudo.waitOBF k c; let b ← Pseudo.portIn c .data; Pseudo.assign (f b); pure b)
      [.obf reads, .response b] b :=
  says_bind (says_waitObf reads) (says_bind (says_response b)
    (says_bind (says_nil (plays_assign (f b))) (says_nil (plays_pure b))))

/-- The same with a check that passes. -/
theorem says_checked (reads : List Byte) (b : Byte) (e : Response) (f : Byte → Latches → Latches)
    (hb : isSentinel b = false) :
    Says k c [] (do
      Pseudo.waitOBF k c
      let chk ← Pseudo.portIn c .data
      Pseudo.assign (f chk)
      if isSentinel chk then Pseudo.raise e else pure ()) [.obf reads, .response b] () :=
  says_bind (says_waitObf reads) (says_bind (says_response b)
    (says_bind (says_nil (plays_assign _)) (by simp only [hb]; exact says_nil (plays_pure ()))))

/-- The same with a check that fails (R95, R118). -/
theorem plays_checked (reads : List Byte) (e : Response) (f : Byte → Latches → Latches) :
    Plays k c (do
      Pseudo.waitOBF k c
      let chk ← Pseudo.portIn c .data
      Pseudo.assign (f chk)
      if isSentinel chk then Pseudo.raise e else pure ()) [.obf reads, .response 0xFF] (.error e) :=
  plays_bind (says_waitObf reads).1 (plays_bind (plays_response 0xFF)
    (plays_bind (plays_assign _) (by
      rw [if_pos (by decide)]
      exact plays_error e)))

theorem says_memRead (addr : Byte) (a : ReadAnswers) :
    Says k c [] (Pseudo.memRead k c addr) (readMoves k addr a) a.value := by
  have := says_then (says_sendCommand (k := k) (c := c) a.first k.opRamRead) (says_then
    (says_sendArgument a.second addr) (says_receive a.third a.value fun b L => { L with v := some b }))
  simp only [Pseudo.bind_assoc'] at this
  exact this

theorem says_memWrite (addr val : Byte) (a : WriteAnswers) :
    Says k c [] (Pseudo.memWrite k c addr val) (writeMoves k addr val a) () := by
  have := says_then (says_sendCommand (k := k) (c := c) a.first k.opRamWrite) (says_then
    (says_sendArgument a.second addr) (says_sendArgument a.third val))
  simp only [Pseudo.bind_assoc'] at this
  exact this

theorem says_zext {close ms : List Move} {p : Pseudo.Code Byte} {b : Byte} (hp : Says k c close p ms b) :
    Says k c close (Pseudo.zext p) ms (byteValue b) := by
  have := says_bind (q := fun b => pure (byteValue b)) hp (says_nil (plays_pure (byteValue b)))
  simp only [List.append_nil] at this
  exact this

theorem says_zero {close ms : List Move} {p : Pseudo.Code Unit} (hp : Says k c close p ms ()) :
    Says k c close (Pseudo.zero p) ms 0 := by
  have := says_then hp (says_nil (plays_pure (0 : Word32)))
  simp only [List.append_nil] at this
  exact this

theorem plays_zext {ms : List Move} {p : Pseudo.Code Byte} {e : Response} (hp : Plays k c p ms (.error e)) :
    Plays k c (Pseudo.zext p) ms (.error e) :=
  plays_raise hp

theorem plays_zero {ms : List Move} {p : Pseudo.Code Unit} {e : Response} (hp : Plays k c p ms (.error e)) :
    Plays k c (Pseudo.zero p) ms (.error e) :=
  plays_raise hp

/-! ## The register families (R92, R95) -/

/-- The validation byte in a read accessor's latches (R31, R92). -/
abbrev keptByRead (b : Byte) (L : Latches) : Latches := { L with chk := some b, v := some b }

/-- The validation byte in a write accessor's latches (R92). -/
abbrev keptByWrite (b : Byte) (L : Latches) : Latches := { L with chk := some b }

theorem says_familyRead (opc tgt : Byte) (w1 w2 w3 : List Byte) (b : Byte) :
    Says k c [] (Pseudo.familyRead k c opc tgt false)
      [.ibf w1, .command opc, .ibf w2, .argument tgt, .obf w3, .response b] b := by
  have := says_then (says_sendCommand (k := k) (c := c) w1 opc) (says_then (says_sendArgument w2 tgt)
    (says_receive w3 b fun b L => { L with v := some b }))
  simp only [Pseudo.bind_assoc', Pseudo.familyRead, Pseudo.validation, Bool.false_eq_true, if_false,
    Pseudo.pure_bind'] at this ⊢
  exact this

theorem says_familyWrite (opc tgt val : Byte) (w1 w2 w3 : List Byte) :
    Says k c [] (Pseudo.familyWrite k c opc tgt val false)
      [.ibf w1, .command opc, .ibf w2, .argument tgt, .ibf w3, .argument val] () := by
  have := says_then (says_sendCommand (k := k) (c := c) w1 opc) (says_then (says_sendArgument w2 tgt)
    (says_sendArgument w3 val))
  simp only [Pseudo.bind_assoc', Pseudo.familyWrite, Pseudo.validation, Bool.false_eq_true, if_false,
    Pseudo.pure_bind'] at this ⊢
  exact this

theorem says_validatedRead (opc tgt : Byte) (w1 w2 w3 w4 : List Byte) (chk b : Byte) (h : isSentinel chk = false) :
    Says k c [] (Pseudo.familyRead k c opc tgt true)
      [.ibf w1, .command opc, .ibf w2, .argument tgt, .obf w3, .response chk, .obf w4, .response b] b := by
  have := says_then (says_sendCommand (k := k) (c := c) w1 opc) (says_then (says_sendArgument w2 tgt)
    (says_then (says_checked w3 chk .invalidTarget keptByRead h)
      (says_receive w4 b fun b L => { L with v := some b })))
  simp only [Pseudo.bind_assoc', Pseudo.familyRead, Pseudo.validation, if_true] at this ⊢
  exact this

theorem plays_invalidRead (opc tgt : Byte) (w1 w2 w3 : List Byte) :
    Plays k c (Pseudo.familyRead k c opc tgt true)
      [.ibf w1, .command opc, .ibf w2, .argument tgt, .obf w3, .response 0xFF] (.error .invalidTarget) := by
  have := plays_then (says_sendCommand (k := k) (c := c) w1 opc).1 (plays_then (says_sendArgument w2 tgt).1
    (plays_raise (q := fun _ => do
      Pseudo.waitOBF k c
      let b ← Pseudo.portIn c .data
      Pseudo.assign fun L => { L with v := some b }
      pure b) (plays_checked w3 .invalidTarget keptByRead)))
  simp only [Pseudo.bind_assoc', Pseudo.familyRead, Pseudo.validation, if_true] at this ⊢
  exact this

theorem says_validatedWrite (opc tgt val : Byte) (w1 w2 w3 w4 : List Byte) (chk : Byte) (h : isSentinel chk = false) :
    Says k c [] (Pseudo.familyWrite k c opc tgt val true)
      [.ibf w1, .command opc, .ibf w2, .argument tgt, .obf w3, .response chk, .ibf w4, .argument val] () := by
  have := says_then (says_sendCommand (k := k) (c := c) w1 opc) (says_then (says_sendArgument w2 tgt)
    (says_then (says_checked w3 chk .invalidTarget keptByWrite h) (says_sendArgument w4 val)))
  simp only [Pseudo.bind_assoc', Pseudo.familyWrite, Pseudo.validation, if_true] at this ⊢
  exact this

theorem plays_invalidWrite (opc tgt val : Byte) (w1 w2 w3 : List Byte) :
    Plays k c (Pseudo.familyWrite k c opc tgt val true)
      [.ibf w1, .command opc, .ibf w2, .argument tgt, .obf w3, .response 0xFF] (.error .invalidTarget) := by
  have := plays_then (says_sendCommand (k := k) (c := c) w1 opc).1 (plays_then (says_sendArgument w2 tgt).1
    (plays_raise (q := fun _ => do
      Pseudo.waitIBF k c
      Pseudo.portOut c .data val) (plays_checked w3 .invalidTarget keptByWrite)))
  simp only [Pseudo.bind_assoc', Pseudo.familyWrite, Pseudo.validation, if_true] at this ⊢
  exact this

/-! ## AD_READ (R103) -/

theorem says_adRead (index mult : Byte) (w1 w2 w3 w4 w5 w6 w7 : List Byte) (chk lsb msb : Byte)
    (h : isSentinel chk = false) :
    Says k c [] (Pseudo.adRead k c index mult)
      [.ibf w1, .command k.opAdIndex, .ibf w2, .argument index, .obf w3, .response chk,
       .ibf w4, .command k.opAdLsb, .obf w5, .response lsb, .ibf w6, .command k.opAdMsb, .obf w7, .response msb]
      (adValue msb lsb mult) := by
  have := says_then (says_sendCommand (k := k) (c := c) w1 k.opAdIndex) (says_then (says_sendArgument w2 index)
    (says_then (says_checked w3 chk .invalidTarget keptByRead h) (says_then (says_sendCommand w4 k.opAdLsb)
      (says_bind (q := fun lsb => do
          Pseudo.waitIBF k c
          Pseudo.portOut c .command k.opAdMsb
          Pseudo.waitOBF k c
          let msb ← Pseudo.portIn c .data
          Pseudo.assign fun L => { L with msb := some msb, v := some msb }
          pure (adValue msb lsb mult))
        (says_receive w5 lsb fun b L => { L with lsb := some b, v := some b })
        (by
          have := says_then (q := do
              let msb ← (do Pseudo.waitOBF k c; let b ← Pseudo.portIn c .data; Pseudo.assign fun L => { L with msb := some b, v := some b }; pure b)
              pure (adValue msb lsb mult)) (says_sendCommand (k := k) (c := c) w6 k.opAdMsb)
            (says_bind (says_receive w7 msb fun b L => { L with msb := some b, v := some b })
              (says_nil (plays_pure (adValue msb lsb mult))))
          simp only [Pseudo.bind_assoc', Pseudo.pure_bind'] at this
          exact this)))))
  simp only [Pseudo.bind_assoc', Pseudo.adRead, Pseudo.validation, if_true, Pseudo.pure_bind'] at this ⊢
  exact this

theorem plays_invalidAd (index mult : Byte) (w1 w2 w3 : List Byte) :
    Plays k c (Pseudo.adRead k c index mult)
      [.ibf w1, .command k.opAdIndex, .ibf w2, .argument index, .obf w3, .response 0xFF] (.error .invalidTarget) := by
  have := plays_then (says_sendCommand (k := k) (c := c) w1 k.opAdIndex).1 (plays_then (says_sendArgument w2 index).1
    (plays_raise (q := fun _ => do
      Pseudo.waitIBF k c
      Pseudo.portOut c .command k.opAdLsb
      Pseudo.waitOBF k c
      let lsb ← Pseudo.portIn c .data
      Pseudo.assign fun L => { L with lsb := some lsb, v := some lsb }
      Pseudo.waitIBF k c
      Pseudo.portOut c .command k.opAdMsb
      Pseudo.waitOBF k c
      let msb ← Pseudo.portIn c .data
      Pseudo.assign fun L => { L with msb := some msb, v := some msb }
      pure (adValue msb lsb mult)) (plays_checked w3 .invalidTarget keptByRead)))
  simp only [Pseudo.bind_assoc', Pseudo.adRead, Pseudo.validation, if_true] at this ⊢
  exact this

/-! ## The SMBus transaction (R108 to R115) -/

/-- What a wait that runs out leaves to do: nothing under `PerStep` beyond the step's own `Release()`, which
`Says` counts as its closing moves; and the same one `Release()` under `WholeTransaction`. -/
def stepClose (k : Config) : List Move :=
  match k.smbusLockScope with
  | .perStep => [.release]
  | .wholeTransaction => []

theorem says_ramR (addr : Byte) (a : ReadAnswers) :
    Says k c (stepClose k) (Pseudo.ramR k c addr) (stepMoves k (readMoves k addr a)) a.value := by
  have h := says_memRead (k := k) (c := c) addr a
  unfold stepClose Pseudo.ramR stepMoves
  cases k.smbusLockScope with
  | perStep => exact says_locked h
  | wholeTransaction => exact h

theorem says_ramW (addr val : Byte) (a : WriteAnswers) :
    Says k c (stepClose k) (Pseudo.ramW k c addr val) (stepMoves k (writeMoves k addr val a)) () := by
  have h := says_memWrite (k := k) (c := c) addr val a
  unfold stepClose Pseudo.ramW stepMoves
  cases k.smbusLockScope with
  | perStep => exact says_locked h
  | wholeTransaction => exact h

/-- The idle poll with `left` reads left that ends in time. -/
theorem says_idlePoll (idle : ReadAnswers) (hi : engineIdle idle.value = true) :
    ∀ (busy : List ReadAnswers) (left : Nat), busy.all (fun r => !engineIdle r.value) = true → busy.length < left →
      Says k c (stepClose k) (Pseudo.idlePoll k c left) (pollMoves k (busy ++ [idle])) () := by
  intro busy
  induction busy with
  | nil =>
    intro left _ hlen
    obtain ⟨left, rfl⟩ := Nat.exists_eq_add_of_lt hlen
    have := says_bind (q := fun pr => do
        Pseudo.assign fun L => { L with pr := some pr }
        if engineIdle pr then pure ()
        else
          Pseudo.assign fun L => { L with spoll := L.spoll.map (· + 1) }
          Pseudo.idlePoll k c left)
      (says_ramR (k := k) (c := c) k.smbusProtocol idle)
      (says_bind (says_nil (plays_assign _)) (by rw [if_pos hi]; exact says_nil (plays_pure ())))
    simp only [List.length_nil, Nat.zero_add, Pseudo.idlePoll, pollMoves, List.nil_append, List.flatMap_cons,
      List.flatMap_nil] at this ⊢
    exact this
  | cons a as ih =>
    intro left hall hlen
    simp only [List.all_cons, Bool.and_eq_true, Bool.not_eq_true'] at hall
    cases left with
    | zero => simp at hlen
    | succ left =>
      have := says_bind (q := fun pr => do
          Pseudo.assign fun L => { L with pr := some pr }
          if engineIdle pr then pure ()
          else
            Pseudo.assign fun L => { L with spoll := L.spoll.map (· + 1) }
            Pseudo.idlePoll k c left)
        (says_ramR (k := k) (c := c) k.smbusProtocol a)
        (says_bind (says_nil (plays_assign _)) (by
          simp only [hall.1]
          exact says_bind (says_nil (plays_assign _)) (ih left hall.2 (by simpa using hlen))))
      simp only [Pseudo.idlePoll, pollMoves, List.cons_append, List.flatMap_cons] at this ⊢
      exact this

/-- The idle poll that never finds the engine idle (R110). -/
theorem plays_idlePoll :
    ∀ (busy : List ReadAnswers), busy.all (fun r => !engineIdle r.value) = true →
      Plays k c (Pseudo.idlePoll k c busy.length) (pollMoves k busy) (.error .timeout) := by
  intro busy
  induction busy with
  | nil => intro _; exact plays_error .timeout
  | cons a as ih =>
    intro hall
    simp only [List.all_cons, Bool.and_eq_true, Bool.not_eq_true'] at hall
    have := plays_bind (q := fun pr => do
        Pseudo.assign fun L => { L with pr := some pr }
        if engineIdle pr then pure ()
        else
          Pseudo.assign fun L => { L with spoll := L.spoll.map (· + 1) }
          Pseudo.idlePoll k c as.length)
      (says_ramR (k := k) (c := c) k.smbusProtocol a).1
      (plays_bind (plays_assign _) (by
        simp only [hall.1]
        exact plays_bind (plays_assign _) (ih hall.2)))
    simp only [List.length_cons, Pseudo.idlePoll, pollMoves, List.flatMap_cons] at this ⊢
    exact this

/-- Steps 1 to 5 and the start of the poll. -/
def Pseudo.smbArm (k : Config) (c : Nat) (kind : SmbKind) (ch slv reg data : Byte) : Pseudo.Code Unit := do
  Pseudo.ramW k c k.smbusChannel ch
  Pseudo.ramW k c k.smbusSlvAddr slv
  Pseudo.ramW k c k.smbusCmd reg
  if kind = .byteWrite then Pseudo.ramW k c k.smbusData data else pure ()
  Pseudo.ramW k c k.smbusProtocol (smbMode k kind)
  Pseudo.assign fun L => { L with spoll := some 0 }

theorem says_smbArm (kind : SmbKind) (ch slv reg data : Byte) (a : HeadAnswers) :
    Says k c (stepClose k) (Pseudo.smbArm k c kind ch slv reg data) (armMoves k kind ch slv reg data a) () := by
  have hd : Says k c (stepClose k) (if kind = .byteWrite then Pseudo.ramW k c k.smbusData data else pure ())
      (if kind = .byteWrite then stepMoves k (writeMoves k k.smbusData data a.data) else []) () := by
    split
    · exact says_ramW _ _ _
    · exact says_nil (plays_pure ())
  have := says_then (says_ramW (k := k) (c := c) k.smbusChannel ch a.channel)
    (says_then (says_ramW k.smbusSlvAddr slv a.slave) (says_then (says_ramW k.smbusCmd reg a.command)
      (says_then hd (says_then (says_ramW k.smbusProtocol (smbMode k kind) a.protocol)
        (says_nil (plays_assign fun L => { L with spoll := some 0 }))))))
  simp only [List.append_nil] at this
  simp only [armMoves, List.append_assoc, Pseudo.smbArm]
  cases kind <;> exact this

/-- The status check (R111). -/
def Pseudo.smbStatus (k : Config) (c : Nat) : Pseudo.Code Unit := do
  let st ← Pseudo.ramR k c k.smbusStatus
  Pseudo.assign fun L => { L with st := some st }
  if smbusSuccess st then pure () else Pseudo.raise (.smbusError st)

theorem says_smbStatus (a : ReadAnswers) (h : smbusSuccess a.value = true) :
    Says k c (stepClose k) (Pseudo.smbStatus k c) (stepMoves k (readMoves k k.smbusStatus a)) () := by
  have := says_bind (q := fun st => do
      Pseudo.assign fun L => { L with st := some st }
      if smbusSuccess st then pure () else Pseudo.raise (.smbusError st))
    (says_ramR (k := k) (c := c) k.smbusStatus a)
    (says_bind (says_nil (plays_assign _)) (by rw [if_pos h]; exact says_nil (plays_pure ())))
  simp only [List.append_nil] at this
  exact this

theorem plays_smbStatus (a : ReadAnswers) (h : smbusSuccess a.value = false) :
    Plays k c (Pseudo.smbStatus k c) (stepMoves k (readMoves k k.smbusStatus a)) (.error (.smbusError a.value)) := by
  have := plays_bind (q := fun st => do
      Pseudo.assign fun L => { L with st := some st }
      if smbusSuccess st then pure () else Pseudo.raise (.smbusError st))
    (says_ramR (k := k) (c := c) k.smbusStatus a).1
    (plays_bind (plays_assign _) (by simp only [h]; exact plays_error _))
  simp only [List.append_nil] at this
  exact this

theorem Pseudo.smbSteps_eq (k : Config) (c : Nat) (kind : SmbKind) (ch slv reg data : Byte) :
    Pseudo.smbSteps k c kind ch slv reg data = (do
      Pseudo.smbArm k c kind ch slv reg data
      Pseudo.idlePoll k c k.smbMaxPoll
      Pseudo.smbStatus k c
      Pseudo.smbCells k c kind) := by
  cases kind <;> simp only [Pseudo.smbSteps, Pseudo.smbArm, Pseudo.smbStatus, Pseudo.smbCells, Pseudo.bind_assoc',
    Pseudo.ite_bind, Pseudo.raise_bind, Pseudo.pure_bind', reduceCtorEq, if_true, if_false]

theorem says_smbSteps {kind : SmbKind} {cells : List Move} {value : Word32} (ch slv reg data : Byte) (a : HeadAnswers)
    (hp : a.polls k = true) (hs : smbusSuccess a.status.value = true)
    (hc : Says k c (stepClose k) (Pseudo.smbCells k c kind) cells value) :
    Says k c (stepClose k) (Pseudo.smbSteps k c kind ch slv reg data)
      (headMoves k kind ch slv reg data a ++ cells) value := by
  simp only [HeadAnswers.polls, Bool.and_eq_true, decide_eq_true_eq] at hp
  have := says_then (says_smbArm (k := k) (c := c) kind ch slv reg data a)
    (says_then (says_idlePoll a.idle hp.1.2 a.busy k.smbMaxPoll hp.1.1 hp.2)
      (says_then (says_smbStatus a.status hs) hc))
  rw [Pseudo.smbSteps_eq]
  simpa only [headMoves, List.append_assoc] using this

theorem plays_smbError {kind : SmbKind} (ch slv reg data : Byte) (a : HeadAnswers) (hp : a.polls k = true)
    (hs : smbusSuccess a.status.value = false) :
    Plays k c (Pseudo.smbSteps k c kind ch slv reg data) (headMoves k kind ch slv reg data a)
      (.error (.smbusError a.status.value)) := by
  simp only [HeadAnswers.polls, Bool.and_eq_true, decide_eq_true_eq] at hp
  have := plays_then (says_smbArm (k := k) (c := c) kind ch slv reg data a).1
    (plays_then (says_idlePoll a.idle hp.1.2 a.busy k.smbMaxPoll hp.1.1 hp.2).1
      (plays_raise (q := fun _ => Pseudo.smbCells k c kind) (plays_smbStatus a.status hs)))
  rw [Pseudo.smbSteps_eq]
  simpa only [headMoves, List.append_assoc] using this

theorem plays_smbTimeout {kind : SmbKind} (ch slv reg data : Byte) (a : HeadAnswers)
    (hb : a.busy.all (fun r => !engineIdle r.value) = true) (hn : a.busy.length = k.smbMaxPoll) :
    Plays k c (Pseudo.smbSteps k c kind ch slv reg data)
      (armMoves k kind ch slv reg data a ++ pollMoves k a.busy) (.error .timeout) := by
  have hpoll := plays_idlePoll (k := k) (c := c) a.busy hb
  rw [hn] at hpoll
  have := plays_then (says_smbArm (k := k) (c := c) kind ch slv reg data a).1
    (plays_raise (q := fun _ => do Pseudo.smbStatus k c; Pseudo.smbCells k c kind) hpoll)
  rw [Pseudo.smbSteps_eq]
  exact this

/-- A whole transaction under either lock scope. -/
theorem says_smbTransaction {kind : SmbKind} {ch slv reg data : Byte} {ms : List Move} {value : Word32}
    (h : Says k c (stepClose k) (Pseudo.smbSteps k c kind ch slv reg data) ms value) :
    Says k c [.release] (Pseudo.smbTransaction k c kind ch slv reg data) (transactionMoves k ms) value := by
  unfold stepClose at h
  unfold Pseudo.smbTransaction transactionMoves
  cases hk : k.smbusLockScope with
  | perStep => rw [hk] at h; exact h
  | wholeTransaction => rw [hk] at h; exact says_locked h

theorem plays_smbTransaction {kind : SmbKind} {ch slv reg data : Byte} {ms : List Move} {r : Except Response Word32}
    (h : Plays k c (Pseudo.smbSteps k c kind ch slv reg data) ms r) :
    Plays k c (Pseudo.smbTransaction k c kind ch slv reg data) (transactionMoves k ms) r := by
  unfold Pseudo.smbTransaction transactionMoves
  cases k.smbusLockScope with
  | perStep => exact h
  | wholeTransaction => exact plays_locked h

theorem says_byteCells (a : ReadAnswers) :
    Says k c (stepClose k) (Pseudo.smbCells k c .byteRead) (stepMoves k (readMoves k k.smbusData a))
      (byteValue a.value) := by
  have := says_bind (q := fun d0 => do
      Pseudo.assign fun L => { L with d0 := some d0 }
      pure (byteValue d0))
    (says_ramR (k := k) (c := c) k.smbusData a)
    (says_bind (says_nil (plays_assign _)) (says_nil (plays_pure (byteValue a.value))))
  simp only [List.append_nil] at this
  exact this

theorem says_wordCells (a b : ReadAnswers) :
    Says k c (stepClose k) (Pseudo.smbCells k c .wordRead)
      (stepMoves k (readMoves k k.smbusData a) ++ stepMoves k (readMoves k k.smbusDataOffset1 b))
      ((smbWord a.value b.value).setWidth 32) := by
  have h2 := says_bind (q := fun d1 => do
      Pseudo.assign fun L => { L with d1 := some d1 }
      pure ((smbWord a.value d1).setWidth 32))
    (says_ramR (k := k) (c := c) k.smbusDataOffset1 b)
    (says_bind (says_nil (plays_assign _)) (says_nil (plays_pure ((smbWord a.value b.value).setWidth 32))))
  have := says_bind (q := fun d0 => do
      Pseudo.assign fun L => { L with d0 := some d0 }
      let d1 ← Pseudo.ramR k c k.smbusDataOffset1
      Pseudo.assign fun L => { L with d1 := some d1 }
      pure ((smbWord d0 d1).setWidth 32))
    (says_ramR (k := k) (c := c) k.smbusData a)
    (says_bind (says_nil (plays_assign _)) h2)
  simp only [List.append_nil, List.nil_append] at this
  exact this

theorem says_writeCells : Says k c (stepClose k) (Pseudo.smbCells k c .byteWrite) [] 0 :=
  says_nil (plays_pure 0)

/-! ## The scan (R118) -/

theorem says_scanOne (idx : Nat) (a : SlotAnswers) (h : isSentinel a.check = false) :
    Says k c [] (Pseudo.scanOne k c idx) (slotMoves k idx a) (a.pin, a.device) := by
  have h3 := says_bind (q := fun pin => do
        Pseudo.waitIBF k c
        Pseudo.portOut c .command k.opTblGetDevice
        let dev ← (do
          Pseudo.waitOBF k c
          let b ← Pseudo.portIn c .data
          Pseudo.assign fun L => L.writeAll b [.dev]
          pure b)
        pure (pin, dev)) (says_receive (k := k) (c := c) a.gotPin a.pin fun b L => L.writeAll b [.pin]) (by
    have := says_then (says_sendCommand (k := k) (c := c) a.getDevice k.opTblGetDevice)
      (says_bind (q := fun dev => pure (a.pin, dev)) (says_receive a.gotDevice a.device fun b L => L.writeAll b [.dev])
        (says_nil (plays_pure (a.pin, a.device))))
    simp only [Pseudo.bind_assoc'] at this ⊢
    exact this)
  have := says_then (says_sendCommand (k := k) (c := c) a.select k.opTblSelect)
    (says_then (says_sendArgument a.index (BitVec.ofNat 8 idx)) (says_then (says_checked a.selected a.check .invalidTable (fun b L => L.writeAll b [.chk]) h)
      (says_then (says_sendCommand a.getPin k.opTblGetPin) h3)))
  simp only [Pseudo.bind_assoc', Pseudo.scanOne, Pseudo.receive, Pseudo.pure_bind', Pseudo.ite_bind,
    Pseudo.raise_bind] at this ⊢
  exact this

theorem plays_scanBad (idx : Nat) (a : SlotAnswers) (h : a.check = 0xFF) :
    Plays k c (Pseudo.scanOne k c idx) (selectMoves k idx a) (.error .invalidTable) := by
  have := plays_then (says_sendCommand (k := k) (c := c) a.select k.opTblSelect).1
    (plays_then (says_sendArgument a.index (BitVec.ofNat 8 idx)).1
      (plays_raise (q := fun _ => do
        Pseudo.waitIBF k c
        Pseudo.portOut c .command k.opTblGetPin
        Pseudo.waitOBF k c
        let pin ← Pseudo.receive c [.pin]
        Pseudo.waitIBF k c
        Pseudo.portOut c .command k.opTblGetDevice
        Pseudo.waitOBF k c
        let dev ← Pseudo.receive c [.dev]
        pure (pin, dev)) (plays_checked a.selected .invalidTable fun b L => L.writeAll b [.chk])))
  simp only [Pseudo.bind_assoc', Pseudo.scanOne, Pseudo.pure_bind', Pseudo.ite_bind, Pseudo.raise_bind] at this ⊢
  rw [selectMoves, h]
  exact this

/-- A table with the entries of `as` written from index `idx` on. -/
def setEntries (idx : Nat) : List SlotAnswers → List Entry → List Entry
  | [], t => t
  | a :: as, t => setEntries (idx + 1) as (t.set idx a.entry)

theorem setEntries_replicate (as : List SlotAnswers) (done : List Entry) (n : Nat) (h : as.length ≤ n) :
    setEntries done.length as (done ++ List.replicate n Entry.undefined) =
      done ++ as.map SlotAnswers.entry ++ List.replicate (n - as.length) Entry.undefined := by
  induction as generalizing done n with
  | nil => simp [setEntries]
  | cons a as ih =>
    cases n with
    | zero => simp at h
    | succ n =>
      have := ih (done ++ [a.entry]) n (by simpa using h)
      simp only [setEntries, List.replicate_succ, List.set_append_right _ _ (Nat.le_refl _), Nat.sub_self,
        List.set_cons_zero]
      simp only [List.length_append, List.length_singleton, List.append_assoc, List.singleton_append] at this
      rw [this]
      simp

/-- The table that a scan which fetched `as` leaves. -/
theorem setEntries_scanned (k : Config) (as : List SlotAnswers) (h : as.length ≤ k.nTbl) :
    setEntries 0 as (List.replicate k.nTbl Entry.undefined) = scannedTable k as := by
  have := setEntries_replicate as [] k.nTbl h
  simpa [scannedTable] using this

/-- The scan's loop: the slots `as` are fetched, then the loop goes on with `more` indices left. -/
theorem scanLoop_slots (k : Config) (c : Nat) (as : List SlotAnswers) (hchk : as.all (fun a => !isSentinel a.check) = true) :
    ∀ (more idx : Nat) (w : State) (L : Latches) (rest : List Byte), w.cfg = k →
      w.script = answersOf (slotsMoves k idx as) ++ rest → (slotsMoves k idx as).all (Move.ok k) = true →
      ∃ L', Pseudo.scanLoop k c (as.length + more) idx (w, L) =
        Pseudo.scanLoop k c more (idx + as.length)
          ({ w.played c (slotsMoves k idx as) with table := setEntries idx as w.table }, L') := by
  induction as with
  | nil =>
    intro more idx w L rest _ _ _
    exact ⟨L, by simp [slotsMoves, State.played, answersOf, eventsOf, lockOf, setEntries]⟩
  | cons a as ih =>
    intro more idx w L rest hk hs hok
    simp only [List.all_cons, Bool.and_eq_true, Bool.not_eq_true'] at hchk
    rw [slotsMoves, answersOf_append, List.append_assoc] at hs
    rw [slotsMoves, List.all_append, Bool.and_eq_true] at hok
    obtain ⟨L1, h1⟩ := (says_scanOne (k := k) (c := c) idx a hchk.1).1 w L _ hk hs hok.1
    obtain ⟨L2, h2⟩ := ih hchk.2 more (idx + 1) ((w.played c (slotMoves k idx a)).writeEntry idx a.device a.pin)
      { L1 with idx := some (idx + 1) } rest hk (by simp [State.played, hs]) hok.2
    refine ⟨L2, ?_⟩
    rw [List.length_cons, show as.length + 1 + more = (as.length + more) + 1 by omega, Pseudo.scanLoop_eq]
    simp only [Pseudo.bind_run, h1, Pseudo.update, Pseudo.assign]
    rw [h2, show idx + 1 + as.length = idx + (as.length + 1) by omega, slotsMoves, State.played_append]
    rfl

/-- The whole loop. -/
theorem scanLoop_done (k : Config) (c : Nat) (as : List SlotAnswers) (hchk : as.all (fun a => !isSentinel a.check) = true)
    (idx : Nat) (w : State) (L : Latches) (rest : List Byte) (hk : w.cfg = k)
    (hs : w.script = answersOf (slotsMoves k idx as) ++ rest) (hok : (slotsMoves k idx as).all (Move.ok k) = true) :
    ∃ L', Pseudo.scanLoop k c as.length idx (w, L) =
      (.ok (), ({ w.played c (slotsMoves k idx as) with table := setEntries idx as w.table }, L')) := by
  obtain ⟨L', h⟩ := scanLoop_slots k c as hchk 0 idx w L rest hk hs hok
  exact ⟨L', h⟩

/-- The loop up to an index whose part `ms` ends in the error `e`. -/
theorem scanLoop_error (k : Config) (c : Nat) (as : List SlotAnswers) (hchk : as.all (fun a => !isSentinel a.check) = true)
    (more idx : Nat) (ms : List Move) (e : Response)
    (hp : Plays k c (Pseudo.scanOne k c (idx + as.length)) ms (.error e))
    (w : State) (L : Latches) (rest : List Byte) (hk : w.cfg = k)
    (hs : w.script = answersOf (slotsMoves k idx as ++ ms) ++ rest)
    (hok : (slotsMoves k idx as ++ ms).all (Move.ok k) = true) :
    ∃ L', Pseudo.scanLoop k c (as.length + (more + 1)) idx (w, L) =
      (.error e, ({ w.played c (slotsMoves k idx as ++ ms) with table := setEntries idx as w.table }, L')) := by
  rw [answersOf_append, List.append_assoc] at hs
  rw [List.all_append, Bool.and_eq_true] at hok
  obtain ⟨L1, h1⟩ := scanLoop_slots k c as hchk (more + 1) idx w L _ hk hs hok.1
  obtain ⟨L2, h2⟩ := hp { w.played c (slotsMoves k idx as) with table := setEntries idx as w.table } L1 rest hk
    (by simp [State.played, hs]) hok.2
  refine ⟨L2, ?_⟩
  rw [h1, Pseudo.scanLoop_eq, Pseudo.bind_run, h2, State.played_append]
  rfl

end Sys2Proof.Machine
end

