-- ==== Sys2Proof/Laws/Frame.lean ====
section
/-!
SUPPORT. What a run turn can change, said once: the internal work after a step, a status read, a whole turn.
-/
namespace Sys2Proof.Machine

/-- `scanStatus` where an operation ends with `res` (R25, R127). -/
def endStatus (i : Instr) (res : Response) (st : ScanStatus) : ScanStatus :=
  if i = .tableScan then
    match res with
    | .ok _ => .done
    | .timeout | .invalidTarget | .smbusError _ | .invalidTable => .failed
  else st

theorem routineOf_ended_eq (i : Instr) (res : Response) (s : State) :
    (routineOf i).ended res s = { s with scanStatus := endStatus i res s.scanStatus } := by
  cases i <;> first | rfl | (cases res <;> rfl)

/-- How far the internal work of a step may loop back. -/
def After.back? : After → Option Nat
  | .checkIdle back | .storeEntry back => some back
  | .proceed | .checkTarget | .checkTable | .checkStatus => none

/-- What the internal work of step `pc` leads to: the operation ends, or raises, or goes on. -/
structure Settled (s t : State) (i : Instr) (after : After) (c pc : Nat) (q q' : Sequencer) : Prop where
  shape : ∃ st tb, t = ({ s with scanStatus := st, table := tb } : State).setClient c q'
  table : (∀ b, after ≠ .storeEntry b) → t.table = s.table
  latches : ∀ l, q'.latches.read l = q.latches.read l
  poll : q'.latches.poll = q.latches.poll
  phase : (q'.phase = .complete ∧ ∃ res, q'.latches.res = some res ∧ t.scanStatus = endStatus i res s.scanStatus) ∨
    (t.scanStatus = s.scanStatus ∧ q'.latches.res = q.latches.res ∧
      ((∃ e, q'.phase = .busy pc (.abort e)) ∨
        ∃ pc', q'.phase = .busy pc' .start ∧ pc' < (seqOf s.cfg i).length ∧ (pc' = pc + 1 ∨ ∃ b, after.back? = some b ∧ pc' = pc - b)))

theorem Latches.read_counters (L : Latches) (p s' x : Option Nat) (l : Latch) :
    ({ L with poll := p, spoll := s', idx := x } : Latches).read l = L.read l := by
  cases l <;> rfl

theorem complete_settled (s : State) (i : Instr) (after : After) (c pc : Nat) (q : Sequencer) (res : Response) :
    Settled s (s.complete (routineOf i) c q res) i after c pc q { phase := .complete, latches := { q.latches with res := some res } } := by
  refine ⟨⟨endStatus i res s.scanStatus, s.table, ?_⟩, ?_, ?_, rfl, Or.inl ⟨rfl, res, rfl, ?_⟩⟩
  · simp only [State.complete, routineOf_ended_eq]
  · intro _; simp only [State.complete, routineOf_ended_eq]; rfl
  · intro l; cases l <;> rfl
  · simp only [State.complete, routineOf_ended_eq]; rfl

theorem raise_settled (s : State) (i : Instr) (after : After) (c pc : Nat) (q : Sequencer) (e : Response) :
    ∃ q', Settled s (s.raise (routineOf i) c pc q e) i after c pc q q' := by
  unfold State.raise
  split
  · exact ⟨{ q with phase := .busy pc (.abort e) }, ⟨s.scanStatus, s.table, rfl⟩, fun _ => rfl, fun _ => rfl, rfl,
      Or.inr ⟨rfl, rfl, Or.inl ⟨e, rfl⟩⟩⟩
  · exact ⟨_, complete_settled s i after c pc q e⟩

theorem goto_settled {s t : State} {i : Instr} {after : After} {c pc pc' : Nat} {q : Sequencer}
    (hpc : pc' = pc + 1 ∨ ∃ b, after.back? = some b ∧ pc' = pc - b)
    (h : s.goto (routineOf i) c pc' q = .next t) : ∃ q', Settled s t i after c pc q q' := by
  unfold State.goto at h
  split at h
  · rename_i hlt
    cases h
    exact ⟨{ q with phase := .busy pc' .start }, ⟨s.scanStatus, s.table, rfl⟩, fun _ => rfl, fun _ => rfl, rfl,
      Or.inr ⟨rfl, rfl, Or.inr ⟨pc', rfl, hlt, hpc⟩⟩⟩
  · unfold attempt at h
    split at h
    · cases h; exact ⟨_, complete_settled s i after c pc q _⟩
    · cases h

/-- From counters changed on the way. -/
theorem Settled.counters {s t : State} {i : Instr} {after : After} {c pc : Nat} {q q' : Sequencer} {sp x : Option Nat}
    (h : Settled s t i after c pc { q with latches := { q.latches with spoll := sp, idx := x } } q') :
    Settled s t i after c pc q q' := by
  refine ⟨h.shape, h.table, fun l => ?_, h.poll, h.phase⟩
  rw [h.latches l]
  cases l <;> rfl

theorem settle_settled {s t : State} {i : Instr} {after : After} {c pc : Nat} {q : Sequencer}
    (h : s.settle (routineOf i) after c pc q = .next t) : ∃ q', Settled s t i after c pc q q' := by
  have hc : ∀ {q1 : Sequencer} {sp x}, (∃ q', Settled s t i after c pc { q1 with latches := { q1.latches with spoll := sp, idx := x } } q') →
      ∃ q', Settled s t i after c pc q1 q' := fun ⟨q', h⟩ => ⟨q', h.counters⟩
  unfold State.settle at h
  cases after with
  | proceed => exact goto_settled (Or.inl rfl) h
  | checkTarget | checkTable | checkStatus =>
    simp only [attempt] at h
    split at h
    · split at h
      all_goals first
        | exact goto_settled (Or.inl rfl) h
        | (cases h; exact raise_settled ..)
    · cases h
  | checkIdle back =>
    simp only [attempt] at h
    split at h
    · split at h
      · exact goto_settled (Or.inl rfl) h
      · split at h
        · split at h
          · cases h; exact hc (sp := _) (x := q.latches.idx) (raise_settled ..)
          · exact hc (sp := _) (x := q.latches.idx) (goto_settled (Or.inr ⟨back, rfl, rfl⟩) h)
        · cases h
    · cases h
  | storeEntry back =>
    simp only [attempt] at h
    split at h
    · split at h
      · split at h
        · split at h
          · have key : ∀ {pc'}, (pc' = pc + 1 ∨ ∃ b, (After.storeEntry back).back? = some b ∧ pc' = pc - b) →
              ∀ {d p n m}, (s.writeEntry n d p).goto (routineOf i) c pc' { q with latches := { q.latches with idx := some m } } = .next t →
              ∃ q', Settled s t i (.storeEntry back) c pc q q' := by
              intro pc' hp d p n m hg
              obtain ⟨q', hs⟩ := goto_settled (after := .storeEntry back) hp hg
              have hs := hs.counters (sp := q.latches.spoll) (x := some m)
              obtain ⟨st, tb, he⟩ := hs.shape
              exact ⟨q', ⟨st, tb, he⟩, fun hb => absurd rfl (hb back), hs.latches, hs.poll, hs.phase⟩
            split at h
            · exact key (Or.inr ⟨back, rfl, rfl⟩) h
            · exact key (Or.inl rfl) h
          · cases h
        · cases h
      · cases h
    · cases h

/-- A sequence's steps write what `latchesOf` says, and only the scan stores entries. -/
def microLatches (i : Instr) (m : Micro) : Bool :=
  m.writes.all (fun l => (latchesOf i).contains l)
    && (match m.after with
        | .storeEntry _ => decide (i = .tableScan)
        | .proceed | .checkTarget | .checkTable | .checkIdle _ | .checkStatus => true)

theorem reps_latches (scope : LockScope) :
    (reps.all fun i => (seqOf (withScope scope) i).all (microLatches i)) = true := by
  cases scope <;> decide +kernel

theorem microLatches_rep (i : Instr) (m : Micro) : microLatches (rep i) m.shape = microLatches i m := by
  have h1 : latchesOf (rep i) = latchesOf i := by cases i <;> rfl
  have h2 : decide (rep i = .tableScan) = decide (i = .tableScan) := by cases i <;> rfl
  unfold microLatches
  rw [Micro.shape_writes, h1, h2]
  rfl

theorem seq_latches {k : Config} {i : Instr} {pc : Nat} {m : Micro} (h : (seqOf k i)[pc]? = some m) :
    (∀ l ∈ m.writes, l ∈ latchesOf i) ∧ ((∃ b, m.after = .storeEntry b) → i = .tableScan) := by
  have hm : m.shape ∈ (seqOf (withScope k.smbusLockScope) (rep i)).map Micro.shape := by
    rw [← seqOf_shape]; exact List.mem_map_of_mem (List.mem_of_getElem? h)
  obtain ⟨m', hm', he⟩ := List.mem_map.mp hm
  have hr := List.all_eq_true.mp (List.all_eq_true.mp (reps_latches k.smbusLockScope) _ (rep_mem i)) _ hm'
  have h1 : microLatches i m = true := by
    rw [← microLatches_rep, ← he]
    have : rep (rep i) = rep i := by cases i <;> rfl
    rw [← this, microLatches_rep]; exact hr
  simp only [microLatches, Bool.and_eq_true, List.all_eq_true, List.contains_iff_mem] at h1
  refine ⟨h1.1, ?_⟩
  rintro ⟨b, hb⟩
  have := h1.2
  rw [hb] at this
  simpa using this

/-- What the act of a step leads to, before the internal work: `w` with `q1` in hand. -/
structure Acted (s w : State) (c : Nat) (m : Micro) (q q1 : Sequencer) : Prop where
  shape : ∃ lk tr sc n, w = { s with lock := lk, trace := tr, script := sc, reads := n }
  event : (w.trace = s.trace ∧ w.lock = s.lock ∧ m.act = .lookup) ∨
    (w.trace = s.trace ++ [.acquire c] ∧ s.lock = .free ∧ w.lock = .held c ∧ m.act = .acquire) ∨
    (w.trace = s.trace ++ [.release c] ∧ s.lock = .held c ∧ w.lock = .free ∧ m.act = .release) ∨
    (w.lock = s.lock ∧ (∃ b, w.trace = s.trace ++ [.output c s.cfg.portCmd b]) ∧ ∃ b, m.act = .command b) ∨
    (w.lock = s.lock ∧ (∃ b, w.trace = s.trace ++ [.output c s.cfg.portData b]) ∧ ∃ b, m.act = .argument b) ∨
    (w.lock = s.lock ∧ (∃ b, w.trace = s.trace ++ [.input c s.cfg.portData b]) ∧ ∃ b, m.act = .response b) ∨
    (w.lock = s.lock ∧ (∃ b, w.trace = s.trace ++ [.input c s.cfg.portCmd b] ∧
      ((m.act = .waitIbf ∧ ibfClear b = true) ∨ (m.act = .waitObf ∧ obfSet b = true))))
  latches : ∀ l, l ∉ m.writes → q1.latches.read l = q.latches.read l
  res : q1.latches.res = q.latches.res

/-- What a turn of a Busy client that stands at step `m` leads to: the act and its internal work, or a failed status
read of a wait, or, where an `Acquire()` is disabled, nothing. -/
inductive Performed (s t : State) (i : Instr) (m : Micro) (c pc : Nat) (q q' : Sequencer) : Prop
  | held (h : t = s) (he : q' = q) (ha : m.act = .acquire) (hl : s.lock ≠ .free)
  | acted (w : State) (q1 : Sequencer) (hs : Settled w t i m.after c pc q1 q') (ha : Acted s w c m q q1)
  | late (b : Byte) (w : State) (hw : w = s.portIn c .command) (hb : b = s.answer .command)
      (ha : (m.act = .waitIbf ∧ ibfClear b = false) ∨ (m.act = .waitObf ∧ obfSet b = false))
      (hl : ∀ l, q'.latches.read l = q.latches.read l)
      (hp : (q'.phase = .busy pc .again ∧ q'.latches.res = q.latches.res ∧ t = w.setClient c q') ∨
        ∃ L, L.res = q.latches.res ∧ Settled w t i m.after c pc { q with latches := L } q' ∧
          (∃ e, t = w.raise (routineOf i) c pc { q with latches := L } e))

theorem Latches.writeAll_res (L : Latches) (b : Byte) (ls : List Latch) : (L.writeAll b ls).res = L.res := by
  unfold Latches.writeAll
  induction ls generalizing L with
  | nil => rfl
  | cons l ls ih => rw [List.foldl_cons, ih]; cases l <;> rfl

theorem pollStep_performed {s t : State} {i : Instr} {m : Micro} {c pc : Nat} {q : Sequencer} {stage : Stage} {done : Byte → Bool}
    (hm : (m.act = .waitIbf ∧ done = ibfClear) ∨ (m.act = .waitObf ∧ done = obfSet))
    (h : s.pollStep (routineOf i) m.after c pc q stage done = .next t) : ∃ q', Performed s t i m c pc q q' := by
  unfold State.pollStep attempt at h
  split at h
  · rename_i n _
    simp only at h
    split at h
    · rename_i hd
      obtain ⟨q', hs⟩ := settle_settled h
      refine ⟨q', .acted _ _ hs ⟨⟨s.lock, _, _, _, rfl⟩, ?_, fun l _ => ?_, rfl⟩⟩
      · refine Or.inr (Or.inr (Or.inr (Or.inr (Or.inr (Or.inr ⟨rfl, _, rfl, ?_⟩)))))
        rcases hm with ⟨h1, h2⟩ | ⟨h1, h2⟩
        · exact Or.inl ⟨h1, by rw [← h2]; exact hd⟩
        · exact Or.inr ⟨h1, by rw [← h2]; exact hd⟩
      · cases l <;> rfl
    · rename_i hd
      have hd' : (m.act = .waitIbf ∧ ibfClear (s.answer .command) = false) ∨ (m.act = .waitObf ∧ obfSet (s.answer .command) = false) := by
        rcases hm with ⟨h1, h2⟩ | ⟨h1, h2⟩
        · exact Or.inl ⟨h1, by rw [← h2]; simpa using hd⟩
        · exact Or.inr ⟨h1, by rw [← h2]; simpa using hd⟩
      have hlr : ∀ n' l, ({ q.latches with poll := n' } : Latches).read l = q.latches.read l := by
        intro n' l; cases l <;> rfl
      split at h
      · cases h
        obtain ⟨q', hs⟩ := raise_settled (s.portIn c .command) i m.after c pc
          { q with latches := { q.latches with poll := some (n + 1) } } .timeout
        exact ⟨q', .late _ _ rfl rfl hd' (fun l => by rw [hs.latches, hlr]) (Or.inr ⟨{ q.latches with poll := some (n + 1) }, rfl, hs, _, rfl⟩)⟩
      · cases h
        exact ⟨{ q with phase := .busy pc .again, latches := { q.latches with poll := some (n + 1) } }, .late _ _ rfl rfl hd' (fun l => hlr _ l) (Or.inl ⟨rfl, rfl, rfl⟩)⟩
  · cases h

/-- A counter that starts is no byte latch and no result. -/
theorem Performed.of_starting {s t : State} {i : Instr} {m : Micro} {c pc : Nat} {q q' : Sequencer} {x : Option Counter}
    (hm : m.act ≠ .acquire) (h : Performed s t i m c pc { q with latches := q.latches.starting x } q') :
    Performed s t i m c pc q q' := by
  have hr : (q.latches.starting x).res = q.latches.res := by rcases x with _ | (_ | _ | _) <;> rfl
  cases h with
  | held h he ha hl => exact absurd ha hm
  | acted w q1 hs ha =>
    exact .acted w q1 hs ⟨ha.shape, ha.event, fun l hl => (ha.latches l hl).trans (Latches.read_starting ..), ha.res.trans hr⟩
  | late b w hw hb ha hl hp =>
    refine .late b w hw hb ha (fun l => (hl l).trans (Latches.read_starting ..)) (hp.imp ?_ ?_)
    · rintro ⟨h1, h2, h3⟩; exact ⟨h1, h2.trans hr, h3⟩
    · rintro ⟨L1, h1, h2, h3⟩; exact ⟨L1, h1.trans hr, h2, h3⟩

theorem perform_performed {s t : State} {i : Instr} {m : Micro} {c pc : Nat} {q : Sequencer} {stage : Stage}
    (h : s.perform (routineOf i) m c pc q stage = .next t) : ∃ q', Performed s t i m c pc q q' := by
  unfold State.perform at h
  split at h
  · rename_i ha
    split at h
    · obtain ⟨q', hs⟩ := settle_settled h
      exact ⟨q', (.acted _ _ hs ⟨⟨_, _, s.script, s.reads, rfl⟩, Or.inr (Or.inl ⟨rfl, by assumption, rfl, ha⟩), fun _ _ => rfl, rfl⟩)⟩
    · cases h; exact ⟨q, .held rfl rfl ha (by assumption)⟩
  · rename_i ha; obtain ⟨q', hq⟩ := pollStep_performed (Or.inl ⟨ha, rfl⟩) h; exact ⟨q', hq.of_starting (by simp [ha])⟩
  · rename_i ha; obtain ⟨q', hq⟩ := pollStep_performed (Or.inr ⟨ha, rfl⟩) h; exact ⟨q', hq.of_starting (by simp [ha])⟩
  · rename_i b ha
    obtain ⟨q', hs⟩ := settle_settled h
    exact ⟨q', (.acted _ _ hs ⟨⟨s.lock, _, s.script, s.reads, rfl⟩,
      Or.inr (Or.inr (Or.inr (Or.inl ⟨rfl, ⟨b, rfl⟩, b, ha⟩))), fun _ _ => rfl, rfl⟩)⟩
  · rename_i src ha
    unfold attempt at h
    split at h
    · obtain ⟨q', hs⟩ := settle_settled h
      exact ⟨q', (.acted _ _ hs ⟨⟨s.lock, _, s.script, s.reads, rfl⟩,
        Or.inr (Or.inr (Or.inr (Or.inr (Or.inl ⟨rfl, ⟨_, rfl⟩, src, ha⟩)))), fun _ _ => rfl, rfl⟩)⟩
    · cases h
  · rename_i ls ha
    obtain ⟨q', hs⟩ := settle_settled h
    refine ⟨q', (.acted _ _ hs ⟨⟨s.lock, _, _, _, rfl⟩,
      Or.inr (Or.inr (Or.inr (Or.inr (Or.inr (Or.inl ⟨rfl, ⟨_, rfl⟩, ls, ha⟩))))), fun l hl => ?_, ?_⟩)⟩
    · simp [Micro.writes, ha] at hl
      simp [Latches.read_writeAll, hl]
    · simp [Latches.writeAll_res]
  · rename_i ha
    split at h
    · obtain ⟨q', hs⟩ := settle_settled h
      exact ⟨q', (.acted _ _ hs ⟨⟨_, _, s.script, s.reads, rfl⟩, Or.inr (Or.inr (Or.inl ⟨rfl, by assumption, rfl, ha⟩)), fun _ _ => rfl, rfl⟩)⟩
    · cases h
  · rename_i ha
    obtain ⟨q', hs⟩ := settle_settled h
    exact ⟨q', (.acted _ _ hs ⟨⟨s.lock, s.trace, s.script, s.reads, rfl⟩, Or.inl ⟨rfl, rfl, ha⟩, fun _ _ => rfl, rfl⟩)⟩

/-- What a run turn leads to. -/
inductive Turned (s t : State) (i : Instr) (c : Nat) (q q' : Sequencer) : Prop
  | idle (h : t = s) (he : q' = q) (hp : ∀ pc stage, q.phase ≠ .busy pc stage)
  | performed (pc : Nat) (stage : Stage) (m : Micro) (hp : q.phase = .busy pc stage) (hs : ∀ e, stage ≠ .abort e)
      (hm : (seqOf s.cfg i)[pc]? = some m) (h : Performed s t i m c pc q q')
  | aborted (pc : Nat) (e : Response) (hp : q.phase = .busy pc (.abort e)) (hl : s.lock = .held c)
      (h : t = (s.release c).complete (routineOf i) c q e)
      (he : q' = { phase := .complete, latches := { q.latches with res := some e } })

theorem advance_turned {s t : State} {i : Instr} {c : Nat} {q : Sequencer} (hq : s.client? c = some q)
    (h : s.advance (routineOf i) c = .next t) : ∃ q', Turned s t i c q q' := by
  unfold State.advance at h
  rw [hq] at h
  simp only at h
  split at h
  · rename_i hp; cases h; exact ⟨q, .idle rfl rfl (by simp [hp])⟩
  · rename_i hp; cases h; exact ⟨q, .idle rfl rfl (by simp [hp])⟩
  · rename_i pc stage hp
    have key : (∀ e, stage ≠ .abort e) → ∀ (h : (match ((routineOf i).seq s.cfg)[pc]? with
        | some m => s.perform (routineOf i) m c pc q stage
        | none => .fault (.offSequence pc)) = .next t), ∃ q', Turned s t i c q q' := by
      intro hna h
      split at h
      · rename_i m hm
        obtain ⟨q', hq'⟩ := perform_performed h
        exact ⟨q', .performed pc stage m hp hna hm hq'⟩
      · cases h
    split at h
    · rename_i e
      unfold State.abortStep at h
      split at h
      · cases h; exact ⟨_, .aborted pc e hp (by assumption) rfl rfl⟩
      · cases h
    · exact key (by simp) h
    · exact key (by simp) h

/-- A run turn of client `c`. -/
theorem exec_run {s t : State} {i : Instr} {c : Nat} (hn : s.now = .run c) (h : exec i s = .next t) :
   (s.client? c = none ∧ t = s) ∨ ∃ q q', s.client? c = some q ∧ Turned s t i c q q' := by
  rw [exec_eq_operate] at h; simp only [operate, hn] at h
  cases hq : s.client? c with
  | none => simp [State.advance, hq] at h; exact Or.inl ⟨rfl, h.symm⟩
  | some q => obtain ⟨q', hq'⟩ := advance_turned hq h; exact Or.inr ⟨q, q', rfl, hq'⟩

/-- What a run turn of client `c` keeps, with `q'` as `c`'s sequencer after it. -/
structure TurnKept (s t : State) (c : Nat) (q' : Sequencer) : Prop where
  cfg : t.cfg = s.cfg
  life : t.life = s.life
  used : t.used = s.used
  product : t.product = s.product
  refused : t.refused = s.refused
  collected : t.collected = s.collected
  schedule : t.schedule = s.schedule
  turns : t.turns = s.turns
  now : t.now = s.now
  clients : t.clients = s.clients.set c q'

theorem Settled.kept {s w t : State} {i after c pc q q'} (h : Settled w t i after c pc q q')
   (hw : ∃ lk tr sc n, w = { s with lock := lk, trace := tr, script := sc, reads := n }) : TurnKept s t c q' := by
  obtain ⟨_, _, _, _, rfl⟩ := hw
  obtain ⟨st, tb, rfl⟩ := h.shape
  constructor <;> rfl

theorem set_self {s : State} {c q} (h : s.client? c = some q) : s.clients.set c q = s.clients := by
  unfold State.client? at h
  apply List.ext_getElem?
  intro j
  by_cases hj : c = j
  · subst hj; rw [List.getElem?_set_self (List.getElem?_eq_some_iff.mp h).1, h]
  · rw [List.getElem?_set_ne hj]

theorem Turned.kept {s t : State} {i c q q'} (hq : s.client? c = some q) (h : Turned s t i c q q') : TurnKept s t c q' := by
  cases h with
  | idle h he => subst h he; exact ⟨rfl,rfl,rfl,rfl,rfl,rfl,rfl,rfl,rfl, (set_self hq).symm⟩
  | performed pc stage m hp hs hm h =>
    cases h with
    | held h he => subst h he; exact ⟨rfl,rfl,rfl,rfl,rfl,rfl,rfl,rfl,rfl, (set_self hq).symm⟩
    | acted w q1 hs ha => exact hs.kept ha.shape
    | late b w hw hb ha hl hp =>
      rcases hp with ⟨_, _, rfl⟩ | ⟨L1, hres, hs, _⟩
      · subst hw; constructor <;> rfl
      · subst hw; exact hs.kept ⟨s.lock, _, _, _, rfl⟩
  | aborted pc e hp hl h he =>
    rw [h, he]
    simp only [State.complete, routineOf_ended_eq]
    constructor <;> rfl

theorem TurnKept.others {s t c q'} (h : TurnKept s t c q') : OthersKept s t c := by
  refine ⟨h.cfg, h.life, h.used, h.product, h.refused, h.collected, h.schedule, h.turns, ?_⟩
  intro d hd; unfold State.client?; rw [h.clients, List.getElem?_set_ne (Ne.symm hd)]

theorem TurnKept.self {s t c q q'} (h : TurnKept s t c q') (hq : s.client? c = some q) : t.client? c = some q' := by
  unfold State.client?; rw [h.clients, List.getElem?_set_self (State.client?_lt hq)]

theorem Settled.status {w t : State} {i after c pc q q'} (h : Settled w t i after c pc q q') (hi : i ≠ .tableScan) : t.scanStatus = w.scanStatus := by
  rcases h.phase with ⟨_, res, _, h⟩ | ⟨h, _⟩
  · rw [h]; simp [endStatus, hi]
  · exact h

theorem Turned.tables {s t : State} {i c q q'} (h : Turned s t i c q q') (hi : i ≠ .tableScan) : t.table = s.table ∧ t.scanStatus = s.scanStatus := by
  cases h with
  | idle h he => subst h; exact ⟨rfl, rfl⟩
  | performed pc stage m hp hs hm h =>
    cases h with
    | held h he => subst h; exact ⟨rfl, rfl⟩
    | acted w q1 hs ha =>
      obtain ⟨_, _, _, _, hw⟩ := ha.shape
      have h1 := hs.status hi
      have h2 := hs.table (fun b hb => hi ((seq_latches hm).2 ⟨b, hb⟩))
      subst hw; exact ⟨h2, h1⟩
    | late b w hw hb ha hl hp =>
      subst hw
      rcases hp with ⟨_, _, rfl⟩ | ⟨L1, hres, hs, _⟩
      · exact ⟨rfl, rfl⟩
      · exact ⟨hs.table (fun b hb => hi ((seq_latches hm).2 ⟨b, hb⟩)), hs.status hi⟩
  | aborted pc e hp hl h he =>
    rw [h]; simp only [State.complete, routineOf_ended_eq]
    exact ⟨rfl, by simp [endStatus, hi]⟩

theorem Turned.latch {s t : State} {i c q q'} (h : Turned s t i c q q') :
    (∀ l, l ∉ latchesOf i → q'.latches.read l = q.latches.read l) ∧ (q'.latches.res ≠ q.latches.res → q'.phase = .complete) := by
  cases h with
  | idle h he => subst he; exact ⟨fun _ _ => rfl, fun h => absurd rfl h⟩
  | performed pc stage m hp hs hm h =>
    cases h with
    | held h he => subst he; exact ⟨fun _ _ => rfl, fun h => absurd rfl h⟩
    | acted w q1 hs ha =>
      refine ⟨fun l hl => ?_, fun hr => ?_⟩
      · rw [hs.latches, ha.latches]; intro hm'; exact hl ((seq_latches hm).1 l hm')
      · rcases hs.phase with ⟨h, _⟩ | ⟨_, h, _⟩
        · exact h
        · exact absurd (h.trans ha.res) hr
    | late b w hw hb ha hl hp =>
      refine ⟨fun l _ => hl l, fun hr => ?_⟩
      rcases hp with ⟨_, h, _⟩ | ⟨L1, hres, hs, _⟩
      · exact absurd h hr
      · rcases hs.phase with ⟨h, _⟩ | ⟨_, h, _⟩
        · exact h
        · exact absurd (h.trans hres) hr
  | aborted pc e hp hl h he => subst he; exact ⟨fun l _ => by cases l <;> rfl, fun _ => rfl⟩

/-- A run turn's event and what it does to the lock. -/
def EvOk (s t : State) (c : Nat) : Prop :=
  (t.trace = s.trace ∧ t.lock = s.lock) ∨ (t.trace = s.trace ++ [.acquire c] ∧ s.lock = .free ∧ t.lock = .held c) ∨
  (t.trace = s.trace ++ [.release c] ∧ s.lock = .held c ∧ t.lock = .free) ∨
  (t.lock = s.lock ∧ ∃ p b, (p = s.cfg.portCmd ∨ p = s.cfg.portData) ∧ ∃ e, (e = .input c p b ∨ e = .output c p b) ∧ t.trace = s.trace ++ [e])

theorem Settled.tl {w t : State} {i after c pc q q'} (h : Settled w t i after c pc q q') : t.trace = w.trace ∧ t.lock = w.lock := by
  obtain ⟨_, _, rfl⟩ := h.shape; exact ⟨rfl, rfl⟩

theorem Turned.ev {s t : State} {i c q q'} (h : Turned s t i c q q') : EvOk s t c := by
  cases h with
  | idle h he => subst h; exact Or.inl ⟨rfl, rfl⟩
  | performed pc stage m hp hs hm h =>
    cases h with
    | held h he => subst h; exact Or.inl ⟨rfl, rfl⟩
    | acted w q1 hs ha =>
      unfold EvOk
      rw [hs.tl.1, hs.tl.2]
      rcases ha.event with h | h | h | ⟨h, ⟨b, hb⟩, _⟩ | ⟨h, ⟨b, hb⟩, _⟩ | ⟨h, ⟨b, hb⟩, _⟩ | ⟨h, b, hb, _⟩
      · exact Or.inl ⟨h.1, h.2.1⟩
      · exact Or.inr (Or.inl ⟨h.1, h.2.1, h.2.2.1⟩)
      · exact Or.inr (Or.inr (Or.inl ⟨h.1, h.2.1, h.2.2.1⟩))
      · exact Or.inr (Or.inr (Or.inr ⟨h, _, _, Or.inl rfl, _, Or.inr rfl, hb⟩))
      · exact Or.inr (Or.inr (Or.inr ⟨h, _, _, Or.inr rfl, _, Or.inr rfl, hb⟩))
      · exact Or.inr (Or.inr (Or.inr ⟨h, _, _, Or.inr rfl, _, Or.inl rfl, hb⟩))
      · exact Or.inr (Or.inr (Or.inr ⟨h, _, _, Or.inl rfl, _, Or.inl rfl, hb⟩))
    | late b w hw hb ha hl hp =>
      refine Or.inr (Or.inr (Or.inr ?_))
      subst hw
      rcases hp with ⟨_, _, rfl⟩ | ⟨L1, hres, hs, _⟩
      · exact ⟨rfl, _, _, Or.inl rfl, _, Or.inl rfl, rfl⟩
      · rw [hs.tl.1, hs.tl.2]; exact ⟨rfl, _, _, Or.inl rfl, _, Or.inl rfl, rfl⟩
  | aborted pc e hp hl h he =>
    rw [h]; simp only [State.complete, routineOf_ended_eq]
    exact Or.inr (Or.inr (Or.inl ⟨rfl, hl, rfl⟩))

theorem exec_ev {s t : State} {i : Instr} {c : Nat} (hn : s.now = .run c) (h : exec i s = .next t) : EvOk s t c := by
  rcases exec_run hn h with ⟨_, rfl⟩ | ⟨q, q', hq, hT⟩
  · exact Or.inl ⟨rfl, rfl⟩
  · exact hT.ev

theorem issued_frame (i : Instr) (s : State) : ((routineOf i).issued s).clients = s.clients ∧ ((routineOf i).issued s).trace = s.trace ∧ ((routineOf i).issued s).cfg = s.cfg
   ∧ ((routineOf i).issued s).lock = s.lock ∧ ((routineOf i).issued s).life = s.life ∧ (i ≠ .tableScan → (routineOf i).issued s = s) ∧ (i = .tableScan → ((routineOf i).issued s).scanStatus = .running) := by
  cases i <;> simp [routineOf] <;> exact ⟨rfl, rfl, rfl, rfl, rfl, rfl⟩
theorem issue_frame (s : State) (i : Instr) (c : Nat) :
    (s.issue i (routineOf i) c).trace = s.trace ∧ (s.issue i (routineOf i) c).lock = s.lock := by
  unfold State.issue
  split
  · exact ⟨(issued_frame i s).2.1, (issued_frame i s).2.2.2.1⟩
  · exact ⟨rfl, rfl⟩

end Sys2Proof.Machine
end

