-- ==== Sys2Proof/Laws/Invariant.lean ====
section
/-!
SUPPORT. Each shared operation, from a state that meets the invariant, answers a next state that meets it
again: the parts that a proof about a whole step puts together.
-/
namespace Sys2Proof.Machine

/-- The lock that a longer trace leaves. -/
theorem lockAfter_append (l : Lock) (es fs : List Event) :
    lockAfter l (es ++ fs) = (lockAfter l es).bind (fun l' => lockAfter l' fs) := by
  induction es generalizing l with
  | nil => rfl
  | cons e es ih =>
    cases e <;> simp only [List.cons_append, lockAfter] <;> split <;> simp [ih]

/-! ## The counters' ranges (R31, R134) -/

theorem Latches.InRange.congr {L L' : Latches} {k : Config} (h : L.InRange k) (hp : L'.poll = L.poll)
    (hs : L'.spoll = L.spoll) (hi : L'.idx = L.idx) : L'.InRange k :=
  ⟨by rw [hp]; exact h.poll, by rw [hs]; exact h.spoll, by rw [hi]; exact h.idx⟩

theorem Latches.InRange.setPoll {L : Latches} {k : Config} (h : L.InRange k) {n : Nat} (hn : n ≤ k.maxPoll) :
    ({ L with poll := some n } : Latches).InRange k :=
  ⟨fun m hm => by cases hm; exact hn, h.spoll, h.idx⟩

theorem Latches.InRange.setSpoll {L : Latches} {k : Config} (h : L.InRange k) {n : Nat} (hn : n ≤ k.smbMaxPoll) :
    ({ L with spoll := some n } : Latches).InRange k :=
  ⟨h.poll, fun m hm => by cases hm; exact hn, h.idx⟩

theorem Latches.InRange.setIdx {L : Latches} {k : Config} (h : L.InRange k) {n : Nat} (hn : n ≤ k.nTbl) :
    ({ L with idx := some n } : Latches).InRange k :=
  ⟨h.poll, h.spoll, fun m hm => by cases hm; exact hn⟩

theorem Latches.InRange.writeAll {L : Latches} {k : Config} (h : L.InRange k) (b : Byte) (ls : List Latch) :
    (L.writeAll b ls).InRange k :=
  h.congr (Latches.writeAll_counter L b ls .poll) (Latches.writeAll_counter L b ls .spoll)
    (Latches.writeAll_counter L b ls .idx)

theorem Latches.InRange.starting {L : Latches} {k : Config} (h : L.InRange k) (x : Option Counter) : (L.starting x).InRange k :=
  ⟨Latches.starting_bound (n := .poll) (Nat.zero_le _) h.poll, Latches.starting_bound (n := .spoll) (Nat.zero_le _) h.spoll,
    Latches.starting_bound (n := .idx) (Nat.zero_le _) h.idx⟩

theorem Latches.inRange_empty (k : Config) : ({} : Latches).InRange k :=
  ⟨by simp, by simp, by simp⟩

theorem Latches.inRange_ofRequest (k : Config) (i : Instr) : (Latches.ofRequest i).InRange k :=
  ⟨by simp [Latches.ofRequest], by simp [Latches.ofRequest], by simp [Latches.ofRequest]⟩

/-- The rest of the invariant while client `c`'s sequencer is in hand. -/
structure Mid (s : State) (c : Nat) : Prop where
  config : s.cfg.wf = true
  attached : s.life = .attached
  clients : s.clients.length = s.cfg.nClients
  table : s.table.length = s.cfg.nTbl
  exclusion : lockAfter .free s.trace = some s.lock
  owner : ∀ d, s.lock = .held d → d < s.clients.length
  here : c < s.clients.length
  others : ∀ d q, d ≠ c → s.client? d = some q → ClientOk s d q

/-- Taking one client's sequencer in hand. -/
theorem Inv.mid {s : State} (h : Inv s) {c : Nat} {q : Sequencer} (hq : s.client? c = some q) : Mid s c := by
  have hlt := State.client?_lt hq
  have hl : s.life = .attached := by
    cases hl : s.life with
    | attached => rfl
    | detached => have := (h.gone hl).1; simp [this] at hlt
  exact ⟨h.config, hl, (h.shape hl).1, (h.shape hl).2, h.exclusion, h.owner, hlt, fun d q' _ hd => h.sequencers d q' hd⟩

/-- A sequencer is sound in every state that agrees on the configuration and on whether it holds the lock. -/
theorem ClientOk.congr {s t : State} {d : Nat} {q : Sequencer} (hc : t.cfg = s.cfg)
    (hl : t.lock = .held d ↔ s.lock = .held d) (h : ClientOk s d q) : ClientOk t d q := by
  refine ⟨hc ▸ h.inRange, ?_⟩
  have hp := h.phase
  unfold PhaseOk at *
  split at hp
  · simpa [hl] using hp
  · simpa [hl] using hp
  · obtain ⟨i, hb⟩ := hp
    refine ⟨i, ?_⟩
    exact ⟨hb.operation, by rw [hc]; exact hb.inRange, by rw [hc]; exact hb.position, by rw [hl, hc]; exact hb.holds,
      fun e he => ⟨hl.mpr (hb.aborting e he).1, (hb.aborting e he).2⟩, by rw [hc]; exact hb.polling,
      by rw [hc]; exact hb.written, by rw [hc]; exact hb.started, by rw [hc]; exact hb.scanning,
      by rw [hc]; exact hb.idling⟩

/-- Moving along a change that one client's step may make. -/
theorem Mid.congr {s t : State} {c : Nat} (h : Mid s c) (hc : t.cfg = s.cfg) (hlife : t.life = s.life)
    (hcl : t.clients = s.clients) (ht : t.table.length = s.table.length)
    (hx : lockAfter .free t.trace = some t.lock)
    (hlock : t.lock = .free ∨ t.lock = .held c ∨ t.lock = s.lock) (hs : s.lock = .free ∨ s.lock = .held c ∨ t.lock = s.lock) : Mid t c := by
  refine ⟨hc ▸ h.config, hlife ▸ h.attached, ?_, ?_, hx, ?_, by rw [hcl]; exact h.here, ?_⟩
  · rw [hcl, hc]; exact h.clients
  · rw [ht, hc]; exact h.table
  · intro d hd
    rw [hcl]
    rcases hlock with h1 | h1 | h1
    · rw [h1] at hd; cases hd
    · rw [h1] at hd; cases hd; exact h.here
    · exact h.owner d (h1 ▸ hd)
  · intro d q hne hd
    have hd' : s.client? d = some q := by simpa [State.client?, hcl] using hd
    refine ClientOk.congr hc ?_ (h.others d q hne hd')
    have hne' : ¬ c = d := fun e => hne e.symm
    rcases hlock with h1 | h1 | h1 <;> rcases hs with h2 | h2 | h2 <;> simp_all

/-- Putting a sound sequencer back. -/
theorem Mid.close {s : State} {c : Nat} (h : Mid s c) {q : Sequencer} (hq : ClientOk s c q) : Inv (s.setClient c q) := by
  refine ⟨h.config, fun _ => ⟨by simpa using h.clients, h.table⟩, ?_, h.exclusion, by simpa using h.owner, ?_⟩
  · intro hd; have hl : s.life = .detached := hd; rw [h.attached] at hl; cases hl
  · intro d q' hd
    by_cases hdc : d = c
    · subst hdc
      rw [State.client?_setClient_self _ _ h.here] at hd
      cases hd
      exact ClientOk.congr (s := s) rfl Iff.rfl hq
    · rw [State.client?_setClient_ne _ _ hdc] at hd
      exact ClientOk.congr (s := s) rfl Iff.rfl (h.others d q' hdc hd)

/-- Where a sequencer in hand stands. -/
structure At (s : State) (c : Nat) (L : Latches) (i : Instr) (pc : Nat) : Prop where
  operation : L.operation = some i
  inRange : i.wellFormed s.cfg.nTbl = true
  holds : s.lock = .held c ↔ heldBefore (seqOf s.cfg i) pc = true
  written : ∀ l ∈ writtenBefore (seqOf s.cfg i) pc, (L.read l).isSome
  started : ∀ n ∈ startedBefore (seqOf s.cfg i) pc, (L.readCounter n).isSome
  scanning : storesFrom (seqOf s.cfg i) pc = true → ∀ n, L.idx = some n → n < s.cfg.nTbl
  idling : pollsFrom (seqOf s.cfg i) pc = true → ∀ n, L.spoll = some n → n < s.cfg.smbMaxPoll
  counters : L.InRange s.cfg

/-- At the end of its sequence an operation's result is there. -/
theorem value_ok {s : State} {c : Nat} {L : Latches} {i : Instr} (h : At s c L i (seqOf s.cfg i).length)
    (ht : s.table.length = s.cfg.nTbl) : ∃ v, (routineOf i).value s L = .ok v := by
  have hn : ∀ l ∈ valueNeeds i, ∃ b, L.need l = .ok b ∧ L.read l = some b := by
    intro l hl
    have := valueNeeds_written s.cfg i
    simp only [List.all_eq_true] at this
    exact Latches.need_some (h.written l (by simpa using this l hl))
  cases i
  case tableRead index =>
    obtain ⟨b, hb, hb'⟩ := hn .a0 (by simp [valueNeeds])
    obtain ⟨op, a0, a1, a2, a3, h1, h2, h3, h4, h5, hd⟩ := Latches.operation_fields h.operation
    have he := decodeFields_encode hd
    simp [encode, Instr.operands] at he
    have hb2 : b = index := by
      simp [Latches.read] at hb'; rw [h2] at hb'; cases hb'; exact he.2.1.symm
    have hr := h.inRange
    simp [Instr.wellFormed] at hr
    have hlt : b.toNat < s.table.length := by rw [ht, hb2]; exact hr
    refine ⟨entryValue s.table[b.toNat], ?_⟩
    simp [routineOf, tableReadRoutine, tableReadResult, hb, bind, Except.bind, pure, Except.pure, hlt]
  case adRead =>
    obtain ⟨b, hb, _⟩ := hn .msb (by simp [valueNeeds])
    obtain ⟨b2, hb2, _⟩ := hn .lsb (by simp [valueNeeds])
    obtain ⟨b3, hb3, _⟩ := hn .a1 (by simp [valueNeeds])
    exact ⟨_, by simp only [routineOf, adReadRoutine, adResult, hb, hb2, hb3]; rfl⟩
  case smbReadWord =>
    obtain ⟨b, hb, _⟩ := hn .d0 (by simp [valueNeeds])
    obtain ⟨b2, hb2, _⟩ := hn .d1 (by simp [valueNeeds])
    exact ⟨_, by simp only [routineOf, smbReadWordRoutine, smbWordResult, hb, hb2]; rfl⟩
  case smbReadByte =>
    obtain ⟨b, hb, _⟩ := hn .d0 (by simp [valueNeeds])
    exact ⟨_, by simp only [routineOf, smbReadByteRoutine, latchValue, hb]; rfl⟩
  all_goals first
    | exact ⟨0, rfl⟩
    | (obtain ⟨b, hb, _⟩ := hn .v (by simp [valueNeeds])
       exact ⟨byteValue b, by
         simp only [routineOf, ramReadRoutine, acpiReadRoutine, gpioStatusReadRoutine, gpioDirReadRoutine, onekeyReadRoutine,
           oemReadRoutine, latchValue, hb]; rfl⟩)

/-- The end of an operation keeps what the invariant says. -/
theorem Mid.ended {s : State} {c : Nat} (h : Mid s c) (i : Instr) (res : Response) : Mid ((routineOf i).ended res s) c := by
  obtain ⟨st, hst⟩ := routineOf_ended i res s
  rw [hst]
  exact h.congr rfl rfl rfl rfl h.exclusion (Or.inr (Or.inr rfl)) (Or.inr (Or.inr rfl))

/-- Ending an operation (R127, R129). -/
theorem complete_inv {s : State} {c : Nat} (h : Mid s c) (i : Instr) (q : Sequencer) (res : Response) (hl : s.lock ≠ .held c)
    (hop : q.latches.operation = some i) (hr : q.latches.InRange s.cfg) (hm : mayEndWith i res = true) :
    Inv (s.complete (routineOf i) c q res) := by
  unfold State.complete
  apply (h.ended i res).close
  obtain ⟨st, hst⟩ := routineOf_ended i res s
  rw [hst]
  exact ⟨hr.congr rfl rfl rfl, hl, i, res, hop, rfl, hm⟩

/-- Going on to the next step, or ending. -/
theorem goto_inv {s : State} {c pc : Nat} {q : Sequencer} {i : Instr} (h : Mid s c) (ha : At s c q.latches i pc)
    (hpc : pc ≤ (seqOf s.cfg i).length) : ∃ t, s.goto (routineOf i) c pc q = .next t ∧ Inv t := by
  unfold State.goto
  by_cases hlt : pc < ((routineOf i).seq s.cfg).length
  · simp only [hlt, if_true]
    refine ⟨_, rfl, h.close ⟨ha.counters, ?_⟩⟩
    exact ⟨i, ha.operation, ha.inRange, hlt, ha.holds, by simp, by simp, ha.written, ha.started, ha.scanning,
      fun _ => ha.idling⟩
  · simp only [hlt, if_false]
    have hpc' : pc = (seqOf s.cfg i).length := le_antisymm hpc (not_lt.mp hlt)
    subst hpc'
    obtain ⟨v, hv⟩ := value_ok ha h.table
    rw [hv]
    refine ⟨_, rfl, complete_inv h i q _ ?_ ha.operation ha.counters (mayEndWith_ok i v)⟩
    rw [ne_eq, ha.holds, (seq_end s.cfg i).1]; simp

/-- A sequencer whose step `pc` has been performed, its internal work still to do. -/
structure Post (s : State) (c : Nat) (L : Latches) (i : Instr) (pc : Nat) : Prop where
  operation : L.operation = some i
  inRange : i.wellFormed s.cfg.nTbl = true
  holds : s.lock = .held c ↔ heldBefore (seqOf s.cfg i) (pc + 1) = true
  written : ∀ l ∈ writtenBefore (seqOf s.cfg i) (pc + 1), (L.read l).isSome
  started : ∀ n ∈ startedBefore (seqOf s.cfg i) (pc + 1), (L.readCounter n).isSome
  scanning : storesFrom (seqOf s.cfg i) pc = true → ∀ n, L.idx = some n → n < s.cfg.nTbl
  idling : pollsFrom (seqOf s.cfg i) pc = true → ∀ n, L.spoll = some n → n < s.cfg.smbMaxPoll
  counters : L.InRange s.cfg

/-- Taking an error (R127). -/
theorem raise_inv {s : State} {c pc : Nat} {q : Sequencer} {i : Instr} {e : Response} (h : Mid s c) (hp : pc < (seqOf s.cfg i).length)
    (hop : q.latches.operation = some i) (hr : i.wellFormed s.cfg.nTbl = true)
    (hl : s.lock = .held c → heldBefore (seqOf s.cfg i) pc = true)
    (hw : ∀ l ∈ writtenBefore (seqOf s.cfg i) pc, (q.latches.read l).isSome)
    (hs : ∀ n ∈ startedBefore (seqOf s.cfg i) pc, (q.latches.readCounter n).isSome)
    (hsc : storesFrom (seqOf s.cfg i) pc = true → ∀ n, q.latches.idx = some n → n < s.cfg.nTbl)
    (hc : q.latches.InRange s.cfg) (he : e.isError = true) (hm : mayEndWith i e = true) :
    Inv (s.raise (routineOf i) c pc q e) := by
  unfold State.raise
  split
  · rename_i hlock
    exact h.close ⟨hc, i, hop, hr, hp, by simp [hlock, hl hlock],
      fun _ h => by cases h; exact ⟨hlock, he, hm⟩, by simp, hw, hs, hsc, fun h => absurd rfl (h e)⟩
  · rename_i hlock
    exact complete_inv h i q e hlock hop hc hm

/-- The bounds of R9 that proofs use. -/
theorem cfg_nTbl {k : Config} (h : k.wf = true) : 0 < k.nTbl ∧ 0 < k.maxPoll ∧ 0 < k.smbMaxPoll := by
  simp [Config.wf, Config.countsOk] at h
  omega

/-- The internal work after a step. -/
theorem settle_inv {s : State} {c pc : Nat} {q : Sequencer} {i : Instr} {m : Micro} (h : Mid s c)
    (hm : (seqOf s.cfg i)[pc]? = some m) (hp : Post s c q.latches i pc) :
    ∃ t, s.settle (routineOf i) m.after c pc q = .next t ∧ Inv t := by
  have hlt := (List.getElem?_eq_some_iff.mp hm).1
  have hok := (seq_micro hm).2.1
  have hst : ∀ k ∈ startedBefore (seqOf s.cfg i) pc, (q.latches.readCounter k).isSome :=
    fun k hk => hp.started k (startedBefore_mono (Nat.le_succ pc) k hk)
  have hsf := storesFrom_succ hm
  have hpf := pollsFrom_succ hm
  have her := seq_errors (List.mem_of_getElem? hm)
  simp only [errorsOk, Bool.and_eq_true] at her
  replace her := her.2
  have hmono := writtenBefore_mono (seq := seqOf s.cfg i) (Nat.le_succ pc)
  unfold State.settle
  generalize haf : m.after = af at *
  cases af with
  | proceed =>
    exact goto_inv h ⟨hp.operation, hp.inRange, hp.holds, hp.written, hp.started,
      by simpa [hsf] using hp.scanning,
      by simpa [hpf] using hp.idling, hp.counters⟩ hlt
  | checkTarget =>
    simp only [afterOk, Bool.and_eq_true, List.contains_iff_mem] at hok
    obtain ⟨b, hb, _⟩ := Latches.need_some (hp.written _ hok.1)
    simp only [hb, attempt]
    split
    · refine ⟨_, rfl, raise_inv h hlt hp.operation hp.inRange ?_ (fun l hl => hp.written l (hmono l hl)) hst hp.scanning
        hp.counters rfl her⟩
      intro hl
      have := hp.holds.mp hl
      simpa [this] using hok.2
    · exact goto_inv h ⟨hp.operation, hp.inRange, hp.holds, hp.written, hp.started,
        by simpa [hsf] using hp.scanning,
      by simpa [hpf] using hp.idling, hp.counters⟩ hlt
  | checkTable =>
    simp only [afterOk, Bool.and_eq_true, List.contains_iff_mem] at hok
    obtain ⟨b, hb, _⟩ := Latches.need_some (hp.written _ hok.1)
    simp only [hb, attempt]
    split
    · refine ⟨_, rfl, raise_inv h hlt hp.operation hp.inRange ?_ (fun l hl => hp.written l (hmono l hl)) hst hp.scanning
        hp.counters rfl her⟩
      intro hl
      have := hp.holds.mp hl
      simpa [this] using hok.2
    · exact goto_inv h ⟨hp.operation, hp.inRange, hp.holds, hp.written, hp.started,
        by simpa [hsf] using hp.scanning,
      by simpa [hpf] using hp.idling, hp.counters⟩ hlt
  | checkStatus =>
    simp only [afterOk, Bool.and_eq_true, List.contains_iff_mem] at hok
    obtain ⟨b, hb, _⟩ := Latches.need_some (hp.written _ hok.1)
    simp only [hb, attempt]
    split
    · exact goto_inv h ⟨hp.operation, hp.inRange, hp.holds, hp.written, hp.started,
        by simpa [hsf] using hp.scanning,
      by simpa [hpf] using hp.idling, hp.counters⟩ hlt
    · refine ⟨_, rfl, raise_inv h hlt hp.operation hp.inRange ?_ (fun l hl => hp.written l (hmono l hl)) hst hp.scanning
        hp.counters rfl (by rw [mayEndWith_smbusError i b 0]; exact her)⟩
      intro hl
      have := hp.holds.mp hl
      simpa [this] using hok.2
  | checkIdle back =>
    simp only [afterOk, Bool.and_eq_true, List.contains_iff_mem, decide_eq_true_eq, beq_iff_eq, Bool.not_eq_true'] at hok
    obtain ⟨⟨⟨⟨⟨h1, h2⟩, h3⟩, h4⟩, h5⟩, h6⟩ := hok
    obtain ⟨b, hb, _⟩ := Latches.need_some (hp.written _ h1)
    obtain ⟨n, hn, hn'⟩ := Latches.count_some (hst _ h2)
    simp only [hb, attempt]
    split
    · exact goto_inv h ⟨hp.operation, hp.inRange, hp.holds, hp.written, hp.started,
        by simpa [hsf] using hp.scanning,
        fun _ n' hn' => hp.idling (by simp [hpf]) n' hn', hp.counters⟩ hlt
    · simp only [hn]
      have hstart : ∀ k ∈ startedBefore (seqOf s.cfg i) (pc + 1),
          (Latches.readCounter { q.latches with spoll := some (n + 1) } k).isSome := by
        intro k hk
        have := hp.started k hk
        cases k <;> simp_all [Latches.readCounter]
      have hbound : n + 1 ≤ s.cfg.smbMaxPoll := hp.idling (by simp [hpf]) n hn'
      split
      · refine ⟨_, rfl, raise_inv h hlt hp.operation hp.inRange ?_ (fun l hl => hp.written l (hmono l hl))
          (fun k hk => hstart k (startedBefore_mono (Nat.le_succ pc) k hk)) hp.scanning
          (hp.counters.setSpoll hbound) rfl her⟩
        intro hl
        have := hp.holds.mp hl
        simpa [this] using h4
      · rename_i hmore
        refine goto_inv h ⟨hp.operation, hp.inRange, ?_, ?_, ?_, ?_, fun _ k hk => by cases hk; omega,
          hp.counters.setSpoll hbound⟩ ?_
        · rw [h5]; exact hp.holds
        · intro l hl
          exact hp.written l (writtenBefore_mono (by omega) l hl)
        · intro k hk
          exact hstart k (startedBefore_mono (by omega) k hk)
        · rw [h6]; simp
        · omega
  | storeEntry back =>
    simp only [afterOk, Bool.and_eq_true, List.contains_iff_mem, decide_eq_true_eq, beq_iff_eq, Bool.not_eq_true'] at hok
    obtain ⟨⟨⟨⟨⟨⟨h1, h2⟩, h3⟩, h4⟩, h5⟩, h6⟩, h7⟩ := hok
    obtain ⟨d, hd, _⟩ := Latches.need_some (hp.written _ h1)
    obtain ⟨p, hpn, _⟩ := Latches.need_some (hp.written _ h2)
    obtain ⟨n, hn, hn'⟩ := Latches.count_some (hst _ h3)
    have hnl : n < s.table.length := by
      rw [h.table]
      exact hp.scanning (by simp [hsf]) n hn'
    simp only [hd, hpn, hn, attempt, hnl, if_true]
    have hmid : Mid (s.writeEntry n d p) c :=
      h.congr rfl rfl rfl (by simp) h.exclusion (Or.inr (Or.inr rfl)) (Or.inr (Or.inr rfl))
    have hstart : ∀ k ∈ startedBefore (seqOf s.cfg i) (pc + 1),
        (Latches.readCounter { q.latches with idx := some (n + 1) } k).isSome := by
      intro k hk
      have := hp.started k hk
      cases k <;> simp_all [Latches.readCounter]
    split
    · rename_i hlast
      refine goto_inv hmid ⟨hp.operation, hp.inRange, ?_, ?_, ?_, ?_, ?_, hp.counters.setIdx (Nat.le_of_lt hlast)⟩
        (show _ ≤ (seqOf s.cfg i).length by omega)
      · show s.lock = _ ↔ heldBefore (seqOf s.cfg i) _ = true
        rw [h5]; exact hp.holds
      · intro l hl
        exact hp.written l (writtenBefore_mono (by omega) l hl)
      · intro k hk
        exact hstart k (startedBefore_mono (by omega) k hk)
      · intro _ k hk
        simp at hk
        subst hk
        exact hlast
      · show pollsFrom (seqOf s.cfg i) _ = true → _
        rw [h7]; simp
    · refine goto_inv hmid ⟨hp.operation, hp.inRange, hp.holds, hp.written, ?_, ?_,
        by simpa [hpf] using hp.idling, hp.counters.setIdx (h.table ▸ hnl)⟩ (show _ ≤ (seqOf s.cfg i).length by omega)
      · intro k hk
        exact hstart k hk
      · show storesFrom (seqOf s.cfg i) (pc + 1) = true → _
        rw [h6]; simp

/-- A counter that starts leaves a sound sequencer sound. -/
theorem BusyOk.starting {s : State} {c pc : Nat} {L : Latches} {i : Instr} {stage : Stage} (hw : s.cfg.wf = true)
    (hb : BusyOk s c L i pc stage) (x : Option Counter) : BusyOk s c (L.starting x) i pc stage := by
  refine ⟨by simpa using hb.operation, hb.inRange, hb.position, hb.holds, hb.aborting, fun h => ?_, by simpa using hb.written,
    fun n hn => Latches.starting_isSome (Or.inr (hb.started n hn)),
    fun h => Latches.starting_bound (n := .idx) (cfg_nTbl hw).1 (hb.scanning h),
    fun h h' => Latches.starting_bound (n := .spoll) (cfg_nTbl hw).2.2 (hb.idling h h')⟩
  obtain ⟨n, hn, hlt⟩ := hb.polling h
  have hx := Latches.readCounter_starting L x .poll
  simp only [Latches.readCounter] at hx
  exact ⟨n, by rw [hx, hn]; split <;> rfl, hlt⟩

/-- One status read of a wait (R78, R79). -/
theorem poll_inv {s : State} {c pc : Nat} {q : Sequencer} {i : Instr} {m : Micro} {stage : Stage} {done : Byte → Bool} (h : Mid s c)
    (hm : (seqOf s.cfg i)[pc]? = some m) (hw : m.act = .waitIbf ∨ m.act = .waitObf) (hb : BusyOk s c q.latches i pc stage)
    (hcr : q.latches.InRange s.cfg) (hna : ∀ e, stage ≠ .abort e)
    (hst : ∀ k, m.starts = some k → (q.latches.readCounter k).isSome) :
    ∃ t, s.pollStep (routineOf i) m.after c pc q stage done = .next t ∧ Inv t := by
  have hlt := (List.getElem?_eq_some_iff.mp hm).1
  have hheld : heldBefore (seqOf s.cfg i) pc = true := by
    have := (seq_micro hm).1
    rcases hw with hw | hw <;> rw [hw] at this <;> simpa [actOk] using this
  have hlock := hb.holds.mpr hheld
  have hheld' : heldBefore (seqOf s.cfg i) (pc + 1) = true := by
    rw [heldBefore_succ hm]; rcases hw with hw | hw <;> rw [hw] <;> simpa [Act.holdsAfter] using hheld
  have hwr : m.writes = [] := by
    rcases hw with hw | hw <;> simp [Micro.writes, hw]
  have hmid : Mid (s.portIn c .command) c :=
    h.congr rfl rfl rfl rfl (by simp [lockAfter_append, h.exclusion, lockAfter, hlock]) (Or.inr (Or.inr rfl)) (Or.inr (Or.inr rfl))
  have her : mayEndWith i .timeout = true := by
    have := seq_errors (List.mem_of_getElem? hm)
    simp only [errorsOk, Bool.and_eq_true] at this
    rcases hw with hw | hw <;> rw [hw] at this <;> exact this.1
  have hcount : ∃ n, (if stage = .again then q.latches.count .poll else .ok 0) = .ok n ∧ n < s.cfg.maxPoll := by
    by_cases hst : stage = .again
    · obtain ⟨n, hn, hlt⟩ := hb.polling hst
      exact ⟨n, by simp [hst, Latches.count, Latches.readCounter, hn], hlt⟩
    · exact ⟨0, by simp [hst], (cfg_nTbl h.config).2.1⟩
  obtain ⟨n, hn, hnlt⟩ := hcount
  have hidle := hb.idling hna
  have hstart' : ∀ m' k, k ∈ startedBefore (seqOf s.cfg i) (pc + 1) →
      (Latches.readCounter { q.latches with poll := some m' } k).isSome := by
    intro m' k hk
    rw [startedBefore_succ hm, List.mem_append, Option.mem_toList] at hk
    have := hk.elim (hb.started k) (hst k)
    cases k <;> simp_all [Latches.readCounter]
  have hstart := fun m' k hk => hstart' m' k (startedBefore_mono (Nat.le_succ pc) k hk)
  unfold State.pollStep
  rw [hn]
  simp only [attempt]
  split
  · refine settle_inv hmid hm ⟨hb.operation, hb.inRange, ?_, ?_, hstart' n, hb.scanning, hidle, hcr.setPoll hnlt.le⟩
    · exact ⟨fun _ => hheld', fun _ => hlock⟩
    · intro l hl
      have hl : l ∈ writtenBefore (seqOf s.cfg i) (pc + 1) := hl
      rw [writtenBefore_succ hm, hwr, List.append_nil] at hl
      exact hb.written l hl
  · split
    · exact ⟨_, rfl, raise_inv hmid hlt hb.operation hb.inRange (fun _ => hheld) hb.written (hstart _) hb.scanning
        (hcr.setPoll hnlt) rfl her⟩
    · rename_i hmore
      refine ⟨_, rfl, hmid.close ⟨hcr.setPoll hnlt, i, hb.operation, hb.inRange, hb.position, hb.holds, by simp,
        fun _ => ⟨n + 1, rfl, ?_⟩, hb.written, hstart _, hb.scanning, fun _ => hidle⟩⟩
      show n + 1 < s.cfg.maxPoll
      have : ¬ n + 1 = s.cfg.maxPoll := hmore
      omega

/-- The act of a step with its internal work. -/
theorem perform_inv {s : State} {c pc : Nat} {q : Sequencer} {i : Instr} {m : Micro} {stage : Stage} (hI : Inv s) (h : Mid s c)
    (hm : (seqOf s.cfg i)[pc]? = some m) (hb : BusyOk s c q.latches i pc stage)
    (hcr : q.latches.InRange s.cfg) (hna : ∀ e, stage ≠ .abort e) :
    ∃ t, s.perform (routineOf i) m c pc q stage = .next t ∧ Inv t := by
  have hok := (seq_micro hm).1
  have hsucc := heldBefore_succ hm
  have hwsucc := writtenBefore_succ hm
  have hstarts := (seq_micro hm).2.2
  have hplain : m.starts = none → ∀ n ∈ startedBefore (seqOf s.cfg i) (pc + 1), (q.latches.readCounter n).isSome :=
    fun hn n hk => hb.started n (by rwa [startedBefore_succ hm, hn, Option.toList_none, List.append_nil] at hk)
  have hpoll := fun done hw => poll_inv (q := { q with latches := q.latches.starting m.starts }) (done := done) h hm hw
    (hb.starting h.config m.starts) (hcr.starting _) hna fun k hk => Latches.starting_isSome (Or.inl hk)
  unfold State.perform
  generalize hact : m.act = act at *
  cases act with
  | acquire =>
    simp only [actOk, Bool.not_eq_true'] at hok
    dsimp only
    split
    · rename_i hfree
      have hmid : Mid (s.acquire c) c :=
        h.congr rfl rfl rfl rfl (by simp [lockAfter_append, h.exclusion, lockAfter, hfree]) (Or.inr (Or.inl rfl)) (Or.inl hfree)
      refine settle_inv hmid hm ⟨hb.operation, hb.inRange, ?_, ?_, hplain (by simpa [startsOk, hact] using hstarts), hb.scanning,
        hb.idling hna, hcr⟩
      · show _ ↔ heldBefore (seqOf s.cfg i) (pc + 1) = true
        simp [hsucc, Act.holdsAfter]
      · show ∀ l ∈ writtenBefore (seqOf s.cfg i) (pc + 1), _
        rw [hwsucc]; simpa [Micro.writes, hact] using hb.written
    · exact ⟨_, rfl, hI⟩
  | waitIbf => exact hpoll _ (Or.inl rfl)
  | waitObf => exact hpoll _ (Or.inr rfl)
  | command b =>
    have hheld : heldBefore (seqOf s.cfg i) pc = true := by simpa [actOk] using hok
    have hlock := hb.holds.mpr hheld
    have hmid : Mid (s.portOut c .command b) c :=
      h.congr rfl rfl rfl rfl (by simp [lockAfter_append, h.exclusion, lockAfter, hlock]) (Or.inr (Or.inr rfl)) (Or.inr (Or.inr rfl))
    refine settle_inv hmid hm ⟨hb.operation, hb.inRange, ?_, ?_, hplain (by simpa [startsOk, hact] using hstarts), hb.scanning,
        hb.idling hna, hcr⟩
    · show _ ↔ heldBefore (seqOf s.cfg i) (pc + 1) = true
      simp [hsucc, Act.holdsAfter, hheld, hlock]
    · show ∀ l ∈ writtenBefore (seqOf s.cfg i) (pc + 1), _
      rw [hwsucc]; simpa [Micro.writes, hact] using hb.written
  | argument src =>
    have hheld : heldBefore (seqOf s.cfg i) pc = true := by cases src <;> simp [actOk] at hok <;> simp [hok]
    have hlock := hb.holds.mpr hheld
    have hbyte : ∃ b, src.byte q.latches = .ok b := by
      cases src with
      | const b => exact ⟨b, rfl⟩
      | latch l =>
        simp [actOk] at hok
        obtain ⟨b, hb', _⟩ := Latches.need_some (hb.written l hok.2)
        exact ⟨b, hb'⟩
      | index =>
        simp [actOk] at hok
        obtain ⟨n, hn, _⟩ := Latches.count_some (hb.started _ hok.2)
        exact ⟨BitVec.ofNat 8 n, by simp [Source.byte, hn, Except.map]⟩
    obtain ⟨b, hbyte⟩ := hbyte
    simp only [hbyte, attempt]
    have hmid : Mid (s.portOut c .data b) c :=
      h.congr rfl rfl rfl rfl (by simp [lockAfter_append, h.exclusion, lockAfter, hlock]) (Or.inr (Or.inr rfl)) (Or.inr (Or.inr rfl))
    refine settle_inv hmid hm ⟨hb.operation, hb.inRange, ?_, ?_, hplain (by simpa [startsOk, hact] using hstarts), hb.scanning,
        hb.idling hna, hcr⟩
    · show _ ↔ heldBefore (seqOf s.cfg i) (pc + 1) = true
      simp [hsucc, Act.holdsAfter, hheld, hlock]
    · show ∀ l ∈ writtenBefore (seqOf s.cfg i) (pc + 1), _
      rw [hwsucc]; simpa [Micro.writes, hact] using hb.written
  | response ls =>
    have hheld : heldBefore (seqOf s.cfg i) pc = true := by simp [actOk] at hok; simp [hok]
    have hlock := hb.holds.mpr hheld
    have hmid : Mid (s.portIn c .data) c :=
      h.congr rfl rfl rfl rfl (by simp [lockAfter_append, h.exclusion, lockAfter, hlock]) (Or.inr (Or.inr rfl)) (Or.inr (Or.inr rfl))
    refine settle_inv hmid hm ⟨?_, hb.inRange, ?_, ?_, ?_, ?_, ?_, hcr.writeAll _ _⟩
    · rw [Latches.operation_congr (L := q.latches)]
      · exact hb.operation
      · intro l hl
        rw [Latches.read_writeAll, if_neg]
        intro hmem
        simp [actOk] at hok
        exact hok.2 l hmem hl
    · show _ ↔ heldBefore (seqOf s.cfg i) (pc + 1) = true
      simp [hsucc, Act.holdsAfter, hheld, hlock]
    · show ∀ l ∈ writtenBefore (seqOf s.cfg i) (pc + 1), _
      intro l hl
      rw [hwsucc, List.mem_append] at hl
      simp only [Latches.read_writeAll]
      split
      · rfl
      · rename_i hnot
        rcases hl with hl | hl
        · exact hb.written l hl
        · simp [Micro.writes, hact] at hl; exact absurd hl hnot
    · intro k hk
      simp only [Latches.writeAll_counter]
      exact hplain (by simpa [startsOk, hact] using hstarts) k hk
    · intro hs n hn
      have : (q.latches.writeAll (s.answer .data) ls).readCounter .idx = q.latches.readCounter .idx := Latches.writeAll_counter _ _ _ _
      exact hb.scanning hs n (by rw [← hn]; exact this.symm)
    · intro hs n hn
      have : (q.latches.writeAll (s.answer .data) ls).readCounter .spoll = q.latches.readCounter .spoll :=
        Latches.writeAll_counter _ _ _ _
      exact hb.idling hna hs n (by rw [← hn]; exact this.symm)
  | release =>
    have hheld : heldBefore (seqOf s.cfg i) pc = true := by simpa [actOk] using hok
    have hlock := hb.holds.mpr hheld
    simp only [hlock, if_true]
    have hmid : Mid (s.release c) c :=
      h.congr rfl rfl rfl rfl (by simp [lockAfter_append, h.exclusion, lockAfter, hlock]) (Or.inl rfl) (Or.inr (Or.inl hlock))
    refine settle_inv hmid hm ⟨hb.operation, hb.inRange, ?_, ?_, hplain (by simpa [startsOk, hact] using hstarts), hb.scanning,
        hb.idling hna, hcr⟩
    · show _ ↔ heldBefore (seqOf s.cfg i) (pc + 1) = true
      simp [hsucc, Act.holdsAfter]
    · show ∀ l ∈ writtenBefore (seqOf s.cfg i) (pc + 1), _
      rw [hwsucc]; simpa [Micro.writes, hact] using hb.written
  | lookup =>
    refine settle_inv h hm ⟨hb.operation, hb.inRange, ?_, ?_, hplain (by simpa [startsOk, hact] using hstarts), hb.scanning,
        hb.idling hna, hcr⟩
    · simp only [hsucc, Act.holdsAfter]; exact hb.holds
    · rw [hwsucc]; simpa [Micro.writes, hact] using hb.written

/-- The next step of a running operation. -/
theorem advance_inv {s : State} {c pc : Nat} {q : Sequencer} {i : Instr} {stage : Stage} (hI : Inv s) (hq : s.client? c = some q)
    (hph : q.phase = .busy pc stage) (hb : BusyOk s c q.latches i pc stage)
    (hcr : q.latches.InRange s.cfg) : ∃ t, s.advance (routineOf i) c = .next t ∧ Inv t := by
  have hmid := hI.mid hq
  unfold State.advance
  rw [hq]
  simp only [hph]
  have hget : ∃ m, (seqOf s.cfg i)[pc]? = some m := ⟨_, List.getElem?_eq_getElem hb.position⟩
  obtain ⟨m, hm⟩ := hget
  have hm' : ((routineOf i).seq s.cfg)[pc]? = some m := hm
  cases stage with
  | abort e =>
    have hlock := (hb.aborting e rfl).1
    simp only [State.abortStep, hlock, if_true]
    have hmid' : Mid (s.release c) c :=
      hmid.congr rfl rfl rfl rfl (by simp [lockAfter_append, hmid.exclusion, lockAfter, hlock]) (Or.inl rfl) (Or.inr (Or.inl hlock))
    exact ⟨_, rfl, complete_inv hmid' i q e (by simp) hb.operation hcr (hb.aborting e rfl).2.2⟩
  | start => simp only [hm']; exact perform_inv hI hmid hm hb hcr (by simp)
  | again => simp only [hm']; exact perform_inv hI hmid hm hb hcr (by simp)

/-- What an issue sets beside the sequencer. -/
theorem routineOf_issued (i : Instr) (s : State) : (routineOf i).issued s = s ∨
    (routineOf i).issued s = { s with scanStatus := .running, table := List.replicate s.cfg.nTbl .undefined } := by
  cases i <;> first | exact Or.inl rfl | exact Or.inr rfl

/-- An admitted operation has its operands in range (R75, item 4). -/
theorem admits_wellFormed (i : Instr) (s : State) (h : (routineOf i).admits s = true) : i.wellFormed s.cfg.nTbl = true := by
  cases i <;> first | rfl | exact h

theorem seq_start (k : Config) (i : Instr) : heldBefore (seqOf k i) 0 = false := rfl

/-- The issue step (R75). -/
theorem issue_inv {s : State} (h : Inv s) (i : Instr) (c : Nat) : Inv (s.issue i (routineOf i) c) := by
  unfold State.issue
  split
  · rename_i hc
    obtain ⟨hlife, hph, hadm⟩ := hc
    obtain ⟨q, hq, hph⟩ := State.phase?_some hph
    have hmid := h.mid hq
    have hnl : s.lock ≠ .held c := by
      have := (h.sequencers c q hq).phase
      simpa [PhaseOk, hph] using this
    have hmid' : Mid ((routineOf i).issued s) c := by
      rcases routineOf_issued i s with e | e <;> rw [e]
      · exact hmid
      · exact hmid.congr rfl rfl rfl (by simp [hmid.table]) hmid.exclusion (Or.inr (Or.inr rfl)) (Or.inr (Or.inr rfl))
    have hcfg : ((routineOf i).issued s).cfg = s.cfg := by rcases routineOf_issued i s with e | e <;> rw [e]
    have hlock : ((routineOf i).issued s).lock = s.lock := by rcases routineOf_issued i s with e | e <;> rw [e]
    refine hmid'.close ⟨Latches.inRange_ofRequest _ i, i, ?_, ?_, ?_, ?_, by simp, by simp, ?_, ?_, ?_, ?_⟩
    · exact Latches.operation_ofRequest i
    · rw [hcfg]; exact admits_wellFormed i s hadm
    · exact (seq_end _ i).2
    · rw [hlock]; simp [seq_start, hnl]
    · intro l hl
      simp [writtenBefore] at hl
      rcases hl with rfl | rfl | rfl | rfl | rfl <;> rfl
    · intro n hn; simp [startedBefore] at hn
    · intro _ n hn; simp [Latches.ofRequest] at hn
    · intro _ _ n hn; simp [Latches.ofRequest] at hn
  · exact ⟨h.config, h.shape, h.gone, h.exclusion, h.owner, fun d q hd => ClientOk.congr (s := s) rfl Iff.rfl (h.sequencers d q hd)⟩

/-- The invariant looks at these fields only. -/
theorem Inv.fields {s t : State} (h : Inv s) (h1 : t.cfg = s.cfg) (h2 : t.life = s.life) (h3 : t.clients = s.clients) (h4 : t.lock = s.lock)
    (h5 : t.trace = s.trace) (h6 : t.table = s.table) : Inv t := by
  refine ⟨h1 ▸ h.config, ?_, ?_, ?_, ?_, ?_⟩
  · rw [h2, h3, h6, h1]; exact h.shape
  · rw [h2, h3, h4]; exact h.gone
  · rw [h5, h4]; exact h.exclusion
  · rw [h4, h3]; exact h.owner
  · intro c q hq
    have : s.client? c = some q := by simpa [State.client?, h3] using hq
    exact ClientOk.congr h1 (by rw [h4]) (h.sequencers c q this)

/-- The configuration at reset is one the spec allows. -/
theorem atReset_wf : Config.atReset.wf = true := by
  have h : (Config.valid Config.board).wf = true := by
    unfold Config.valid; split
    · assumption
    · decide
  simp only [Config.wf, Bool.and_eq_true] at *
  obtain ⟨⟨⟨h1, h2⟩, h3⟩, h4⟩ := h
  refine ⟨⟨⟨?_, h2⟩, h3⟩, h4⟩
  simp [Config.countsOk, Config.atReset]

end Sys2Proof.Machine
end

