-- ==== Sys2Proof/Laws/PerInstr.lean ====
section
/-!
SUPPORT. Statements made of every operation, one lemma per constructor. Family `Encoding`: an operation's
descriptor matches its own row of the table (30_encoding.md R73).
-/
namespace Sys2Proof.Laws.Encoding

/-- The descriptor of `i`, masked as its row says, is the row's match. -/
def Statement (i : Instr) : Prop :=
  encodeReq i &&& i.mask = i.pattern

/-- Masking works byte by byte. -/
theorem packReq_and (op a0 a1 a2 a3 m0 m1 m2 m3 m4 : Byte) :
    packReq op a0 a1 a2 a3 &&& packReq m0 m1 m2 m3 m4 =
      packReq (op &&& m0) (a0 &&& m1) (a1 &&& m2) (a2 &&& m3) (a3 &&& m4) := by
  unfold packReq
  rw [BitVec.and_append, BitVec.and_append, BitVec.and_append, BitVec.and_append]

/-- A mask that covers `op` and only operands that are zero. -/
theorem masked (i : Instr) (m1 m2 m3 m4 : Byte) (hm : i.mask = packReq 0xFF m1 m2 m3 m4)
    (h1 : i.operands.1 &&& m1 = 0) (h2 : i.operands.2.1 &&& m2 = 0) (h3 : i.operands.2.2.1 &&& m3 = 0)
    (h4 : i.operands.2.2.2 &&& m4 = 0) : Statement i := by
  rw [Statement, hm, encodeReq, packReq_and, h1, h2, h3, h4]
  simp only [Instr.pattern]
  generalize i.opcode = op
  revert op
  decide

theorem waitIbf : Statement .waitIbf :=
  masked _ 0xFF 0xFF 0xFF 0xFF rfl (by simp [Instr.operands]) (by simp [Instr.operands]) (by simp [Instr.operands]) (by simp [Instr.operands])

theorem waitObf : Statement .waitObf :=
  masked _ 0xFF 0xFF 0xFF 0xFF rfl (by simp [Instr.operands]) (by simp [Instr.operands]) (by simp [Instr.operands]) (by simp [Instr.operands])

theorem ramRead (addr : Byte) : Statement (.ramRead addr) :=
  masked _ 0 0xFF 0xFF 0xFF rfl (by simp [Instr.operands]) (by simp [Instr.operands]) (by simp [Instr.operands]) (by simp [Instr.operands])

theorem ramWrite (addr value : Byte) : Statement (.ramWrite addr value) :=
  masked _ 0 0 0xFF 0xFF rfl (by simp [Instr.operands]) (by simp [Instr.operands]) (by simp [Instr.operands]) (by simp [Instr.operands])

theorem acpiRead (addr : Byte) : Statement (.acpiRead addr) :=
  masked _ 0 0xFF 0xFF 0xFF rfl (by simp [Instr.operands]) (by simp [Instr.operands]) (by simp [Instr.operands]) (by simp [Instr.operands])

theorem acpiWrite (addr value : Byte) : Statement (.acpiWrite addr value) :=
  masked _ 0 0 0xFF 0xFF rfl (by simp [Instr.operands]) (by simp [Instr.operands]) (by simp [Instr.operands]) (by simp [Instr.operands])

theorem gpioStatusRead (pin : Byte) : Statement (.gpioStatusRead pin) :=
  masked _ 0 0xFF 0xFF 0xFF rfl (by simp [Instr.operands]) (by simp [Instr.operands]) (by simp [Instr.operands]) (by simp [Instr.operands])

theorem gpioStatusWrite (pin value : Byte) : Statement (.gpioStatusWrite pin value) :=
  masked _ 0 0 0xFF 0xFF rfl (by simp [Instr.operands]) (by simp [Instr.operands]) (by simp [Instr.operands]) (by simp [Instr.operands])

theorem gpioDirRead (pin : Byte) : Statement (.gpioDirRead pin) :=
  masked _ 0 0xFF 0xFF 0xFF rfl (by simp [Instr.operands]) (by simp [Instr.operands]) (by simp [Instr.operands]) (by simp [Instr.operands])

theorem gpioDirWrite (pin value : Byte) : Statement (.gpioDirWrite pin value) :=
  masked _ 0 0 0xFF 0xFF rfl (by simp [Instr.operands]) (by simp [Instr.operands]) (by simp [Instr.operands]) (by simp [Instr.operands])

theorem adRead (index mult : Byte) : Statement (.adRead index mult) :=
  masked _ 0 0 0xFF 0xFF rfl (by simp [Instr.operands]) (by simp [Instr.operands]) (by simp [Instr.operands]) (by simp [Instr.operands])

theorem onekeyRead (addr : Byte) : Statement (.onekeyRead addr) :=
  masked _ 0 0xFF 0xFF 0xFF rfl (by simp [Instr.operands]) (by simp [Instr.operands]) (by simp [Instr.operands]) (by simp [Instr.operands])

theorem onekeyWrite (addr value : Byte) : Statement (.onekeyWrite addr value) :=
  masked _ 0 0 0xFF 0xFF rfl (by simp [Instr.operands]) (by simp [Instr.operands]) (by simp [Instr.operands]) (by simp [Instr.operands])

theorem oemRead (addr : Byte) : Statement (.oemRead addr) :=
  masked _ 0 0xFF 0xFF 0xFF rfl (by simp [Instr.operands]) (by simp [Instr.operands]) (by simp [Instr.operands]) (by simp [Instr.operands])

theorem oemWrite (addr value : Byte) : Statement (.oemWrite addr value) :=
  masked _ 0 0 0xFF 0xFF rfl (by simp [Instr.operands]) (by simp [Instr.operands]) (by simp [Instr.operands]) (by simp [Instr.operands])

theorem smbReadByte (channel slave reg : Byte) : Statement (.smbReadByte channel slave reg) :=
  masked _ 0 0 0 0xFF rfl (by simp [Instr.operands]) (by simp [Instr.operands]) (by simp [Instr.operands]) (by simp [Instr.operands])

theorem smbWriteByte (channel slave reg data : Byte) : Statement (.smbWriteByte channel slave reg data) :=
  masked _ 0 0 0 0 rfl (by simp [Instr.operands]) (by simp [Instr.operands]) (by simp [Instr.operands]) (by simp [Instr.operands])

theorem smbReadWord (channel slave reg : Byte) : Statement (.smbReadWord channel slave reg) :=
  masked _ 0 0 0 0xFF rfl (by simp [Instr.operands]) (by simp [Instr.operands]) (by simp [Instr.operands]) (by simp [Instr.operands])

theorem tableScan : Statement .tableScan :=
  masked _ 0xFF 0xFF 0xFF 0xFF rfl (by simp [Instr.operands]) (by simp [Instr.operands]) (by simp [Instr.operands]) (by simp [Instr.operands])

theorem tableRead (index : Byte) : Statement (.tableRead index) :=
  masked _ 0 0xFF 0xFF 0xFF rfl (by simp [Instr.operands]) (by simp [Instr.operands]) (by simp [Instr.operands]) (by simp [Instr.operands])

end Sys2Proof.Laws.Encoding
end

