-- ==== Sys2Proof/Laws/Transaction.lean ====
section
/-!
SUPPORT. `Sim` for the SMBus transaction (43_smbus.md) and for the table scan (44_table_discovery.md), each with
its loop.
-/
namespace Sys2Proof.Machine

variable {k : Config} {i : Instr} {c : Nat} {z z' : Option (Option Nat × Option Nat)}

/-- The lock as it is between two parts of a transaction (R108). -/
def scopeLock (k : Config) (c : Nat) : Lock :=
  match k.smbusLockScope with
  | .perStep => .free
  | .wholeTransaction => .held c

theorem ramR_ne (k : Config) (addr : Byte) (dst : Latch) (after : After) (x : Option Counter) :
    ramR k addr dst after x ≠ [] := by
  unfold ramR; split <;> simp [memRead, sendCommand]

theorem ramW_ne (k : Config) (addr : Byte) (val : Source) : ramW k addr val ≠ [] := by
  unfold ramW; split <;> simp [memWrite, sendCommand, Sys2Proof.Machine.locked]

theorem Pseudo.locked_assign (c : Nat) (p : Pseudo.Code Byte) (f : Byte → Latches → Latches) :
    Pseudo.locked c (do let b ← p; Pseudo.assign (f b); pure b) =
      (do let b ← Pseudo.locked c p; Pseudo.assign (f b); pure b) := by
  funext w
  simp only [Pseudo.locked, Pseudo.bind_run]
  rcases p (w.1.acquire c, w.2) with ⟨_ | _, _⟩ <;> rfl

/-- A counter's start and the `Acquire()` before it touch different parts of the state. -/
theorem Pseudo.locked_begin {α : Type} (c : Nat) (p : Pseudo.Code α) (x : Option Counter) :
    Pseudo.locked c (do Pseudo.begin x; p) = (do Pseudo.begin x; Pseudo.locked c p) := rfl

/-- One read through the proxy (R108), the byte latched in `dst`. -/
theorem sim_ramR_begin (hk : 0 < k.maxPoll) (addr : Byte) {dst : Latch} {after : After} {x : Option Counter}
    (hz : ∀ L, Holds i z L → Holds i z' (L.starting x)) (hd : dst ∉ requestLatches) :
    Sim k i c z z' (scopeLock k c) (ramR k addr dst after x) after (do
        Pseudo.begin x
        let b ← Pseudo.ramR k c addr
        Pseudo.assign fun L => L.write b dst
        pure b)
      (fun b L => L.read dst = some b) := by
  have hm := fun lk after => sim_post (post' := fun b L => L.read dst = some b)
    (sim_memReadTo (k := k) (i := i) (c := c) (lk := lk) (after := after) (src := .const addr) (ls := [dst]) hk hz
      (fun _ _ => rfl) (by simpa using hd)) fun _ _ _ h => h dst (by simp)
  unfold ramR Pseudo.ramR scopeLock
  cases k.smbusLockScope with
  | perStep =>
    have := sim_locked (after := after) (by simp [memRead, sendCommand]) (hm (.held c) .proceed)
    rw [Pseudo.memReadTo_eq, Pseudo.locked_begin, Pseudo.locked_assign] at this
    exact this
  | wholeTransaction =>
    have := hm (.held c) after
    rw [Pseudo.memReadTo_eq] at this
    exact this

theorem sim_ramR (hk : 0 < k.maxPoll) (addr : Byte) {dst : Latch} {after : After} (hd : dst ∉ requestLatches) :
    Sim k i c z z (scopeLock k c) (ramR k addr dst after) after
      (do let b ← Pseudo.ramR k c addr; Pseudo.assign (fun L => L.write b dst); pure b)
      (fun b L => L.read dst = some b) :=
  sim_ramR_begin (x := none) hk addr (fun _ h => h) hd

/-- One write through the proxy (R108). -/
theorem sim_ramW (hk : 0 < k.maxPoll) (addr : Byte) {src : Source} {val : Byte}
    (hv : ∀ L, Holds i z L → src.byte L = .ok val) :
    Sim k i c z z (scopeLock k c) (ramW k addr src) .proceed (Pseudo.ramW k c addr val) := by
  have hm := fun lk => sim_memWrite (k := k) (i := i) (c := c) (z := z) (lk := lk) (src := .const addr) hk (fun _ _ => rfl) hv
  unfold ramW Pseudo.ramW scopeLock
  cases k.smbusLockScope with
  | perStep => exact sim_locked (by simp [memWrite, sendCommand]) (hm (.held c))
  | wholeTransaction => exact hm (.held c)

/-- A counter whose round begins: 0 on the first pass, where the operation has not written it, else as it was. -/
theorem Holds.begin_spoll {x y : Option Nat} (L : Latches) (h : Holds i (some (x, y)) L) :
    Holds i (some (x, some (y.getD 0))) (L.starting (some .spoll)) :=
  ⟨h.op, h.a0, h.a1, h.a2, h.a3, fun p hp => by
    cases hp; exact ⟨(h.counters _ rfl).1, congrArg (fun u : Option Nat => some (u.getD 0)) (h.counters _ rfl).2⟩⟩

theorem Holds.begin_idx {x y : Option Nat} (L : Latches) (h : Holds i (some (x, y)) L) :
    Holds i (some (some (x.getD 0), y)) (L.starting (some .idx)) :=
  ⟨h.op, h.a0, h.a1, h.a2, h.a3, fun p hp => by
    cases hp; exact ⟨congrArg (fun u : Option Nat => some (u.getD 0)) (h.counters _ rfl).1, (h.counters _ rfl).2⟩⟩

theorem idlePollBack_eq (k : Config) (addr : Byte) (dst : Latch) (after : After) (x : Option Counter) :
    (ramR k addr dst after x).length = idlePollBack k + 1 := by
  unfold ramR idlePollBack
  cases k.smbusLockScope <;> rfl

/-- One round of the idle poll (R109, step 6). -/
abbrev idleRead (k : Config) : List Micro :=
  ramR k k.smbusProtocol .pr (.checkIdle (idlePollBack k)) (some .spoll)

/-- The idle poll from any of its rounds on, with `left` rounds left (R109 step 6, R110). -/
theorem idle_run (hk : 0 < k.maxPoll) (x : Option Nat) :
    ∀ (left n : Nat) (y : Option Nat) (w : State) (L : Latches) (pc : Nat), Live k i c (some (x, y)) w L → y.getD 0 = n →
      w.lock = scopeLock k c → left + n = k.smbMaxPoll → 0 < left →
      idleRead k <+: (seqOf k i).drop pc →
      match Pseudo.idlePoll k c left (w, L.starting (some .spoll)) with
      | (.ok _, (w', L')) => Kept w w' ∧ w'.lock = scopeLock k c ∧ Holds i none L' ∧
          Frame (writesOf (idleRead k)) L L' ∧
          ∃ t, w'.trace.length = w.trace.length + t ∧
            runTurns i c t (w.seat c pc L) =
              w'.settle (routineOf i) .proceed c (pc + idlePollBack k) { latches := L' }
      | (.error e, (w', L')) => Kept w w' ∧ ∃ t pc', w'.trace.length = w.trace.length + t ∧
          w'.lock = scopeLock k c ∧
            runTurns i c t (w.seat c pc L) = .next (w'.raise (routineOf i) c pc' { latches := L' } e) := by
  intro left
  induction left with
  | zero => intro n y w L pc _ _ _ _ h; omega
  | succ left ih =>
    intro n y w L pc hl hy hlock hsum _ hpre
    subst hy
    generalize hn : y.getD 0 = n at *
    have hone := sim_ramR_begin (i := i) (c := c) (after := .checkIdle (idlePollBack k)) hk
      k.smbusProtocol (dst := .pr) (fun L h => hn ▸ Holds.begin_spoll (x := x) (y := y) L h) (by simp [requestLatches]) w L pc hl hlock hpre
    have hcode : Pseudo.idlePoll k c (left + 1) = (do
        let pr ← (do let b ← Pseudo.ramR k c k.smbusProtocol; Pseudo.assign (fun L => L.write b .pr); pure b)
        if engineIdle pr then pure ()
        else
          Pseudo.assign fun L => { L with spoll := L.spoll.map (· + 1) }
          Pseudo.idlePoll k c left) := by
      rw [Pseudo.idlePoll]
      simp only [Pseudo.bind_assoc', Pseudo.pure_bind']; rfl
    rw [hcode, Pseudo.bind_run]
    rcases hpw : (do let b ← Pseudo.ramR k c k.smbusProtocol; Pseudo.assign (fun L => L.write b .pr); pure b :
      Pseudo.Code Byte) (w, L.starting (some .spoll)) with ⟨r, w', L'⟩
    rw [Pseudo.bind_run] at hone
    simp only [Pseudo.begin, Pseudo.assign] at hone hpw
    rw [hpw] at hone
    cases r with
    | error e => exact hone
    | ok pr =>
      obtain ⟨hk1, hh1, hL1, hp1, hf1, t1, ht1, hr1⟩ := hone
      have hl1 := hl.kept hk1 hL1
      have hneed : L'.need .pr = .ok pr := by simp [Latches.need, hp1]
      have hcount : L'.count .spoll = .ok n := by
        simp [Latches.count, Latches.readCounter, (hL1.counters _ rfl).2]
      rw [idlePollBack_eq] at hr1
      rw [show pc + (idlePollBack k + 1) - 1 = pc + idlePollBack k by omega] at hr1
      dsimp only
      by_cases hidle : engineIdle pr
      · simp only [hidle, if_true, Pseudo.pure_run]
        refine ⟨hk1, hh1, hL1.forget, hf1, t1, ht1, hr1.trans ?_⟩
        simp only [State.settle, hneed, attempt, hidle, if_true]
      · simp only [hidle, Bool.false_eq_true, if_false, Pseudo.bind_run, Pseudo.assign]
        have hmap : ({ L' with spoll := L'.spoll.map (· + 1) } : Latches) = { L' with spoll := some (n + 1) } := by
          rw [(hL1.counters _ rfl).2]; rfl
        rw [hmap]
        have hframe : Frame [] L' { L' with spoll := some (n + 1) } := by intro l _; cases l <;> rfl
        have hf2 : Frame (writesOf (idleRead k)) L
            { L' with spoll := some (n + 1) } := by simpa using hf1.trans hframe
        have hL2 : Holds i (some (x, some (n + 1))) { L' with spoll := some (n + 1) } := by
          refine ⟨hL1.op, hL1.a0, hL1.a1, hL1.a2, hL1.a3, ?_⟩
          intro p hp; cases hp; exact ⟨(hL1.counters _ rfl).1, rfl⟩
        by_cases hlast : n + 1 = k.smbMaxPoll
        · have h0 : left = 0 := by omega
          subst h0
          simp only [Pseudo.idlePoll, Pseudo.raise]
          refine ⟨hk1, t1, pc + idlePollBack k, ht1, hh1, hr1.trans ?_⟩
          simp only [State.settle, hneed, attempt, hidle, hcount, hl1.cfg, hlast]; rfl
        · have hset : w'.settle (routineOf i) (.checkIdle (idlePollBack k)) c (pc + idlePollBack k) { latches := L' } =
              .next (w'.seat c pc { L' with spoll := some (n + 1) }) := by
            simp only [State.settle, hneed, attempt, hidle, hcount, hl1.cfg, hlast, if_false, Bool.false_eq_true]
            rw [goto_lt, Nat.add_sub_cancel]
            rw [Nat.add_sub_cancel]
            show _ < (seqOf w'.cfg i).length
            rw [hl1.cfg]
            exact prefix_lt hpre (ramR_ne _ _ _ _ _)
          have hrec := ih (n + 1) (some (n + 1)) w' { L' with spoll := some (n + 1) } pc (hl.kept hk1 hL2) rfl hh1 (by omega) (by omega) hpre
          rcases hqw : Pseudo.idlePoll k c left (w', { L' with spoll := some (n + 1) }) with ⟨r, w'', L''⟩
          rw [show ({ L' with spoll := some (n + 1) } : Latches).starting (some .spoll) = { L' with spoll := some (n + 1) } from rfl,
            hqw] at hrec
          cases r with
          | error e =>
            obtain ⟨hk2, t2, pc', ht2, hh2, hr2⟩ := hrec
            exact ⟨hk1.trans hk2, t1 + t2, pc', by omega, hh2, runTurns_trans (hr1.trans hset) hr2⟩
          | ok a =>
            obtain ⟨hk2, hh2, hL3, hf3, t2, ht2, hr2⟩ := hrec
            refine ⟨hk1.trans hk2, hh2, hL3, ?_, t1 + t2, by omega, runTurns_trans (hr1.trans hset) hr2⟩
            exact (hf2.trans hf3).mono (by simp)

theorem sim_idlePoll (hk : 0 < k.maxPoll) (hs : 0 < k.smbMaxPoll) (x : Option Nat) :
    Sim k i c (some (x, none)) none (scopeLock k c) (idleRead k) .proceed
      (do Pseudo.assign fun L => { L with spoll := some 0 }; Pseudo.idlePoll k c k.smbMaxPoll) := by
  intro w L pc hl hh hpre
  have := idle_run hk x k.smbMaxPoll 0 none w L pc hl rfl hh rfl hs hpre
  have h0 : L.starting (some .spoll) = { L with spoll := some 0 } := by
    simp only [Latches.starting, Latches.start, (hl.holds.counters _ rfl).2, Option.getD_none]
  rw [h0] at this
  rw [idlePollBack_eq, show pc + (idlePollBack k + 1) - 1 = pc + idlePollBack k by omega, Pseudo.bind_run]
  simp only [Pseudo.assign]
  rcases hpw : Pseudo.idlePoll k c k.smbMaxPoll (w, { L with spoll := some 0 }) with ⟨r, w', L'⟩
  rw [hpw] at this
  cases r with
  | error e => exact this
  | ok a =>
    obtain ⟨h1, h2, h3, h4, h5⟩ := this
    exact ⟨h1, h2, h3, trivial, h4, h5⟩

/-- The status check of step 7 (R111). -/
theorem sim_status (hk : 0 < k.maxPoll) :
    Sim k i c none none (scopeLock k c) (ramR k k.smbusStatus .st .checkStatus) .proceed (do
      let st ← Pseudo.ramR k c k.smbusStatus
      Pseudo.assign fun L => { L with st := some st }
      if smbusSuccess st then pure () else Pseudo.raise (.smbusError st)) := by
  have h := sim_absorb (post' := fun _ _ => True) (z'' := none)
    (fun st => if smbusSuccess st then pure () else Pseudo.raise (.smbusError st))
    (sim_ramR (i := i) (c := c) (z := none) (after := .checkStatus) hk k.smbusStatus (dst := .st)
      (by simp [requestLatches])) (by
      intro a w L pc hl hh hp
      have hst : L.need .st = .ok a := by simp [Latches.need, hp]
      by_cases hs : smbusSuccess a
      · simp only [hs, if_true, Pseudo.pure_run]
        exact ⟨Kept.refl w, hh, hl.holds, trivial, Frame.refl _ _, trivial, by simp [State.settle, hst, attempt, hs]⟩
      · simp only [hs, Bool.false_eq_true, if_false, Pseudo.raise]
        exact ⟨Kept.refl w, hh, trivial, by simp [State.settle, hst, attempt, hs]⟩)
  simp only [Pseudo.bind_assoc', Pseudo.pure_bind'] at h
  exact h

/-- The whole pseudocode of a transaction in two parts: what comes before the result cells, and those. -/
def Pseudo.smbHead (k : Config) (c : Nat) (kind : SmbKind) (ch slv reg data : Byte) : Pseudo.Code Unit := do
  Pseudo.ramW k c k.smbusChannel ch
  Pseudo.ramW k c k.smbusSlvAddr slv
  Pseudo.ramW k c k.smbusCmd reg
  if kind = .byteWrite then Pseudo.ramW k c k.smbusData data else pure ()
  Pseudo.ramW k c k.smbusProtocol (smbMode k kind)
  Pseudo.assign fun L => { L with spoll := some 0 }
  Pseudo.idlePoll k c k.smbMaxPoll
  let st ← Pseudo.ramR k c k.smbusStatus
  Pseudo.assign fun L => { L with st := some st }
  if smbusSuccess st then pure () else Pseudo.raise (.smbusError st)

theorem Pseudo.smbSteps_parts (k : Config) (c : Nat) (kind : SmbKind) (ch slv reg data : Byte) :
    Pseudo.smbSteps k c kind ch slv reg data =
      (do Pseudo.smbHead k c kind ch slv reg data; Pseudo.smbCells k c kind) := by
  cases kind <;> simp only [Pseudo.smbSteps, Pseudo.smbHead, Pseudo.smbCells, Pseudo.bind_assoc', Pseudo.ite_bind,
    Pseudo.raise_bind, Pseudo.pure_bind', reduceCtorEq, if_true, if_false]

/-- The result of a transaction as the machine computes it from the latches. -/
def smbValue : SmbKind → State → Latches → Except Fault Word32
  | .byteRead => latchValue .d0
  | .wordRead => smbWordResult
  | .byteWrite => fun _ _ => .ok 0

theorem sim_smbHead (hk : 0 < k.maxPoll) (hs : 0 < k.smbMaxPoll) {x : Option Nat} (kind : SmbKind) (ch slv reg data : Byte)
    (h0 : i.operands.1 = ch) (h1 : i.operands.2.1 = slv) (h2 : i.operands.2.2.1 = reg)
    (h3 : kind = .byteWrite → i.operands.2.2.2 = data) :
    Sim k i c (some (x, none)) none (scopeLock k c)
      (ramW k k.smbusChannel (.latch .a0) ++ ramW k k.smbusSlvAddr (.latch .a1) ++ ramW k k.smbusCmd (.latch .a2)
        ++ smbData k kind ++ ramW k k.smbusProtocol (.const (smbMode k kind))
        ++ idleRead k ++ ramR k k.smbusStatus .st .checkStatus) .proceed
      (Pseudo.smbHead k c kind ch slv reg data) := by
  have hw := fun addr (src : Source) val (hv : ∀ L, Holds i (some (x, none)) L → src.byte L = .ok val) =>
    sim_ramW (c := c) hk addr hv
  have a1 := hw k.smbusChannel _ ch (holds_a0 h0)
  have a2 := sim_then (ramW_ne _ _ _) (ramW_ne _ _ _) a1 fun _ => hw k.smbusSlvAddr _ slv (holds_a1 h1)
  have a3 := sim_then (by simp [ramW_ne]) (ramW_ne _ _ _) a2 fun _ => hw k.smbusCmd _ reg (holds_a2 h2)
  have rest := sim_then (by simp [ramW_ne]) (ramR_ne _ _ _ _ _)
    (sim_then (ramW_ne _ _ _) (ramR_ne _ _ _ _ _) (hw k.smbusProtocol (.const (smbMode k kind)) _ fun _ _ => rfl)
      fun _ => sim_idlePoll hk hs x)
    fun _ => sim_status hk
  have hrest : ramW k k.smbusProtocol (.const (smbMode k kind))
      ++ idleRead k ++ ramR k k.smbusStatus .st .checkStatus ≠ [] := by
    simp [ramW_ne]
  cases kind with
  | byteWrite =>
    have a4 := sim_then (by simp [ramW_ne]) (ramW_ne _ _ _) a3 fun _ => hw k.smbusData _ data (holds_a3 (h3 rfl))
    have := sim_then (by simp [ramW_ne]) hrest a4 fun _ => rest
    simp only [Pseudo.bind_assoc', Pseudo.smbHead, if_true, smbData, List.append_assoc] at this ⊢
    exact this
  | byteRead =>
    have := sim_then (by simp [ramW_ne]) hrest a3 fun _ => rest
    simp only [Pseudo.bind_assoc', Pseudo.smbHead, smbData, List.append_assoc, List.nil_append, reduceCtorEq,
      if_false] at this ⊢
    exact this
  | wordRead =>
    have := sim_then (by simp [ramW_ne]) hrest a3 fun _ => rest
    simp only [Pseudo.bind_assoc', Pseudo.smbHead, smbData, List.append_assoc, List.nil_append, reduceCtorEq,
      if_false] at this ⊢
    exact this

theorem sim_smbSteps (hk : 0 < k.maxPoll) (hs : 0 < k.smbMaxPoll) {x : Option Nat} (kind : SmbKind) (ch slv reg data : Byte)
    (h0 : i.operands.1 = ch) (h1 : i.operands.2.1 = slv) (h2 : i.operands.2.2.1 = reg)
    (h3 : kind = .byteWrite → i.operands.2.2.2 = data) :
    Sim k i c (some (x, none)) none (scopeLock k c)
      (ramW k k.smbusChannel (.latch .a0) ++ ramW k k.smbusSlvAddr (.latch .a1) ++ ramW k k.smbusCmd (.latch .a2)
        ++ smbData k kind ++ ramW k k.smbusProtocol (.const (smbMode k kind))
        ++ idleRead k ++ ramR k k.smbusStatus .st .checkStatus
        ++ smbResult k kind) .proceed
      (Pseudo.smbSteps k c kind ch slv reg data) (fun v L => ∀ s, smbValue kind s L = .ok v) := by
  have hh := sim_smbHead (c := c) (x := x) hk hs kind ch slv reg data h0 h1 h2 h3
  rw [Pseudo.smbSteps_parts]
  have hr := fun addr (dst : Latch) (hd : dst ∉ requestLatches) =>
    sim_ramR (k := k) (i := i) (c := c) (z := none) (after := .proceed) hk addr hd
  cases kind with
  | byteWrite =>
    have := sim_map (post' := fun v L => ∀ s, smbValue .byteWrite s L = .ok v) (fun _ => (0 : Word32)) hh
      (fun _ _ _ _ _ => rfl)
    simp only [smbResult, List.append_nil, Pseudo.smbCells] at this ⊢
    exact this
  | byteRead =>
    have ht := sim_map (post' := fun v L => ∀ s, smbValue .byteRead s L = .ok v) byteValue
      (hr k.smbusData .d0 (by simp [requestLatches])) (fun b L _ h s => by
        simp [smbValue, latchValue, Latches.need, h, Except.map])
    have := sim_then (by simp [ramW_ne]) (ramR_ne _ _ _ _ _) hh fun _ => ht
    simp only [Pseudo.bind_assoc', Pseudo.pure_bind', smbResult, Pseudo.smbCells] at this ⊢
    exact this
  | wordRead =>
    have ht : ∀ d0, Sim k i c none none (scopeLock k c) (ramR k k.smbusDataOffset1 .d1) .proceed
        (do let d1 ← (do let b ← Pseudo.ramR k c k.smbusDataOffset1; Pseudo.assign (fun L => L.write b .d1); pure b)
            pure ((smbWord d0 d1).setWidth 32))
        (fun v L => ∃ d1, L.read .d1 = some d1 ∧ v = (smbWord d0 d1).setWidth 32) := fun d0 =>
      sim_map (fun d1 => (smbWord d0 d1).setWidth 32) (hr k.smbusDataOffset1 .d1 (by simp [requestLatches]))
        (fun b L _ h => ⟨b, h, rfl⟩)
    have hw : writesOf (ramR k k.smbusDataOffset1 .d1) = [.v, .d1] := by
      unfold ramR
      cases k.smbusLockScope <;> simp [writesOf, memRead, sendCommand, sendArgument, receive, Micro.writes]
    have hb := sim_bind (z'' := none) (post'' := fun v L => ∀ s, smbValue .wordRead s L = .ok v) (ramR_ne _ _ _ _ _)
      (ramR_ne _ _ _ _ _) (hr k.smbusData .d0 (by simp [requestLatches])) ht
      (fun d0 v L L' hd hf hv s => by
        obtain ⟨d1, h1, rfl⟩ := hv
        have h2 : L'.read .d0 = some d0 := by rw [hf .d0 (by rw [hw]; simp)]; exact hd
        simp [smbValue, smbWordResult, Latches.need, h1, h2, bind, Except.bind, pure, Except.pure])
    have := sim_then (by simp [ramW_ne]) (by simp [ramR_ne]) hh fun _ => hb
    simp only [Pseudo.bind_assoc', Pseudo.pure_bind', smbResult, Pseudo.smbCells, List.append_assoc] at this ⊢
    exact this

/-- The whole transaction, under either lock scope. -/
theorem sim_smbTransaction (hk : 0 < k.maxPoll) (hs : 0 < k.smbMaxPoll) {x : Option Nat} (kind : SmbKind)
    (ch slv reg data : Byte) (h0 : i.operands.1 = ch) (h1 : i.operands.2.1 = slv) (h2 : i.operands.2.2.1 = reg)
    (h3 : kind = .byteWrite → i.operands.2.2.2 = data) :
    Sim k i c (some (x, none)) none .free (smbTransaction kind k) .proceed
      (Pseudo.smbTransaction k c kind ch slv reg data) (fun v L => ∀ s, smbValue kind s L = .ok v) := by
  have h := sim_smbSteps (c := c) (x := x) hk hs kind ch slv reg data h0 h1 h2 h3
  unfold smbTransaction smbScope Pseudo.smbTransaction
  unfold scopeLock at h
  generalize hms : ramW k k.smbusChannel (.latch .a0) ++ ramW k k.smbusSlvAddr (.latch .a1)
    ++ ramW k k.smbusCmd (.latch .a2) ++ smbData k kind
    ++ ramW k k.smbusProtocol (.const (smbMode k kind))
    ++ idleRead k ++ ramR k k.smbusStatus .st .checkStatus
    ++ smbResult k kind = ms at h ⊢
  have hne : ms ≠ [] := by rw [← hms]; simp [ramW_ne]
  cases hscope : k.smbusLockScope with
  | perStep => rw [hscope] at h; exact h
  | wholeTransaction => rw [hscope] at h; exact sim_locked hne h

/-! ## The scan (R118) -/

theorem sim_scanOne {lk : Lock} {v y : Option Nat} (hk : 0 < k.maxPoll) (idx : Nat) (hv : v.getD 0 = idx) :
    Sim k i c (some (v, y)) (some (some idx, y)) lk (scanBody k) (.storeEntry 13)
      (do Pseudo.begin (some .idx); Pseudo.scanOne k c idx)
      (fun r L => L.read .pin = some r.1 ∧ L.read .dev = some r.2) := by
  have hidx : ∀ L, Holds i (some (some idx, y)) L → Source.index.byte L = .ok (BitVec.ofNat 8 idx) := by
    intro L hL
    simp [Source.byte, Latches.count, Latches.readCounter, (hL.counters _ rfl).1, Except.map]
  have h1 := sim_then (by simp [sendCommand]) (by simp [sendArgument])
    (sim_sendCommand_begin (i := i) (c := c) (lk := lk) hk k.opTblSelect
      fun L h => hv ▸ Holds.begin_idx (x := v) (y := y) L h)
    fun _ => sim_sendArgument hk hidx
  have h2 := sim_then (by simp [sendCommand]) (by simp [receive]) h1 fun _ => sim_checked (also := []) hk (Or.inr ⟨rfl, rfl⟩) (by simp)
  have h3 := sim_then (by simp [sendCommand]) (by simp [sendCommand]) h2 fun _ => sim_sendCommand hk k.opTblGetPin
  have h4 := sim_then (by simp [sendCommand]) (by simp [receive]) h3
    fun _ => sim_receive (ls := [.pin]) (after := .proceed) hk (by simp [requestLatches])
  have h5 : ∀ pin : Byte, Sim k i c (some (some idx, y)) (some (some idx, y)) lk
      (sendCommand k.opTblGetDevice ++ receive [.dev] (.storeEntry 13)) (.storeEntry 13)
      (do (do Pseudo.waitIBF k c; Pseudo.portOut c .command k.opTblGetDevice)
          let dev ← (do Pseudo.waitOBF k c; Pseudo.receive c [.dev])
          pure (pin, dev))
      (fun r L => r.1 = pin ∧ L.read .dev = some r.2) := by
    intro pin
    have := sim_map (post' := fun r L => r.1 = pin ∧ L.read .dev = some r.2) (fun dev => (pin, dev))
      (sim_then (by simp [sendCommand]) (by simp [receive])
        (sim_sendCommand (i := i) (c := c) (z := some (some idx, y)) (lk := lk) hk k.opTblGetDevice)
        fun _ => sim_receive (ls := [.dev]) (after := .storeEntry 13) hk (by simp [requestLatches]))
      (fun a L _ h => ⟨rfl, h .dev (by simp)⟩)
    simpa only [Pseudo.bind_assoc'] using this
  have h6 := sim_bind (post'' := fun r L => L.read .pin = some r.1 ∧ L.read .dev = some r.2) (by simp [sendCommand])
    (by simp [sendCommand]) h4 h5 (fun pin r L L' hp hf hr => by
      refine ⟨?_, hr.2⟩
      rw [hf .pin (by simp [writesOf, sendCommand, receive, Micro.writes]), hr.1]
      exact hp .pin (by simp))
  simp only [Pseudo.bind_assoc', Pseudo.scanOne, Pseudo.pure_bind', Pseudo.ite_bind, Pseudo.raise_bind, scanBody,
    List.append_assoc] at h6 ⊢
  exact h6

theorem scanBody_length (k : Config) : (scanBody k).length = 14 := rfl

/-- The scan from index `idx` on, with `left` indices left. -/
theorem scan_run {lk : Lock} {y : Option Nat} (hk : 0 < k.maxPoll) :
    ∀ (left idx : Nat) (v : Option Nat) (w : State) (L : Latches) (pc : Nat), Live k i c (some (v, y)) w L → v.getD 0 = idx →
      w.lock = lk →
      left + idx = k.nTbl → 0 < left → scanBody k <+: (seqOf k i).drop pc →
      pc + 14 < (seqOf k i).length →
      match Pseudo.scanLoop k c left idx (w, L.starting (some .idx)) with
      | (.ok _, (w', L')) => Kept w w' ∧ w'.lock = lk ∧ Holds i none L' ∧ Frame (writesOf (scanBody k)) L L' ∧
          ∃ t, w'.trace.length = w.trace.length + t ∧
            runTurns i c t (w.seat c pc L) = w'.settle (routineOf i) .proceed c (pc + 13) { latches := L' }
      | (.error e, (w', L')) => Kept w w' ∧ ∃ t pc', w'.trace.length = w.trace.length + t ∧ w'.lock = lk ∧
            runTurns i c t (w.seat c pc L) = .next (w'.raise (routineOf i) c pc' { latches := L' } e) := by
  intro left
  induction left with
  | zero => intro idx v w L pc _ _ _ _ h; omega
  | succ left ih =>
    intro idx v w L pc hl hv hlock hsum _ hpre hlen
    have hone := sim_scanOne (i := i) (c := c) (lk := lk) (y := y) hk idx hv w L pc hl hlock hpre
    rw [Pseudo.scanLoop_eq, Pseudo.bind_run]
    rw [Pseudo.bind_run] at hone
    simp only [Pseudo.begin, Pseudo.assign] at hone
    rcases hpw : Pseudo.scanOne k c idx (w, L.starting (some .idx)) with ⟨r, w', L'⟩
    rw [hpw] at hone
    cases r with
    | error e => exact hone
    | ok r =>
      obtain ⟨hk1, hh1, hL1, ⟨hpin, hdev⟩, hf1, t1, ht1, hr1⟩ := hone
      have hl1 := hl.kept hk1 hL1
      rw [scanBody_length, show pc + 14 - 1 = pc + 13 by omega] at hr1
      have hn1 : L'.need .pin = .ok r.1 := by simp [Latches.need, hpin]
      have hn2 : L'.need .dev = .ok r.2 := by simp [Latches.need, hdev]
      have hn3 : L'.count .idx = .ok idx := by
        simp [Latches.count, Latches.readCounter, (hL1.counters _ rfl).1]
      have hlt : idx < w'.table.length := by rw [hl1.table]; omega
      simp only [Pseudo.bind_run, Pseudo.update, Pseudo.assign]
      have hk2 : Kept w' (w'.writeEntry idx r.2 r.1) := ⟨rfl, rfl, rfl, by simp⟩
      have hframe : Frame [] L' { L' with idx := some (idx + 1) } := by intro l _; cases l <;> rfl
      have hf2 : Frame (writesOf (scanBody k)) L { L' with idx := some (idx + 1) } := by
        simpa using hf1.trans hframe
      have hL2 : Holds i (some (some (idx + 1), y)) { L' with idx := some (idx + 1) } := by
        refine ⟨hL1.op, hL1.a0, hL1.a1, hL1.a2, hL1.a3, ?_⟩
        intro p hp; cases hp; exact ⟨rfl, (hL1.counters _ rfl).2⟩
      have hset : w'.settle (routineOf i) (.storeEntry 13) c (pc + 13) { latches := L' } =
          if idx + 1 < k.nTbl then
            (w'.writeEntry idx r.2 r.1).goto (routineOf i) c (pc + 13 - 13) { latches := { L' with idx := some (idx + 1) } }
          else (w'.writeEntry idx r.2 r.1).goto (routineOf i) c (pc + 13 + 1) { latches := { L' with idx := some (idx + 1) } } := by
        simp only [State.settle, hn1, hn2, hn3, attempt, hlt, if_true, hl1.cfg]
      by_cases hlast : left = 0
      · subst hlast
        rw [if_neg (by omega)] at hset
        simp only [Pseudo.scanLoop, Pseudo.pure_run]
        exact ⟨hk1.trans hk2, hh1, hL2.forget, hf2, t1, ht1, hr1.trans hset⟩
      · rw [if_pos (by omega), Nat.add_sub_cancel, goto_lt] at hset
        · have hrec := ih (idx + 1) (some (idx + 1)) (w'.writeEntry idx r.2 r.1) { L' with idx := some (idx + 1) } pc
            (hl.kept (hk1.trans hk2) hL2) rfl hh1 (by omega) (by omega) hpre hlen
          rcases hqw : Pseudo.scanLoop k c left (idx + 1)
            (w'.writeEntry idx r.2 r.1, { L' with idx := some (idx + 1) }) with ⟨r', w'', L''⟩
          rw [show ({ L' with idx := some (idx + 1) } : Latches).starting (some .idx) = { L' with idx := some (idx + 1) } from rfl,
            hqw] at hrec
          cases r' with
          | error e =>
            obtain ⟨hk3, t2, pc', ht2, hh2, hr2⟩ := hrec
            refine ⟨(hk1.trans hk2).trans hk3, t1 + t2, pc', ?_, hh2, runTurns_trans (hr1.trans hset) hr2⟩
            rw [ht2]; simp; omega
          | ok a =>
            obtain ⟨hk3, hh2, hL3, hf3, t2, ht2, hr2⟩ := hrec
            refine ⟨(hk1.trans hk2).trans hk3, hh2, hL3, (hf2.trans hf3).mono (by simp), t1 + t2, ?_,
              runTurns_trans (hr1.trans hset) hr2⟩
            rw [ht2]; simp; omega
        · show _ < (seqOf w'.cfg i).length
          rw [hl1.cfg]; omega

end Sys2Proof.Machine
end

