-- ==== Sys2Proof/Laws/Refine.lean ====
section
/-!
SUPPORT. `Sim` for every operation's whole sequence, and what follows for an operation run from its first
step to its end.
-/
namespace Sys2Proof.Machine

variable {k : Config} {i : Instr} {c : Nat}

/-- What a whole sequence's steps do, with the result that the machine assembles from the latches. -/
abbrev SimWhole (k : Config) (i : Instr) (c : Nat) (p : Pseudo.Code Word32) : Prop :=
  Sim k i c (some (none, none)) none .free (seqOf k i) .proceed p
    (fun v L => ∀ s, (routineOf i).value s L = .ok v)

theorem sim_forget {α : Type} {z z' : Option (Option Nat × Option Nat)} {lk : Lock} {ms : List Micro} {after : After}
    {p : Pseudo.Code α} {post : α → Latches → Prop} (h : Sim k i c z z' lk ms after p post) :
    Sim k i c z none lk ms after p post := by
  intro w L pc hl hh hpre
  have := h w L pc hl hh hpre
  rcases hpw : p (w, L) with ⟨r, w', L'⟩
  rw [hpw] at this
  cases r with
  | error e => exact this
  | ok a =>
    obtain ⟨h1, h2, h3, h4, h5⟩ := this
    exact ⟨h1, h2, h3.forget, h4, h5⟩

/-- A lock-scoped operation that returns the latch `v`. -/
theorem simWhole_read {body : List Micro} {p : Pseudo.Code Byte} (hne : body ≠ []) (hseq : seqOf k i = locked body)
    (hval : ∀ s L, (routineOf i).value s L = latchValue .v s L)
    (hp : Sim k i c (some (none, none)) (some (none, none)) (.held c) body .proceed p (fun b L => L.read .v = some b)) :
    SimWhole k i c (Pseudo.zext (Pseudo.locked c p)) := by
  have := sim_forget (sim_map (post' := fun v L => ∀ s, (routineOf i).value s L = .ok v) byteValue
    (sim_locked (after := .proceed) hne hp)
    (fun b L _ h s => by rw [hval]; simp [latchValue, Latches.need, h, Except.map]))
  unfold SimWhole
  rw [hseq]; exact this

/-- A lock-scoped operation that returns 0. -/
theorem simWhole_write {body : List Micro} {p : Pseudo.Code Unit} (hne : body ≠ []) (hseq : seqOf k i = locked body)
    (hval : ∀ s L, (routineOf i).value s L = .ok 0)
    (hp : Sim k i c (some (none, none)) (some (none, none)) (.held c) body .proceed p) :
    SimWhole k i c (Pseudo.zero (Pseudo.locked c p)) := by
  have := sim_forget (sim_map (post' := fun v L => ∀ s, (routineOf i).value s L = .ok v) (fun _ => (0 : Word32))
    (sim_locked (after := .proceed) hne hp) (fun _ L _ _ s => hval s L))
  unfold SimWhole
  rw [hseq]; exact this

theorem familyRead_ne (opc : Byte) (validate : Bool) : familyRead opc validate ≠ [] := by
  simp [familyRead, sendCommand]

theorem familyWrite_ne (opc : Byte) (validate : Bool) : familyWrite opc validate ≠ [] := by
  simp [familyWrite, sendCommand]

/-- The scan with its lock and its counter. -/
theorem sim_scan (hk : 0 < k.maxPoll) (hn : 0 < k.nTbl) :
    SimWhole k .tableScan c (Pseudo.zero (Pseudo.locked c
      (do Pseudo.assign fun L => { L with idx := some 0 }; Pseudo.scanLoop k c k.nTbl 0))) := by
  have hbody : Sim k .tableScan c (some (none, none)) none (.held c) (scanBody k) .proceed
      (do Pseudo.assign fun L => { L with idx := some 0 }; Pseudo.scanLoop k c k.nTbl 0) := by
    intro w L pc hl hh hpre
    have hlen : (seqOf k .tableScan).length = 16 := rfl
    have hpc : pc + 14 < (seqOf k .tableScan).length ∨ 2 ≤ pc := by omega
    have hle := hpre.length_le
    rw [List.length_drop, hlen, scanBody_length] at hle
    rcases hpc with hpc | hpc
    · have := scan_run (y := none) hk k.nTbl 0 none w L pc hl rfl hh rfl hn hpre hpc
      have h0 : L.starting (some .idx) = { L with idx := some 0 } := by
        simp only [Latches.starting, Latches.start, (hl.holds.counters _ rfl).1, Option.getD_none]
      rw [h0] at this
      rw [scanBody_length, show pc + 14 - 1 = pc + 13 by omega, Pseudo.bind_run]
      simp only [Pseudo.assign]
      rcases hpw : Pseudo.scanLoop k c k.nTbl 0 (w, { L with idx := some 0 }) with ⟨r, w', L'⟩
      rw [hpw] at this
      cases r with
      | error e => exact this
      | ok a =>
        obtain ⟨h1, h2, h3, h4, h5⟩ := this
        exact ⟨h1, h2, h3, trivial, h4, h5⟩
    · have h2 : pc = 2 := by omega
      subst h2
      have h0 := prefix_head (m := { act := .waitIbf, starts := some .idx }) (ms := (scanBody k).tail) hpre
      exact absurd h0 (by
        show (seqOf k .tableScan)[2]? ≠ _
        simp [seqOf, routineOf, tableScanRoutine, scanBody, sendCommand, locked])
  exact sim_map (post' := fun v L => ∀ s, (routineOf .tableScan).value s L = .ok v) (fun _ => (0 : Word32))
    (sim_locked (after := .proceed) (by simp [scanBody, sendCommand]) hbody) (fun _ L _ _ s => rfl)

/-- The pseudocode of an operation without what TABLE_SCAN sets at its admission and at its end. -/
def Pseudo.body (k : Config) (c : Nat) : Instr → Pseudo.Code Word32
  | .tableScan => Pseudo.zero (Pseudo.locked c
      (do Pseudo.assign fun L => { L with idx := some 0 }; Pseudo.scanLoop k c k.nTbl 0))
  | i => Pseudo.operation k c i

/-- Every operation with port accesses does what its pseudocode does. -/
theorem sim_operation (hwf : k.wf = true) (i : Instr) (h : ∀ index, i ≠ .tableRead index) :
    SimWhole k i c (Pseudo.body k c i) := by
  have hb : 0 < k.maxPoll ∧ 0 < k.smbMaxPoll ∧ 0 < k.nTbl := by
    simp [Config.wf, Config.countsOk] at hwf
    omega
  obtain ⟨hk, hs, hn⟩ := hb
  have fr := fun (i : Instr) opc val (tgt : Byte) (ht : i.operands.1 = tgt) =>
    sim_familyRead (k := k) (i := i) (c := c) (z := some (none, none)) (lk := .held c) hk opc tgt val ht
  have fw := fun (i : Instr) opc b (tgt val : Byte) (ht : i.operands.1 = tgt) (hv : i.operands.2.1 = val) =>
    sim_familyWrite (k := k) (i := i) (c := c) (z := some (none, none)) (lk := .held c) hk opc tgt val b ht hv
  cases i with
  | waitIbf => exact simWhole_write (by simp) rfl (fun _ _ => rfl) (sim_waitIbf hk)
  | waitObf => exact simWhole_write (by simp) rfl (fun _ _ => rfl) (sim_waitObf hk)
  | ramRead addr =>
    exact simWhole_read (by simp [memRead, sendCommand]) rfl (fun _ _ => rfl) (sim_memRead hk (holds_a0 rfl))
  | ramWrite addr value =>
    exact simWhole_write (by simp [memWrite, sendCommand]) rfl (fun _ _ => rfl)
      (sim_memWrite hk (holds_a0 rfl) (holds_a1 rfl))
  | acpiRead addr => exact simWhole_read (familyRead_ne _ _) rfl (fun _ _ => rfl) (fr _ _ _ _ rfl)
  | acpiWrite addr value => exact simWhole_write (familyWrite_ne _ _) rfl (fun _ _ => rfl) (fw _ _ _ _ _ rfl rfl)
  | gpioStatusRead pin => exact simWhole_read (familyRead_ne _ _) rfl (fun _ _ => rfl) (fr _ _ _ _ rfl)
  | gpioStatusWrite pin value => exact simWhole_write (familyWrite_ne _ _) rfl (fun _ _ => rfl) (fw _ _ _ _ _ rfl rfl)
  | gpioDirRead pin => exact simWhole_read (familyRead_ne _ _) rfl (fun _ _ => rfl) (fr _ _ _ _ rfl)
  | gpioDirWrite pin value => exact simWhole_write (familyWrite_ne _ _) rfl (fun _ _ => rfl) (fw _ _ _ _ _ rfl rfl)
  | adRead index mult =>
    exact sim_forget (sim_locked (by simp [sendCommand]) (sim_adRead (i := .adRead index mult) hk index mult rfl rfl))
  | onekeyRead addr => exact simWhole_read (familyRead_ne _ _) rfl (fun _ _ => rfl) (fr _ _ _ _ rfl)
  | onekeyWrite addr value => exact simWhole_write (familyWrite_ne _ _) rfl (fun _ _ => rfl) (fw _ _ _ _ _ rfl rfl)
  | oemRead addr => exact simWhole_read (familyRead_ne _ _) rfl (fun _ _ => rfl) (fr _ _ _ _ rfl)
  | oemWrite addr value => exact simWhole_write (familyWrite_ne _ _) rfl (fun _ _ => rfl) (fw _ _ _ _ _ rfl rfl)
  | smbReadByte ch slv reg =>
    exact sim_smbTransaction (i := .smbReadByte ch slv reg) hk hs .byteRead ch slv reg 0 rfl rfl rfl (by simp)
  | smbWriteByte ch slv reg data =>
    exact sim_smbTransaction (i := .smbWriteByte ch slv reg data) hk hs .byteWrite ch slv reg data rfl rfl rfl (fun _ => rfl)
  | smbReadWord ch slv reg =>
    exact sim_smbTransaction (i := .smbReadWord ch slv reg) hk hs .wordRead ch slv reg 0 rfl rfl rfl (by simp)
  | tableScan => exact sim_scan hk hn
  | tableRead index => exact absurd rfl (h index)

/-- Ending an operation does not touch the list of clients but for the client itself. -/
theorem complete_client? (s : State) (i : Instr) (c : Nat) (q : Sequencer) (res : Response) (h : c < s.clients.length) :
    (s.complete (routineOf i) c q res).client? c =
      some { phase := .complete, latches := { q.latches with res := some res } } := by
  obtain ⟨st, hst⟩ := routineOf_ended i res s
  rw [State.complete, State.client?_setClient_self]
  rw [hst]; exact h

/-- From the first step to the end: the run ends as the pseudocode ends, one turn for each event. -/
theorem whole_run {p : Pseudo.Code Word32} (hp : SimWhole k i c p) (w : State)
    (hl : Live k i c (some (none, none)) w (Latches.ofRequest i)) (hfree : w.lock = .free) :
    ∃ n, 0 < n ∧ runTurns i c n (w.seat c 0 (Latches.ofRequest i)) =
        .next ((p (w, Latches.ofRequest i)).2.1.complete (routineOf i) c { latches := (p (w, Latches.ofRequest i)).2.2 }
          (Pseudo.response (p (w, Latches.ofRequest i)).1)) ∧
      (p (w, Latches.ofRequest i)).2.1.trace.length = w.trace.length + n := by
  have main : ∃ n, runTurns i c n (w.seat c 0 (Latches.ofRequest i)) =
        .next ((p (w, Latches.ofRequest i)).2.1.complete (routineOf i) c { latches := (p (w, Latches.ofRequest i)).2.2 }
          (Pseudo.response (p (w, Latches.ofRequest i)).1)) ∧
      (p (w, Latches.ofRequest i)).2.1.trace.length = w.trace.length + n ∧
      (p (w, Latches.ofRequest i)).2.1.clients = w.clients := by
    have := hp w (Latches.ofRequest i) 0 hl hfree (by simp)
    rcases hpw : p (w, Latches.ofRequest i) with ⟨r, w', L'⟩
    rw [hpw] at this
    cases r with
    | error e =>
      obtain ⟨hk, n, pc', ht, hlock, hrun⟩ := this
      exact ⟨n, by rw [hrun]; simp [State.raise, hlock, Pseudo.response], ht, hk.clients⟩
    | ok v =>
      obtain ⟨hk, _, _, hval, _, n, ht, hrun⟩ := this
      refine ⟨n, ?_, ht, hk.clients⟩
      rw [hrun]
      have hlen := (seq_end k i).2
      have hcfg : w'.cfg = k := hk.cfg.trans hl.cfg
      have hge : ¬ 0 + (seqOf k i).length - 1 + 1 < ((routineOf i).seq w'.cfg).length := by
        rw [hcfg]; show ¬ _ < (seqOf k i).length; omega
      simp only [State.settle, State.goto, hge, if_false, hval w', attempt, Pseudo.response]
  obtain ⟨n, h1, h2, h3⟩ := main
  refine ⟨n, ?_, h1, h2⟩
  rcases Nat.eq_zero_or_pos n with h0 | hpos
  · subst h0
    simp only [runTurns, Host.Outcome.next.injEq] at h1
    have h4 := State.client?_seat w (pc := 0) (L := Latches.ofRequest i) hl.here
    rw [h1, complete_client? _ _ _ _ _ (by rw [h3]; exact hl.here)] at h4
    simp at h4
  · exact hpos

/-! ## With the issue step before it -/

/-- The state in which client `c` stands at the first step of `i`, its own sequencer aside (R75). -/
def State.started (s : State) (i : Instr) (c : Nat) : State :=
  (routineOf i).issued (s.atTurn (.run c))

theorem exec_issue {s : State} (i : Instr) (c : Nat) (hr : Ready s c) (ha : (routineOf i).admits s = true) :
    exec i (s.atTurn (.request c (encodeReq i))) =
      .next (((routineOf i).issued (s.atTurn (.request c (encodeReq i)))).setClient c
        { phase := .busy 0 .start, latches := .ofRequest i }) := by
  rw [exec_eq_operate]
  show Host.Outcome.next (State.issue _ _ _ _) = _
  rw [State.issue, if_pos]
  refine ⟨hr.life, hr.idle, ?_⟩
  cases i <;> first | rfl | exact ha

/-- After the issue step only the run turns are left. -/
theorem performs_run {s : State} (i : Instr) (c n : Nat) (hr : Ready s c) (ha : (routineOf i).admits s = true)
    (hn : 0 < n) : performs i c n s = runTurns i c n ((s.started i c).seat c 0 (Latches.ofRequest i)) := by
  unfold performs
  rw [exec_issue i c hr ha]
  simp only
  rw [← runTurns_atTurn _ _ _ _ hn]
  congr 1
  cases i <;> rfl

theorem started_live {s : State} (i : Instr) (c : Nat) (hr : Ready s c) (ht : s.table.length = s.cfg.nTbl) :
    Live s.cfg i c (some (none, none)) (s.started i c) (Latches.ofRequest i) := by
  obtain ⟨q, hq, _⟩ := State.phase?_some hr.idle
  have hlt := State.client?_lt hq
  refine ⟨?_, ?_, ?_, ?_, ⟨rfl, rfl, rfl, rfl, rfl, ?_⟩⟩
  · cases i <;> rfl
  · cases i <;> rfl
  · cases i <;> exact hlt
  · cases i <;> first | exact ht | simp [State.started, routineOf, tableScanRoutine, scanIssued, State.atTurn]
  · intro p hp; cases hp; exact ⟨rfl, rfl⟩

/-- An operation with port accesses, issued and run: it ends as its pseudocode ends. -/
theorem performs_body {s : State} (i : Instr) (c : Nat) (hne : ∀ index, i ≠ .tableRead index) (hwf : s.cfg.wf = true)
    (ht : s.table.length = s.cfg.nTbl) (hr : Ready s c) (ha : (routineOf i).admits s = true) :
    ∃ n, performs i c n s = .next ((Pseudo.body s.cfg c i (s.started i c, Latches.ofRequest i)).2.1.complete
          (routineOf i) c { latches := (Pseudo.body s.cfg c i (s.started i c, Latches.ofRequest i)).2.2 }
          (Pseudo.response (Pseudo.body s.cfg c i (s.started i c, Latches.ofRequest i)).1)) ∧
      (Pseudo.body s.cfg c i (s.started i c, Latches.ofRequest i)).2.1.trace.length = s.trace.length + n := by
  have hfree : (s.started i c).lock = .free := by cases i <;> exact hr.lock
  have htr : (s.started i c).trace = s.trace := by cases i <;> rfl
  obtain ⟨n, hn, hrun, hlen⟩ := whole_run (sim_operation (c := c) hwf i hne) (s.started i c) (started_live i c hr ht) hfree
  exact ⟨n, by rw [performs_run i c n hr ha hn]; exact hrun, by rw [hlen, htr]⟩

end Sys2Proof.Machine
end

