-- ==== Sys2Proof/Laws/Perform.lean ====
section
/-!
SUPPORT. From a dialogue of the pseudocode to the machine's run: where the pseudocode plays a list of moves, the
operation, issued and run, makes those events and ends so.
-/
namespace Sys2Proof.Machine

theorem played_started (s : State) (i : Instr) (c : Nat) (ms : List Move) (h : i ≠ .tableScan) :
    s.started i c = s.atTurn (.run c) := by
  cases i <;> first | rfl | exact absurd rfl h

/-- What an operation but the scan ends in, given what its pseudocode plays. -/
theorem ends_of_plays {s : State} {i : Instr} {c : Nat} {ms : List Move} {r : Except Response Word32}
    (hread : ∀ index, i ≠ .tableRead index) (hscan : i ≠ .tableScan) (hwf : s.cfg.wf = true)
    (ht : s.table.length = s.cfg.nTbl) (hr : Ready s c)
    (hp : Plays s.cfg c (Pseudo.operation s.cfg c i) ms r) (hfree : lockOf c .free ms = .free) :
    EndsWith s i c ms (Pseudo.response r) s.table s.scanStatus := by
  intro rest hs hok
  have ha : (routineOf i).admits s = true := by
    cases i <;> first | rfl | exact absurd rfl hscan | exact absurd rfl (hread _)
  have hst := played_started s i c ms hscan
  obtain ⟨q, hq, _⟩ := State.phase?_some hr.idle
  have hlt := State.client?_lt hq
  have hbody : Pseudo.body s.cfg c i = Pseudo.operation s.cfg c i := by
    cases i <;> first | rfl | exact absurd rfl hscan
  obtain ⟨n, hrun, hlen⟩ := performs_body i c hread hwf ht hr ha
  rw [hbody, hst] at hrun hlen
  obtain ⟨L', hpl⟩ := hp (s.atTurn (.run c)) (Latches.ofRequest i) rest rfl hs hok
  rw [hpl] at hrun hlen
  have hn : n = (eventsOf s.cfg c ms).length := by
    have h1 : ((s.atTurn (.run c)).played c ms).trace = s.trace ++ eventsOf s.cfg c ms := rfl
    simp only [h1, List.length_append] at hlen
    omega
  subst hn
  have hended : ∀ res u, (routineOf i).ended res u = u := by
    intro res u; cases i <;> first | rfl | exact absurd rfl hscan
  refine ⟨_, hrun, ?_⟩
  simp only [State.complete, hended]
  have hc : ∀ q, (((s.atTurn (.run c)).played c ms).setClient c q).client? c = some q :=
    fun q => State.client?_setClient_self _ q hlt
  refine ⟨rfl, ?_, ?_, ?_, ?_, rfl, rfl, ⟨rfl, rfl, rfl, rfl, rfl, rfl, rfl, rfl, ?_⟩⟩
  · show List.drop _ s.script = rest
    rw [hs]; simp
  · simp [State.phase?, hc]
  · simp [State.result?, hc]
  · show lockOf c s.lock ms = .free
    rw [hr.lock]; exact hfree
  · intro d hd
    rw [State.client?_setClient_ne _ _ hd]; rfl

/-- The moves of a lock around a body leave the lock free. -/
theorem lockOf_closed (c : Nat) (lk : Lock) (ms : List Move) : lockOf c lk (ms ++ [.release]) = .free := by
  rw [lockOf_append]; rfl

/-- What an operation but the scan ends in, and each of its waits that may run out. -/
theorem endsOrTimesOut_of_says {s : State} {i : Instr} {c : Nat} {ms : List Move} {v : Word32}
    (hread : ∀ index, i ≠ .tableRead index) (hscan : i ≠ .tableScan) (hwf : s.cfg.wf = true)
    (ht : s.table.length = s.cfg.nTbl) (hr : Ready s c)
    (hp : Says s.cfg c [.release] (Pseudo.operation s.cfg c i) ms v) (hfree : lockOf c .free ms = .free) :
    EndsOrTimesOut s i c ms (.ok v) := by
  refine ⟨ends_of_plays hread hscan hwf ht hr hp.1 hfree, ?_⟩
  intro ms' h
  exact ends_of_plays hread hscan hwf ht hr (hp.2 ms' h) (lockOf_closed c .free ms')

/-- A lock-scoped operation in which the body of its pseudocode says the moves between. -/
theorem endsOrTimesOut_of_locked {s : State} {i : Instr} {c : Nat} {ms : List Move} {v : Word32}
    (hread : ∀ index, i ≠ .tableRead index) (hscan : i ≠ .tableScan) (hwf : s.cfg.wf = true)
    (ht : s.table.length = s.cfg.nTbl) (hr : Ready s c)
    (hp : Says s.cfg c [.release] (Pseudo.operation s.cfg c i) (.acquire :: (ms ++ [.release])) v) :
    EndsOrTimesOut s i c (.acquire :: (ms ++ [.release])) (.ok v) :=
  endsOrTimesOut_of_says hread hscan hwf ht hr hp (lockOf_closed c .free (.acquire :: ms))

end Sys2Proof.Machine
end

