-- ==== Sys2Proof/Laws/Steps.lean ====
section
/-!
SUPPORT. Everything that one step can be, said once, and what the shape of the sequences says about which step may
follow which: the parts that proofs about whole steps put together.
-/
namespace Sys2Proof.Machine

/-- Everything that a step can be. -/
theorem step_cases {s t : State} (h : step s = .next t) :
    (∃ c q q' i, s.nextTurn = .run c ∧ s.client? c = some q ∧ q.latches.operation = some i ∧ Turned s.takeTurn t i c q q') ∨
    (t = s.takeTurn) ∨
    (∃ c w, s.nextTurn = .request c w ∧ t = s.takeTurn.markRefused ∧ ∀ i, ¬ Admits s c w i) ∨
    (∃ c w i, s.nextTurn = .request c w ∧ decodeReq w = .ok i ∧ Admits s c w i ∧ t = ((routineOf i).issued s.takeTurn).setClient c { phase := .busy 0 .start, latches := .ofRequest i }) ∨
    (∃ c L r, s.nextTurn = .collect c ∧ s.client? c = some ⟨.complete, L⟩ ∧ t = { s.takeTurn.setClient c { phase := .idle, latches := L } with collected := s.collected ++ [(c, r)] }) ∨
    (∃ p, s.nextTurn = .attach p ∧ t = s.takeTurn.attach p) ∨ (s.nextTurn = .detach ∧ t = s.takeTurn.detach) := by
  unfold step at h
  dsimp only at h
  have hnow : s.takeTurn.now = s.nextTurn := rfl
  rw [hnow] at h
  cases hn : s.nextTurn with
  | request c w =>
    rw [hn] at h; dsimp only at h
    refine Or.inr (Or.inr ?_)
    cases hd : decodeReq w with
    | error e =>
      rw [hd] at h; cases h
      exact Or.inl ⟨c, w, rfl, rfl, fun i hi => by rw [hi.decodes] at hd; cases hd⟩
    | ok i =>
      rw [hd] at h; dsimp only at h
      rw [exec_eq_operate] at h; simp only [operate, hnow, hn] at h; cases h
      unfold State.issue
      have hcond : (s.takeTurn.life = .attached ∧ s.takeTurn.phase? c = some .idle ∧ (routineOf i).admits s.takeTurn = true) ↔ Admits s c w i := by
        constructor
        · rintro ⟨h1, h2, h3⟩
          refine ⟨h1, h2, hd, ?_, ?_⟩
          · rintro index rfl; exact of_decide_eq_true h3
          · rintro rfl; simpa [routineOf, tableScanRoutine, scanAdmitted] using h3
        · rintro ⟨h1, h2, h3, h4, h5⟩
          refine ⟨h1, h2, ?_⟩
          cases i
          case tableRead => exact decide_eq_true (h4 _ rfl)
          case tableScan => simpa [routineOf, tableScanRoutine, scanAdmitted] using h5 rfl
          all_goals rfl
      split
      · rename_i h; exact Or.inr (Or.inl ⟨c, w, i, rfl, hd, hcond.mp h, rfl⟩)
      · rename_i h
        exact Or.inl ⟨c, w, rfl, rfl, fun j hj => by
          have := hj.decodes; rw [hd] at this; cases this; exact h (hcond.mpr hj)⟩
  | run c =>
    rw [hn] at h; dsimp only at h
    unfold attempt at h
    split at h
    · rename_i o hr
      cases o with
      | none => cases h; exact Or.inr (Or.inl rfl)
      | some i =>
        simp only at h
        have hq : ∃ q, s.client? c = some q ∧ q.latches.operation = some i := by
          unfold State.running at hr
          split at hr
          · rename_i L hq
            split at hr
            · rename_i j hj; cases hr; exact ⟨_, hq, hj⟩
            · cases hr
          all_goals cases hr
        obtain ⟨q, hq, ho⟩ := hq
        rcases exec_run (s := s.takeTurn) (by rw [hnow, hn]) h with ⟨h1, _⟩ | ⟨q0, q', hq0, hT⟩
        · have h1' : s.client? c = none := h1
          rw [hq] at h1'; cases h1'
        · have : s.client? c = some q0 := hq0
          rw [hq] at this; cases this
          exact Or.inl ⟨c, q, q', i, rfl, hq, ho, hT⟩
    · cases h
  | collect c =>
    rw [hn] at h; dsimp only at h
    unfold State.collect at h
    split at h
    · rename_i L hq
      split at h
      · cases h; exact Or.inr (Or.inr (Or.inr (Or.inr (Or.inl ⟨c, L, _, rfl, hq, rfl⟩))))
      · cases h
    all_goals (cases h; exact Or.inr (Or.inl rfl))
  | attach p => rw [hn] at h; dsimp only at h; cases h; exact Or.inr (Or.inr (Or.inr (Or.inr (Or.inr (Or.inl ⟨p, rfl, rfl⟩)))))
  | detach => rw [hn] at h; dsimp only at h; cases h; exact Or.inr (Or.inr (Or.inr (Or.inr (Or.inr (Or.inr ⟨rfl, rfl⟩)))))

theorem client?_attach_of {s : State} {p c q} (h : (s.attach p).client? c = some q) : (s.client? c = some q ∧ (s.attach p).scanStatus = s.scanStatus ∧ (s.attach p).trace = s.trace ∧ (s.attach p).cfg = s.cfg) ∨ (q = {} ∧ (s.attach p).trace = []) := by
  unfold State.attach at *
  split at h
  · rename_i hh; rw [if_pos hh]; exact Or.inl ⟨h, rfl, rfl, rfl⟩
  · rename_i hh; rw [if_neg hh]; cases p with
    | none => exact Or.inl ⟨h, rfl, rfl, rfl⟩
    | some p =>
      simp [State.client?, List.getElem?_replicate] at h
      exact Or.inr ⟨h.2.symm, rfl⟩

theorem client?_detach_of {s : State} {c q} (h : s.detach.client? c = some q) : s.client? c = some q ∧ s.detach.scanStatus = s.scanStatus ∧ s.detach.trace = s.trace := by
  unfold State.detach at *
  split at h
  · simp [State.client?] at h
  · rename_i hh; rw [if_neg hh]; exact ⟨h, rfl, rfl⟩

theorem Turned.operation {s t : State} {i c q q'} (h : Turned s t i c q q') : q'.latches.operation = q.latches.operation := by
  apply Latches.operation_congr
  intro l hl
  apply h.latch.1
  revert hl; cases i <;> cases l <;> simp [latchesOf, requestLatches]

theorem Turned.scan {s t : State} {c q q'} (h : Turned s t .tableScan c q q') (hb : ∃ pc st, q.phase = .busy pc st) :
   (t.scanStatus = s.scanStatus ∧ ∃ pc st, q'.phase = .busy pc st) ∨ (q'.phase = .complete ∧ ∃ res, q'.latches.res = some res ∧ t.scanStatus = endStatus .tableScan res .running) := by
  have hs : ∀ {w u : State} {after pc q1}, Settled w u .tableScan after c pc q1 q' → w.scanStatus = s.scanStatus →
    (u.scanStatus = s.scanStatus ∧ ∃ pc st, q'.phase = .busy pc st) ∨ (q'.phase = .complete ∧ ∃ res, q'.latches.res = some res ∧ u.scanStatus = endStatus .tableScan res .running) := by
    intro w u after pc q1 h hw
    rcases h.phase with ⟨h1, res, h2, h3⟩ | ⟨h1, _, h2 | h2⟩
    · exact Or.inr ⟨h1, res, h2, by rw [h3]; simp [endStatus]⟩
    · obtain ⟨e, h2⟩ := h2; exact Or.inl ⟨h1.trans hw, _, _, h2⟩
    · obtain ⟨e, h2, _⟩ := h2; exact Or.inl ⟨h1.trans hw, _, _, h2⟩
  cases h with
  | idle h he hp => obtain ⟨pc, st, hb⟩ := hb; exact absurd hb (hp _ _)
  | performed pc stage m hp _ hm h =>
    cases h with
    | held h he => subst h he; exact Or.inl ⟨rfl, _, _, hp⟩
    | acted w q1 hs' ha => obtain ⟨_, _, _, _, hw⟩ := ha.shape; exact hs hs' (by rw [hw])
    | late b w hw hb' ha hl hp' =>
      rcases hp' with ⟨h1, h2, h3⟩ | ⟨L1, _, hs', _⟩
      · subst h3 hw; exact Or.inl ⟨rfl, _, _, h1⟩
      · exact hs hs' (by rw [hw]; rfl)
  | aborted pc e hp hl h he =>
    refine Or.inr ⟨by rw [he], e, by rw [he], ?_⟩
    rw [h]; simp only [State.complete, routineOf_ended_eq]; simp [endStatus]

/-- Which port an act writes or reads, or waits for. -/
def actKind : Act → Nat
  | .command _ | .argument _ => 1
  | .response _ => 2
  | .waitIbf => 3
  | .waitObf => 4
  | _ => 0

/-- A step may follow another under the handshake discipline (R83). -/
def hsPred (prev : Option Micro) (m : Option Micro) : Bool :=
  match m with
  | none => true
  | some m => match actKind m.act with
    | 1 => match prev with | some p => actKind p.act == 3 | none => false
    | 2 => match prev with | some p => actKind p.act == 4 | none => false
    | _ => true

/-- The order of a whole sequence keeps the handshake discipline, loops included. -/
def hsOk (seq : List Micro) : Bool :=
  hsPred none seq[0]? && (List.range seq.length).all fun pc =>
    hsPred seq[pc]? seq[pc+1]? && match seq[pc]? with
      | some m => (match m.after.back? with | some b => hsPred none seq[pc - b]? | none => true)
      | none => true

theorem actKind_shape (a : Act) : actKind a.shape = actKind a := by
  cases a <;> try rfl
  rename_i s; cases s <;> rfl

theorem hsPred_shape (p m : Option Micro) : hsPred (p.map Micro.shape) (m.map Micro.shape) = hsPred p m := by
  cases m with
  | none => rfl
  | some m =>
    have h1 : actKind (Micro.shape m).act = actKind m.act := actKind_shape m.act
    cases p with
    | none => simp [hsPred, h1]
    | some p =>
      have h2 : actKind (Micro.shape p).act = actKind p.act := actKind_shape p.act
      simp [hsPred, h1, h2]

theorem hsOk_shape (seq : List Micro) : hsOk (seq.map Micro.shape) = hsOk seq := by
  unfold hsOk
  have h0 : ∀ b : Option Micro, hsPred none (b.map Micro.shape) = hsPred none b := fun b => hsPred_shape none b
  simp only [List.getElem?_map, List.length_map, hsPred_shape, h0]
  congr 1
  congr 1
  funext pc
  congr 1
  cases seq[pc]? with
  | none => rfl
  | some m => rfl

theorem reps_hs (scope : LockScope) : (reps.all fun i => hsOk (seqOf (withScope scope) i)) = true := by
  cases scope <;> decide +kernel

theorem seq_hs (k : Config) (i : Instr) : hsOk (seqOf k i) = true := by
  rw [← hsOk_shape, seqOf_shape, hsOk_shape]
  exact List.all_eq_true.mp (reps_hs _) _ (rep_mem i)

theorem ready_of {k : Config} {c : Nat} {last : Option Event} {a : Act} (h : actKind a ≠ 1 ∧ actKind a ≠ 2) : a.ready k c last = true := by
  cases a <;> simp_all [actKind, Act.ready]

theorem hs_next {s w : State} {i : Instr} {c pc : Nat} {q q1 : Sequencer} {m m' : Micro} {pc' : Nat}
  (hm : (seqOf s.cfg i)[pc]? = some m) (hm' : (seqOf s.cfg i)[pc']? = some m')
  (ha : Acted s w c m q q1) (hpc : pc' = pc + 1 ∨ ∃ b, m.after.back? = some b ∧ pc' = pc - b) : m'.act.ready s.cfg c w.trace.getLast? = true := by
  have hok := seq_hs s.cfg i
  simp only [hsOk, Bool.and_eq_true, List.all_eq_true, List.mem_range] at hok
  have hp := hok.2 pc (List.getElem?_eq_some_iff.mp hm).1
  rw [hm] at hp
  rcases hpc with rfl | ⟨b, hb, rfl⟩
  · have h1 := hp.1
    rw [hm'] at h1
    simp only [hsPred] at h1
    by_cases hk1 : actKind m'.act = 1
    · rw [hk1] at h1
      simp only [beq_iff_eq] at h1
      rcases ha.event with ⟨_, _, e⟩ | ⟨_, _, _, e⟩ | ⟨_, _, _, e⟩ | ⟨_, _, _, e⟩ | ⟨_, _, _, e⟩ | ⟨_, _, _, e⟩ | ⟨_, b, hb, e | e⟩
      any_goals (rw [e] at h1; simp [actKind] at h1)
      all_goals (try (rw [e.1] at h1; simp [actKind] at h1))
      all_goals (rw [hb]; cases hma : m'.act <;> rw [hma] at hk1 <;> simp [actKind] at hk1)
      all_goals simp [Act.ready, handshakeStep, e.2]
    · by_cases hk2 : actKind m'.act = 2
      · rw [hk2] at h1
        simp only [beq_iff_eq] at h1
        rcases ha.event with ⟨_, _, e⟩ | ⟨_, _, _, e⟩ | ⟨_, _, _, e⟩ | ⟨_, _, _, e⟩ | ⟨_, _, _, e⟩ | ⟨_, _, _, e⟩ | ⟨_, b, hb, e | e⟩
        any_goals (rw [e] at h1; simp [actKind] at h1)
        all_goals (try (rw [e.1] at h1; simp [actKind] at h1))
        all_goals (rw [hb]; cases hma : m'.act <;> rw [hma] at hk2 <;> simp [actKind] at hk2)
        all_goals simp [Act.ready, handshakeStep, e.2]
      · exact ready_of ⟨hk1, hk2⟩
  · have h1 := hp.2
    simp only [hb] at h1
    rw [hm'] at h1
    simp only [hsPred] at h1
    apply ready_of
    constructor <;> intro hk <;> rw [hk] at h1 <;> simp at h1

theorem handshake_append (k : Config) (p : Option Event) (tr : List Event) (e : Event) :
   handshake k p (tr ++ [e]) = (handshake k p tr && handshakeStep k (tr.getLast?.or p) e) := by
  induction tr generalizing p with
  | nil => simp [handshake]
  | cons a as ih => simp [handshake, ih, Bool.and_assoc, List.getLast?_cons]

theorem handshake_none (k : Config) (tr : List Event) (e : Event) :
   handshake k none (tr ++ [e]) = (handshake k none tr && handshakeStep k tr.getLast? e) := by
  rw [handshake_append]; cases tr.getLast? <;> rfl

/-- Which internal work may hang on an act, and whether a step with that act may be the last. -/
def wherePred (last : Bool) (m : Micro) : Bool :=
  match m.act with
  | .acquire | .waitIbf | .waitObf | .command _ | .argument _ => !last && m.after == .proceed
  | .response _ => !last
  | .release => (match m.after with
    | .storeEntry _ | .checkTarget | .checkTable => false
    | .proceed | .checkIdle _ | .checkStatus => !last || m.after == .proceed || m.after == .checkStatus)
  | .lookup => true

theorem seq_where_reps (scope : LockScope) : (reps.all fun i => (List.range (seqOf (withScope scope) i).length).all fun pc =>
   match (seqOf (withScope scope) i)[pc]? with | some m => wherePred (pc + 1 == (seqOf (withScope scope) i).length) m | none => true) = true := by
  cases scope <;> decide +kernel

theorem seq_where {k : Config} {i : Instr} {pc : Nat} {m : Micro} (h : (seqOf k i)[pc]? = some m) : wherePred (pc + 1 == (seqOf k i).length) m = true := by
  have hl : (seqOf k i).length = (seqOf (withScope k.smbusLockScope) (rep i)).length := by
    have := congrArg List.length (seqOf_shape k i); simpa using this
  have h1 := congrArg (fun l => l[pc]?) (seqOf_shape k i)
  simp only [List.getElem?_map, h, Option.map_some] at h1
  have h2 := List.all_eq_true.mp (seq_where_reps k.smbusLockScope) _ (rep_mem i)
  have h3 := List.all_eq_true.mp h2 pc (by rw [List.mem_range, ← hl]; exact (List.getElem?_eq_some_iff.mp h).1)
  cases hm : (seqOf (withScope k.smbusLockScope) (rep i))[pc]? with
  | none => rw [hm] at h1; cases h1
  | some m' =>
    rw [hm] at h1 h3; simp only [Option.map_some, Option.some.injEq] at h1
    have hsh : ∀ (b : Bool) (x : Micro), wherePred b x.shape = wherePred b x := by
      intro b x; rcases x with ⟨a, f, y⟩; cases a <;> try rfl
      rename_i src; cases src <;> rfl
    rw [← hsh, h1, hsh, hl]; exact h3

theorem settle_plain {s : State} {r : Routine} {c pc : Nat} {q : Sequencer} (hl : pc + 1 < (r.seq s.cfg).length) :
    s.settle r .proceed c pc q = .next (s.setClient c { phase := .busy (pc + 1) .start, latches := q.latches }) := by
  simp only [State.settle, State.goto, hl, if_true]

theorem notLast {s : State} {c pc : Nat} {L : Latches} {i : Instr} {m : Micro} (h : Stands s c i pc L m) (hne : (pc + 1 == (seqOf s.cfg i).length) = false) :
  pc + 1 < ((routineOf i).seq s.cfg).length := by
  have := (List.getElem?_eq_some_iff.mp h.step).1
  simp at hne
  show pc + 1 < (seqOf s.cfg i).length
  omega

theorem stands_exec {s : State} {c pc : Nat} {L : Latches} {i : Instr} {m : Micro} (h : Stands s c i pc L m) :
    exec i s = s.perform (routineOf i) m c pc ⟨.busy pc .start, L⟩ .start := by
  rw [exec_eq_operate]; simp only [operate, h.now, State.advance, h.here]
  have : ((routineOf i).seq s.cfg)[pc]? = some m := h.step
  rw [this]

theorem stands_busy {s : State} {c pc : Nat} {L : Latches} {i : Instr} {m : Micro} (h : Stands s c i pc L m) : BusyOk s c L i pc .start := by
  obtain ⟨j, hb⟩ : ∃ j, BusyOk s c L j pc .start := (h.inv.sequencers c _ h.here).phase
  have e := hb.operation; simp only [h.operation] at e; cases e; exact hb

/-- The step at which an SMBus transaction decides its idle poll (R109). -/
def pollAt : LockScope → Instr → Nat
  | .perStep, .smbWriteByte _ _ _ _ => 47
  | .perStep, _ => 39
  | .wholeTransaction, .smbWriteByte _ _ _ _ => 36
  | .wholeTransaction, _ => 30

/-- How far that decision loops back. -/
def pollBack : LockScope → Nat
  | .perStep => 7
  | .wholeTransaction => 5

/-- How far before that decision the first status read of its `RamR` stands. -/
def pollStart : LockScope → Nat
  | .perStep => 6
  | .wholeTransaction => 5

/-- An operation of the SMBus family. -/
def isSmbus : Instr → Bool
  | .smbReadByte _ _ _ | .smbWriteByte _ _ _ _ | .smbReadWord _ _ _ => true
  | .waitIbf | .waitObf | .ramRead _ | .ramWrite _ _ | .acpiRead _ | .acpiWrite _ _ | .gpioStatusRead _
  | .gpioStatusWrite _ _ | .gpioDirRead _ | .gpioDirWrite _ _ | .adRead _ _ | .onekeyRead _ | .onekeyWrite _ _
  | .oemRead _ | .oemWrite _ _ | .tableScan | .tableRead _ => false

/-- The act of the last step of a `RamR` whose byte goes to `l`. -/
def ramEnd : LockScope → Latch → Act
  | .perStep, _ => .release
  | .wholeTransaction, l => .response [.v, l]

/-- Where the steps stand on which a decision or an entry hangs, and which of them may be a sequence's last; and where
a counter starts. -/
def decisionOk (scope : LockScope) (i : Instr) (pc len : Nat) (m : Micro) : Bool :=
  (match m.act with
    | .response ls => !(latchesOf i).contains .v || ls.contains .v
    | .acquire | .waitIbf | .waitObf | .command _ | .argument _ | .release | .lookup => true) &&
  (match m.after with
    | .checkTarget | .checkTable =>
      decide (pc + 1 < len) &&
        (match m.act with
          | .response ls => ls.contains .chk
          | .acquire | .waitIbf | .waitObf | .command _ | .argument _ | .release | .lookup => false)
    | .checkIdle back =>
      isSmbus i && pc == pollAt scope i && back == pollBack scope && decide (pc + 1 < len) && m.act == ramEnd scope .pr
    | .checkStatus =>
      isSmbus i && pc == pollAt scope i + pollBack scope + 1 && m.act == ramEnd scope .st &&
        (decide (pc + 1 < len) || decide (rep i = .smbWriteByte 0 0 0 0))
    | .storeEntry back => decide (i = .tableScan) && pc == 14 && back == 13 && m.act == .response [.dev]
    | .proceed => true) &&
  (match m.starts with
    | none => true
    | some .spoll => isSmbus i && pc == pollAt scope i - pollStart scope
    | some .idx => decide (i = .tableScan) && pc == 1
    | some .poll => false)

theorem reps_decision (scope : LockScope) :
    (reps.all fun i => (List.range (seqOf (withScope scope) i).length).all fun pc =>
      match (seqOf (withScope scope) i)[pc]? with
      | some m => decisionOk scope i pc (seqOf (withScope scope) i).length m
      | none => true) = true := by
  cases scope <;> decide +kernel

theorem decisionOk_rep (scope : LockScope) (i : Instr) (pc len : Nat) (m : Micro) :
    decisionOk scope (rep i) pc len m = decisionOk scope i pc len m := by
  cases i <;> cases scope <;> rfl

theorem decisionOk_shape (scope : LockScope) (i : Instr) (pc len : Nat) (m : Micro) :
    decisionOk scope i pc len m.shape = decisionOk scope i pc len m := by
  rcases m with ⟨a, f, x⟩
  cases a <;> try rfl
  · cases f <;> cases scope <;> rfl
  · rename_i src
    cases src <;> cases f <;> cases scope <;> rfl

/-- Every step of every sequence passes. -/
theorem seq_decision {k : Config} {i : Instr} {pc : Nat} {m : Micro} (h : (seqOf k i)[pc]? = some m) :
    decisionOk k.smbusLockScope i pc (seqOf k i).length m = true := by
  have hl : (seqOf k i).length = (seqOf (withScope k.smbusLockScope) (rep i)).length := by
    have := congrArg List.length (seqOf_shape k i); simpa using this
  have h1 := congrArg (fun l => l[pc]?) (seqOf_shape k i)
  simp only [List.getElem?_map, h, Option.map_some] at h1
  have h2 := List.all_eq_true.mp (reps_decision k.smbusLockScope) _ (rep_mem i)
  have h3 := List.all_eq_true.mp h2 pc (by rw [List.mem_range, ← hl]; exact (List.getElem?_eq_some_iff.mp h).1)
  cases hm : (seqOf (withScope k.smbusLockScope) (rep i))[pc]? with
  | none => rw [hm] at h1; cases h1
  | some m' =>
    rw [hm] at h1 h3
    simp only [Option.map_some, Option.some.injEq] at h1
    rw [← decisionOk_rep, ← decisionOk_shape, h1, decisionOk_shape, hl]
    exact h3

end Sys2Proof.Machine
end

