-- ==== Sys2Proof/Tests/Slice0.lean ====
section
/-!
SUPPORT. Tests of one step each, with expected results from 95_test_vectors.md (V1 to V2) and the operation map of
30_encoding.md R72; ill-formed terms that the checks refuse; and witnesses that the hypotheses of the obligations can
be met.
-/
namespace Sys2Proof.Tests

open Sys2Proof.Machine

/-! ## A small machine -/

/-- The test profile TP of 95_test_vectors.md, with opcodes of the tests' own, all different. -/
def profile : Config :=
  { Config.fallback with
    maxPoll := 2, smbMaxPoll := 2, nTbl := 2
    opRamRead := 0x80, opRamWrite := 0x81, opAcpiRead := 0x82, opAcpiWrite := 0x83
    opGpioStatusRead := 0x84, opGpioStatusWrite := 0x85, opGpioDirRead := 0x86, opGpioDirWrite := 0x87
    opAdIndex := 0x88, opAdLsb := 0x89, opAdMsb := 0x8A, opOnekeyRead := 0x8B, opOnekeyWrite := 0x8C
    opOemRead := 0x8D, opOemWrite := 0x8E, opTblSelect := 0x8F, opTblGetPin := 0x90, opTblGetDevice := 0x91
    smbusProtocol := 0x00, smbusStatus := 0x01, smbusSlvAddr := 0x02, smbusCmd := 0x03, smbusData := 0x04
    smbusDataOffset1 := 0x05, smbusChannel := 0x2B
    modeByteRead := 0x07, modeByteWrite := 0x06, modeWordRead := 0x09 }

/-- One transaction under `WholeTransaction`. -/
def wholeProfile : Config := { profile with smbusLockScope := .wholeTransaction }

/-- Right after attach, client 0 alone, its run turn taken. -/
def base : State := State.attached profile "X"

/-- The latches right after the issue of `i`. -/
def issued (i : Instr) : Latches := Latches.ofRequest i

/-- Client 0 Busy at the start of step `pc` with latches `L`, holding the lock; the EC answers `answers`. -/
def standing (pc : Nat) (L : Latches) (answers : List Byte := []) : State :=
  { base with
    lock := .held 0, trace := [.acquire 0], script := answers
    clients := [{ phase := .busy pc .start, latches := L }] }

/-- The same before the first step, the lock free. -/
def waiting (i : Instr) : State :=
  { base with clients := [{ phase := .busy 0 .start, latches := issued i }] }

/-- The next state, if there is one. -/
def next? : Out → Option State
  | .next s => some s
  | .fault _ | .refused _ => none

/-- The last event of the next state. -/
def event? (o : Out) : Option Event := (next? o).bind (·.trace.getLast?)

/-- Client 0's response word in the next state. -/
def response? (o : Out) : Option Resp := (next? o).bind fun s => (s.result? 0).map Response.word

/-- Client 0's phase in the next state. -/
def phase? (o : Out) : Option Phase := (next? o).bind fun s => s.phase? 0

/-! ## Ill-formed terms -/

theorem test_profile_wf : profile.wf = true ∧ wholeProfile.wf = true := by decide
theorem test_countsOk_maxPoll_zero : Config.countsOk { profile with maxPoll := 0 } = false := by decide
theorem test_countsOk_nTbl_257 : Config.countsOk { profile with nTbl := 257 } = false := by decide
theorem test_countsOk_nTbl_256 : Config.countsOk { profile with nTbl := 256 } = true := by decide
theorem test_portsOk_equal : Config.portsOk { profile with portData := 1 } = false := by decide
theorem test_portsOk_wide : Config.portsOk { profile with portCmd := 2 } = false := by decide
theorem test_cellsOk_shared : Config.cellsOk { profile with smbusCmd := 0x2B } = false := by decide
theorem test_modesOk_zero : Config.modesOk { profile with modeWordRead := 0 } = false := by decide
theorem test_modesOk_shared : Config.modesOk { profile with modeWordRead := 0x07 } = false := by decide
theorem test_wf_refuses : Config.wf { profile with modeWordRead := 0x07 } = false := by decide
theorem test_wellFormed_index : (Instr.tableRead 0x20).wellFormed 32 = false ∧ (Instr.tableRead 0x1F).wellFormed 32 = true := by
  decide

/-! ## Decoding: words written out from R68 and R72 -/

theorem test_decode_waitIbf : decodeReq 0x0000000001 = .ok .waitIbf := by decide
theorem test_decode_waitObf : decodeReq 0x0000000002 = .ok .waitObf := by decide
theorem test_decode_ramRead : decodeReq 0x000000FF10 = .ok (.ramRead 0xFF) := by decide
theorem test_decode_ramWrite : decodeReq 0x0000012B11 = .ok (.ramWrite 0x2B 0x01) := by decide
theorem test_decode_acpiRead : decodeReq 0x0000001020 = .ok (.acpiRead 0x10) := by decide
theorem test_decode_acpiWrite : decodeReq 0x0000FF1021 = .ok (.acpiWrite 0x10 0xFF) := by decide
theorem test_decode_gpioStatusRead : decodeReq 0x0000000722 = .ok (.gpioStatusRead 0x07) := by decide
theorem test_decode_gpioStatusWrite : decodeReq 0x0000010323 = .ok (.gpioStatusWrite 0x03 0x01) := by decide
theorem test_decode_gpioDirRead : decodeReq 0x0000000724 = .ok (.gpioDirRead 0x07) := by decide
theorem test_decode_gpioDirWrite : decodeReq 0x0000010225 = .ok (.gpioDirWrite 0x02 0x01) := by decide
theorem test_decode_adRead : decodeReq 0x00000A0226 = .ok (.adRead 0x02 0x0A) := by decide
theorem test_decode_onekeyRead : decodeReq 0x0000000028 = .ok (.onekeyRead 0x00) := by decide
theorem test_decode_onekeyWrite : decodeReq 0x0000020129 = .ok (.onekeyWrite 0x01 0x02) := by decide
theorem test_decode_oemRead : decodeReq 0x000000102A = .ok (.oemRead 0x10) := by decide
theorem test_decode_oemWrite : decodeReq 0x000002102B = .ok (.oemWrite 0x10 0x02) := by decide
theorem test_decode_smbReadByte : decodeReq 0x0010A00130 = .ok (.smbReadByte 0x01 0xA0 0x10) := by decide
theorem test_decode_smbWriteByte : decodeReq 0x5510A00131 = .ok (.smbWriteByte 0x01 0xA0 0x10 0x55) := by decide
theorem test_decode_smbReadWord : decodeReq 0x0008160232 = .ok (.smbReadWord 0x02 0x16 0x08) := by decide
theorem test_decode_tableScan : decodeReq 0x0000000040 = .ok .tableScan := by decide
theorem test_decode_tableRead : decodeReq 0x0000001F41 = .ok (.tableRead 0x1F) := by decide
theorem test_decode_reserved_operand : decodeReq 0x0000FF0010 = .error .reservedOperand ∧
    decodeReq 0x0100000010 = .error .reservedOperand := by decide
theorem test_decode_reserved_op : decodeReq 0x0000000003 = .error (.reservedOp 0x03) ∧
    decodeReq 0x0000000027 = .error (.reservedOp 0x27) ∧ decodeReq 0x00000000FF = .error (.reservedOp 0xFF) := by decide
theorem test_decode_tooShort : decode [0x10, 0x2B] = .error .tooShort := by decide
theorem test_decode_rest : decode [0x10, 0x2B, 0, 0, 0, 0x41] = .ok (.ramRead 0x2B, [0x41]) := by decide
theorem test_decodeTableWord : decodeTableWord 40 0x0000000010 = some (.ramRead 0) := by decide

/-! ## One step: the byte that each operation sends first, or its first status read -/

theorem test_waitIbf_step : phase? (exec .waitIbf (standing 1 (issued .waitIbf) [0xFD])) = some (.busy 2 .start) := by decide
theorem test_waitObf_step : phase? (exec .waitObf (standing 1 (issued .waitObf) [0xFE])) = some (.busy 1 .again) := by decide
theorem test_ramRead_opcode :
    event? (exec (.ramRead 0x2B) (standing 2 (issued (.ramRead 0x2B)))) = some (.output 0 1 0x80) := by decide
theorem test_ramWrite_opcode :
    event? (exec (.ramWrite 0x2B 1) (standing 2 (issued (.ramWrite 0x2B 1)))) = some (.output 0 1 0x81) := by decide
theorem test_acpiRead_opcode :
    event? (exec (.acpiRead 0x10) (standing 2 (issued (.acpiRead 0x10)))) = some (.output 0 1 0x82) := by decide
theorem test_acpiWrite_value :
    event? (exec (.acpiWrite 0x10 0xFF) (standing 6 (issued (.acpiWrite 0x10 0xFF)))) = some (.output 0 0 0xFF) := by decide
theorem test_gpioStatusRead_opcode :
    event? (exec (.gpioStatusRead 7) (standing 2 (issued (.gpioStatusRead 7)))) = some (.output 0 1 0x84) := by decide
theorem test_gpioStatusWrite_invalid :
    phase? (exec (.gpioStatusWrite 3 1) (standing 6 (issued (.gpioStatusWrite 3 1)) [0xFF])) =
      some (.busy 6 (.abort .invalidTarget)) := by decide
theorem test_gpioDirRead_opcode :
    event? (exec (.gpioDirRead 7) (standing 2 (issued (.gpioDirRead 7)))) = some (.output 0 1 0x86) := by decide
theorem test_gpioDirWrite_value :
    event? (exec (.gpioDirWrite 2 1) (standing 8 (issued (.gpioDirWrite 2 1)))) = some (.output 0 0 0x01) := by decide
theorem test_adRead_lsb_opcode :
    event? (exec (.adRead 2 10) (standing 8 (issued (.adRead 2 10)))) = some (.output 0 1 0x89) := by decide
/-- R31: `v` is the last byte read from DATA by a read accessor. -/
theorem test_adRead_v :
    (next? (exec (.adRead 2 10) (standing 14 { issued (.adRead 2 10) with chk := some 2, lsb := some 0x34 } [0x02]))).bind
      (fun s => (s.client? 0).map (fun q => (q.latches.msb, q.latches.v))) = some (some 0x02, some 0x02) := by decide
theorem test_onekeyRead_opcode :
    event? (exec (.onekeyRead 0) (standing 2 (issued (.onekeyRead 0)))) = some (.output 0 1 0x8B) := by decide
theorem test_onekeyWrite_opcode :
    event? (exec (.onekeyWrite 1 2) (standing 2 (issued (.onekeyWrite 1 2)))) = some (.output 0 1 0x8C) := by decide
theorem test_oemRead_opcode :
    event? (exec (.oemRead 0x10) (standing 2 (issued (.oemRead 0x10)))) = some (.output 0 1 0x8D) := by decide
theorem test_oemWrite_opcode :
    event? (exec (.oemWrite 0x10 0) (standing 2 (issued (.oemWrite 0x10 0)))) = some (.output 0 1 0x8E) := by decide
theorem test_smbReadByte_mode :
    event? (exec (.smbReadByte 1 0xA0 0x10) (standing 30 (issued (.smbReadByte 1 0xA0 0x10)))) =
      some (.output 0 0 0x07) := by decide
theorem test_smbWriteByte_data :
    event? (exec (.smbWriteByte 1 0xA0 0x10 0x55) (standing 30 (issued (.smbWriteByte 1 0xA0 0x10 0x55)))) =
      some (.output 0 0 0x55) := by decide
theorem test_smbReadWord_channel :
    event? (exec (.smbReadWord 2 0x16 8) (standing 4 (issued (.smbReadWord 2 0x16 8)))) = some (.output 0 0 0x2B) := by decide
theorem test_tableScan_bad_index :
    phase? (exec .tableScan (standing 6 { issued .tableScan with idx := some 0 } [0xFF])) =
      some (.busy 6 (.abort .invalidTable)) := by decide

/-! ## One step: where a counter starts (R49, R109, R118) -/

/-- The counters `spoll` and `idx` of client 0 in the next state. -/
def counters? (o : Out) : Option (Option Nat × Option Nat) :=
  (next? o).bind fun s => (s.client? 0).map fun q => (q.latches.spoll, q.latches.idx)

/-- R54: the write of the mode byte leaves the latches; R109: the next status read starts `spoll`, on the first round. -/
theorem test_smbReadByte_spoll :
    counters? (exec (.smbReadByte 1 2 3) (standing 30 (issued (.smbReadByte 1 2 3)))) = some (none, none) ∧
    counters? (exec (.smbReadByte 1 2 3) (standing 33 (issued (.smbReadByte 1 2 3)) [0x02])) = some (some 0, none) ∧
    counters? (exec (.smbReadByte 1 2 3) (standing 33 { issued (.smbReadByte 1 2 3) with spoll := some 1 } [0x00])) =
      some (some 1, none) := by decide
/-- R58: the scan's `Acquire()` leaves the latches; R118: the next status read starts `idx`, on the first index. -/
theorem test_tableScan_idx :
    counters? (exec .tableScan (waiting .tableScan)) = some (none, none) ∧
    counters? (exec .tableScan (standing 1 (issued .tableScan) [0x00])) = some (none, some 0) ∧
    counters? (exec .tableScan (standing 1 { issued .tableScan with idx := some 1 } [0x00])) = some (none, some 1) := by
  decide

/-! ## One step: the last, with the response word of V1 and V2 -/

theorem test_ramRead_result :
    response? (exec (.ramRead 0x2B) (standing 7 { issued (.ramRead 0x2B) with v := some 0xFF })) = some 0x000000FF00 := by decide
theorem test_ramWrite_result :
    response? (exec (.ramWrite 0x2B 1) (standing 7 (issued (.ramWrite 0x2B 1)))) = some 0x0000000000 := by decide
theorem test_gpioStatusRead_result :
    response? (exec (.gpioStatusRead 3) (standing 9 { issued (.gpioStatusRead 3) with chk := some 3, v := some 1 })) =
      some 0x0000000100 := by decide
theorem test_adRead_result :
    response? (exec (.adRead 2 10)
      (standing 15 { issued (.adRead 2 10) with chk := some 2, lsb := some 0x34, msb := some 0x02 })) =
      some 0x00089B2000 := by decide
theorem test_smbReadByte_error :
    response? (exec (.smbReadByte 1 0xA0 0x10)
      (standing 47 { issued (.smbReadByte 1 0xA0 0x10) with st := some 0x81 })) = some 0x0000008103 := by decide
theorem test_smbWriteByte_result :
    response? (exec (.smbWriteByte 1 0xA0 0x10 0x55)
      (standing 55 { issued (.smbWriteByte 1 0xA0 0x10 0x55) with st := some 0x80 })) = some 0x0000000000 := by decide
theorem test_smbReadWord_result :
    response? (exec (.smbReadWord 2 0x16 8)
      (standing 63 { issued (.smbReadWord 2 0x16 8) with d0 := some 0x12, d1 := some 0x34 })) = some 0x0000123400 := by decide
theorem test_tableScan_entry :
    (next? (exec .tableScan
      (standing 14 { issued .tableScan with idx := some 0, pin := some 0x10 } [0x20]))).map (·.table) =
      some [{ deviceId := 0x20, hwPinNumber := 0x10 }, .undefined] := by decide
theorem test_tableRead_result :
    response? (exec (.tableRead 0) { waiting (.tableRead 0) with
      table := [{ deviceId := 0x20, hwPinNumber := 0x10 }, .undefined] }) = some 0x0000201000 := by decide
theorem test_entry_isUndefined : Entry.isUndefined { deviceId := 0x20, hwPinNumber := 0xFF } = true ∧
    Entry.isUndefined { deviceId := 0xFF, hwPinNumber := 0x10 } = true ∧
    Entry.isUndefined { deviceId := 0x20, hwPinNumber := 0x10 } = false := by decide
theorem test_tableRead_before_scan : response? (exec (.tableRead 0) (waiting (.tableRead 0))) = some 0x0000FFFF00 := by decide

/-! ## One step of the whole machine -/

theorem test_step_refuses_illegal :
    (next? (step (base.withFetchWord 40 0x0000000027))).map (fun s => (s.refused, s.trace)) = some (true, []) := by decide
theorem test_step_refuses_index :
    (next? (step (base.withFetchWord 40 0x0000000241))).map (fun s => (s.refused, s.phase? 0)) =
      some (true, some .idle) := by decide
theorem test_step_admits :
    (next? (step (base.withFetchWord 40 0x0000000040))).map (fun s => (s.refused, s.scanStatus, s.phase? 0)) =
      some (false, .running, some (.busy 0 .start)) := by decide
theorem test_step_scan_after_done :
    (next? (step ({ base with scanStatus := .done }.withFetchWord 40 0x0000000040))).map (·.refused) = some true := by decide
theorem test_step_attach :
    (next? (step { State.detached profile with schedule := [.attach (some "X")] })).map (fun s => (s.life, s.product)) =
      some (.attached, "X") := by decide
/-- R42: `refused` is false at attach, also after a request that was refused before. -/
theorem test_attach_refused :
    (next? (step { State.detached profile with refused := true, schedule := [.attach (some "X")] })).map (·.refused) =
      some false := by decide
theorem test_step_detach_busy :
    (next? (step { waiting .waitIbf with schedule := [.detach] })).map (fun s => (s.life, s.refused)) =
      some (.attached, true) := by decide
theorem test_acquire_blocked :
    (next? (exec .waitIbf { waiting .waitIbf with lock := .held 1 })).map (fun s => (s.lock, s.trace)) =
      some (.held 1, []) := by decide

/-! ## Witnesses: states that meet the invariants -/

/-- What the invariant asks of client 0, alone and Busy at the start of step `pc`, as a check. -/
def standsOk (s : State) (i : Instr) (pc : Nat) (L : Latches) : Bool :=
  let seq := seqOf s.cfg i
  decide (s.clients = [{ phase := .busy pc .start, latches := L }])
    && s.cfg.wf && decide (s.life = .attached) && decide (s.cfg.nClients = 1)
    && decide (s.table.length = s.cfg.nTbl) && decide (lockAfter .free s.trace = some s.lock)
    && decide (L.operation = some i) && i.wellFormed s.cfg.nTbl && decide (pc < seq.length)
    && decide (s.lock = if heldBefore seq pc then .held 0 else .free)
    && (writtenBefore seq pc).all (fun l => (L.read l).isSome)
    && (startedBefore seq pc).all (fun n => (L.readCounter n).isSome)
    && L.idx.all (fun n => decide (n < s.cfg.nTbl)) && L.spoll.all (fun n => decide (n < s.cfg.smbMaxPoll))
    && decide (L.poll = none)

theorem inv_of_standsOk {s : State} {i : Instr} {pc : Nat} {L : Latches} (h : standsOk s i pc L = true) : Inv s := by
  simp only [standsOk, Bool.and_eq_true, decide_eq_true_eq, List.all_eq_true] at h
  obtain ⟨⟨⟨⟨⟨⟨⟨⟨⟨⟨⟨⟨⟨⟨h1, h2⟩, h3⟩, h4⟩, h5⟩, h6⟩, h7⟩, h8⟩, h9⟩, h10⟩, h11⟩, h12⟩, h13⟩, h14⟩, h15⟩ := h
  have hidx : ∀ n, L.idx = some n → n < s.cfg.nTbl := fun n hn => by rw [hn] at h13; simpa using h13
  have hspoll : ∀ n, L.spoll = some n → n < s.cfg.smbMaxPoll := fun n hn => by rw [hn] at h14; simpa using h14
  refine ⟨h2, fun _ => ⟨by rw [h1, h4]; rfl, h5⟩, fun h => (by rw [h3] at h; cases h), h6, ?_, ?_⟩
  · intro c hc
    rw [h10] at hc
    split at hc
    · cases hc; rw [h1]; exact Nat.zero_lt_one
    · cases hc
  · intro c q hq
    rw [State.client?, h1] at hq
    cases c with
    | succ c => cases hq
    | zero =>
      cases hq
      refine ⟨⟨by simp [h15], fun n hn => (hspoll n hn).le, fun n hn => (hidx n hn).le⟩,
        i, h7, h8, h9, ?_, by simp, by simp, h11, h12, fun _ => hidx, fun _ _ => hspoll⟩
      rw [h10]; cases heldBefore (seqOf s.cfg i) pc <;> simp

theorem stands_of_standsOk {s : State} {i : Instr} {pc : Nat} {L : Latches} {m : Micro} (h : standsOk s i pc L = true)
    (hn : s.now = .run 0) (hm : (seqOf s.cfg i)[pc]? = some m) : Stands s 0 i pc L m := by
  have hi := inv_of_standsOk h
  simp only [standsOk, Bool.and_eq_true, decide_eq_true_eq] at h
  obtain ⟨⟨⟨⟨⟨⟨⟨⟨⟨⟨⟨⟨⟨⟨h1, _⟩, _⟩, _⟩, _⟩, _⟩, h7⟩, _⟩, _⟩, _⟩, _⟩, _⟩, _⟩, _⟩, _⟩ := h
  exact ⟨hi, hn, by rw [State.client?, h1]; rfl, h7, hm⟩

/-- A state whose one client is Idle, in which the invariant holds whatever turn comes. -/
theorem witness_Inv (ts : List Turn) : Inv { base with schedule := ts } := by
  refine ⟨show base.cfg.wf = true by decide, fun _ => show base.clients.length = base.cfg.nClients ∧
    base.table.length = base.cfg.nTbl by decide, fun h => (by cases h), rfl, fun c h => (by cases h), ?_⟩
  intro c q hq
  cases c with
  | succ c => cases hq
  | zero => cases hq; exact ⟨⟨by simp, by simp, by simp⟩, by simp [PhaseOk, base, State.attached]⟩

theorem witness_ScanInv (ts : List Turn) : ScanInv { base with schedule := ts } := by
  have h : ∀ c, ¬ State.scans { base with schedule := ts } c := by
    rintro c ⟨q, pc, st, hq, hp, _⟩
    cases c with
    | succ c => cases hq
    | zero => cases hq; cases hp
  exact ⟨fun c hc => absurd hc (h c), fun c _ hc => absurd hc (h c)⟩

theorem witness_HandshakeInv (ts : List Turn) : HandshakeInv { base with schedule := ts } := by
  refine ⟨rfl, ?_⟩
  intro c q pc stage i m hq hp
  cases c with
  | succ c => cases hq
  | zero => cases hq; cases hp

/-- StepsKeepTheInvariant, StepsKeepTheHandshake, StepsKeepTheScanInvariant, NoStepStops. -/
theorem witness_StepsKeep : step { base with schedule := [.request 0 0x0000000040] } =
    .next (({ base with schedule := [], now := .request 0 0x0000000040, turns := 1, scanStatus := .running } : State).setClient 0
      { phase := .busy 0 .start, latches := issued .tableScan }) := rfl

/-! ## Witnesses: encoding and admission -/

theorem witness_DecodeEncodeAgree : decode [0x10, 0x2B, 0, 0, 0, 0x41] = .ok (.ramRead 0x2B, [0x41]) := by decide

theorem witness_DescriptorSelectsItsRow :
    decodeReq 0x0000002B10 = .ok (.ramRead 0x2B) ∧ 0x0000002B10#40 &&& (Instr.ramRead 0).mask = (Instr.ramRead 0).pattern := by
  decide

theorem witness_IllegalDescriptorsAreRefused :
    (∀ i : Instr, i.opcode ≠ 0x27) ∧
    packReq (Instr.ramRead 0).opcode 0x2B 0x01 0 0 &&& (Instr.ramRead 0).mask ≠ (Instr.ramRead 0).pattern ∧
    State.nextTurn { base with schedule := [.request 0 0x0000000027] } = .request 0 0x0000000027 ∧
    decodeReq 0x0000000027 = .error (.reservedOp 0x27) := by
  refine ⟨?_, by decide, rfl, by decide⟩
  intro i; cases i <;> simp [Instr.opcode]

theorem witness_StepIssuesTheDecodedRequest :
    State.nextTurn { base with schedule := [.request 0 0x0000002B10] } = .request 0 0x0000002B10 ∧
    decodeReq 0x0000002B10 = .ok (.ramRead 0x2B) := ⟨rfl, by decide⟩

/-- Both clauses: a Busy client, and one with nothing to run. -/
theorem witness_StepRunsTheLatchedOperation :
    (State.nextTurn { waiting (.ramRead 0x2B) with schedule := [.run 0] } = .run 0 ∧
      State.client? { waiting (.ramRead 0x2B) with schedule := [.run 0] } 0 =
        some { phase := .busy 0 .start, latches := issued (.ramRead 0x2B) } ∧
      (issued (.ramRead 0x2B)).operation = some (.ramRead 0x2B)) ∧
    (State.nextTurn { base with schedule := [.run 0] } = .run 0 ∧
      ∀ pc stage, State.phase? { base with schedule := [.run 0] } 0 ≠ some (.busy pc stage)) := by
  refine ⟨⟨rfl, rfl, by decide⟩, rfl, ?_⟩
  intro pc stage h
  cases h

/-- AdmissionOfRequests, IssueAnswersNext: an admitted request of an ordinary operation, of TABLE_SCAN, and of TABLE_READ at
the last index; and one that is not admitted, TABLE_READ just past it. -/
theorem witness_Admission :
    Admits { base with now := .request 0 (encodeReq (.ramRead 0x2B)) } 0 (encodeReq (.ramRead 0x2B)) (.ramRead 0x2B) ∧
    Admits { base with now := .request 0 (encodeReq .tableScan) } 0 (encodeReq .tableScan) .tableScan ∧
    Admits { base with now := .request 0 (encodeReq (.tableRead 1)) } 0 (encodeReq (.tableRead 1)) (.tableRead 1) ∧
    (∀ i, ¬ Admits { base with schedule := [.request 0 (encodeReq (.tableRead 2))] } 0 (encodeReq (.tableRead 2)) i) := by
  refine ⟨⟨rfl, rfl, by decide, by simp, by simp⟩, ⟨rfl, rfl, by decide, by simp, fun _ => Or.inl rfl⟩,
    ⟨rfl, rfl, by decide, ?_, by simp⟩, ?_⟩
  · rintro index h; cases h; decide
  · intro i h
    have hd := h.decodes
    have he : decodeReq (encodeReq (.tableRead 2)) = .ok (.tableRead 2) := by decide
    rw [he] at hd; cases hd
    exact absurd (h.index 2 rfl) (by decide)

/-! ## Witnesses: last steps -/

theorem witness_ReadsFinish :
    (standing 7 { issued (.ramRead 0x2B) with v := some 0xFF }).client? 0 =
      some { phase := .busy 7 .start, latches := { issued (.ramRead 0x2B) with v := some 0xFF } } ∧
    7 + 1 = (seqOf profile (.ramRead 0x2B)).length ∧ 9 + 1 = (seqOf profile (.gpioStatusRead 3)).length := by decide

theorem witness_WritesFinish :
    (standing 2 (issued .waitIbf)).client? 0 = some { phase := .busy 2 .start, latches := issued .waitIbf } ∧
    2 + 1 = (seqOf profile .waitIbf).length ∧ 7 + 1 = (seqOf profile (.ramWrite 0x2B 1)).length ∧
    9 + 1 = (seqOf profile (.gpioDirWrite 2 1)).length := by decide

/-- Each clause at its last step; the SMBus ones under both lock scopes. -/
theorem witness_OtherOperationsFinish :
    15 + 1 = (seqOf profile (.adRead 2 10)).length ∧ 55 + 1 = (seqOf profile (.smbReadByte 1 0xA0 0x10)).length ∧
    43 + 1 = (seqOf wholeProfile (.smbReadByte 1 0xA0 0x10)).length ∧
    55 + 1 = (seqOf profile (.smbWriteByte 1 0xA0 0x10 0x55)).length ∧
    63 + 1 = (seqOf profile (.smbReadWord 2 0x16 8)).length ∧ 15 + 1 = (seqOf profile .tableScan).length ∧
    base.table[(0 : Byte).toNat]? = some Entry.undefined := by decide

/-! ## Witnesses: whole operations -/

/-- The premises that the statements about whole operations share. -/
theorem witness_Ready : base.cfg.wf = true ∧ base.table.length = base.cfg.nTbl ∧ Ready base 0 ∧ base.scanStatus = .notRun :=
  ⟨by decide, by decide, ⟨rfl, rfl, rfl⟩, rfl⟩

/-- Moves and answers that fit each other: a RAM read whose first wait succeeds on its last allowed read, and the same read
with its third wait running out. -/
theorem witness_EndsOrTimesOut :
    ([.acquire, .ibf [0x02, 0x00], .command 0x80, .ibf [0x00], .argument 0x2B, .obf [0x01], .response 0xFF, .release] :
      List Move).all (Move.ok profile) = true ∧
    ([.acquire, .ibf [0x02, 0x00], .command 0x80, .ibf [0x00], .argument 0x2B, .lateObf [0x02, 0x00], .release] :
      List Move).all (Move.ok profile) = true ∧
    RunsOut [.acquire, .ibf [0x02, 0x00], .command 0x80, .ibf [0x00], .argument 0x2B, .obf [0x01], .response 0xFF, .release]
      [.acquire, .ibf [0x02, 0x00], .command 0x80, .ibf [0x00], .argument 0x2B, .lateObf [0x02, 0x00]] := by
  refine ⟨by decide, by decide, [.acquire, .ibf [0x02, 0x00], .command 0x80, .ibf [0x00], .argument 0x2B],
    [.response 0xFF, .release], [0x01], [0x02, 0x00], Or.inr ⟨rfl, rfl⟩⟩

/-- A wait that succeeds on the last allowed read, and one that uses them all up. -/
theorem witness_WaitReadCounts :
    ([0x02, 0x01] : List Byte) = ([0x02, 0x01] : List Byte).dropLast ++ [0x01] ∧ 2 ≤ profile.maxPoll ∧
    (∀ b ∈ ([0x02] : List Byte), (!b.getLsbD 1) = false) ∧ (!(0x01 : Byte).getLsbD 1) = true ∧
    ([0x03, 0xFF] : List Byte).length = profile.maxPoll ∧ (∀ b ∈ ([0x03, 0xFF] : List Byte), (!b.getLsbD 1) = false) ∧
    (∀ b ∈ ([0xFE] : List Byte), b.getLsbD 0 = false) ∧ (0x01 : Byte).getLsbD 0 = true := by decide

/-- UncheckedReadsRun, UncheckedWritesRun, GpioReadsRun, GpioWritesRun: members of each list. -/
theorem witness_Families :
    ((Instr.oemRead 0x10, profile.opOemRead) ∈ [(Instr.ramRead 0x10, profile.opRamRead), (.acpiRead 0x10, profile.opAcpiRead),
      (.onekeyRead 0x10, profile.opOnekeyRead), (.oemRead 0x10, profile.opOemRead)]) ∧
    ((Instr.gpioDirRead 3, profile.opGpioDirRead) ∈ [(Instr.gpioStatusRead 3, profile.opGpioStatusRead),
      (.gpioDirRead 3, profile.opGpioDirRead)]) ∧ (0xFE : Byte) ≠ 0xFF := by decide

/-- The answers to a RAM read or write all of whose waits succeed at once. -/
def quickRead (b : Byte) : ReadAnswers := { first := [0], second := [0], third := [1], value := b }
def quickWrite : WriteAnswers := { first := [0], second := [0], third := [0] }

/-- The answers to a transaction that polls once busy and once idle (V2.5). -/
def quickHead (busy : List Byte) (st : Byte) : HeadAnswers where
  channel := quickWrite
  slave := quickWrite
  command := quickWrite
  data := quickWrite
  protocol := quickWrite
  busy := busy.map quickRead
  idle := quickRead 0
  status := quickRead st

/-- SmbReadByteRuns, SmbWriteByteRuns, SmbReadWordRuns: success and failure with the last allowed poll read, and the poll
that runs out, under both lock scopes. -/
theorem witness_TransactionEnds :
    (quickHead [0x07] 0x80).polls profile = true ∧ smbusSuccess (quickHead [0x07] 0x80).status.value = true ∧
    smbusSuccess (quickHead [0x07] 0x00).status.value = false ∧
    ((quickHead [0x01, 0x01] 0).busy.all fun r => !engineIdle r.value) = true ∧
    (quickHead [0x01, 0x01] 0).busy.length = profile.smbMaxPoll ∧
    (transactionMoves profile (headMoves profile .byteRead 1 0xA0 0x10 0 (quickHead [0x07] 0x80))).all (Move.ok profile) = true ∧
    (transactionMoves wholeProfile (headMoves wholeProfile .byteWrite 1 0xA0 0x10 0x55 (quickHead [0x07] 0x80))).all
      (Move.ok wholeProfile) = true := by decide

/-- The answers to one index of the scan. -/
def quickSlot (check pin device : Byte) : SlotAnswers where
  select := [0]
  index := [0]
  selected := [1]
  check := check
  getPin := [0]
  gotPin := [1]
  pin := pin
  getDevice := [0]
  gotDevice := [1]
  device := device

/-- TableScanRuns: every index, a bad read-back at index 1, and a wait that runs out at index 1. -/
theorem witness_TableScanRuns :
    (Ready base 0 ∧ base.scanStatus = .notRun) ∧
    ([quickSlot 0 0x10 0x20, quickSlot 1 0x11 0x21].all (fun a => !isSentinel a.check) = true ∧
      [quickSlot 0 0x10 0x20, quickSlot 1 0x11 0x21].length = base.cfg.nTbl) ∧
    ([quickSlot 0 0x10 0x20].length < base.cfg.nTbl ∧ (quickSlot 0xFF 0 0).check = 0xFF) ∧
    RunsOut (slotMoves profile 1 (quickSlot 1 0x11 0x21)) [.lateIbf [2, 2]] :=
  ⟨⟨⟨rfl, rfl, rfl⟩, rfl⟩, by decide, by decide, [], _, [0], [2, 2], Or.inl ⟨rfl, rfl⟩⟩

/-- TableReadRuns: the last index, and the first one past the table. -/
theorem witness_TableReadRuns : (base.life = .attached ∧ base.phase? 0 = some .idle ∧ (1 : Byte).toNat < base.cfg.nTbl ∧
      base.table[(1 : Byte).toNat]? = some Entry.undefined) ∧
    State.nextTurn { base with schedule := [.request 0 (encodeReq (.tableRead 2))] } = .request 0 (encodeReq (.tableRead 2)) ∧
    ¬ (2 : Byte).toNat < base.cfg.nTbl := by decide

/-- RunsRefineThePseudocode, OperationsEndWithinTheirBounds, ErrorKindsByOperation: the pseudocode of one operation ends in
something, and its premises hold. -/
theorem witness_RunsRefineThePseudocode :
    (Instr.ramRead 0x2B).wellFormed base.cfg.nTbl = true ∧ (Instr.tableRead 1).wellFormed base.cfg.nTbl = true ∧
    (Instr.tableScan = .tableScan → base.scanStatus = .notRun ∨ base.scanStatus = .failed) ∧
    ∃ r w L, Pseudo.operation base.cfg 0 (.ramRead 0x2B) (base.atTurn (.run 0), Latches.ofRequest (.ramRead 0x2B)) = (r, (w, L)) :=
  ⟨by decide, by decide, fun _ => Or.inl rfl, _, _, _, rfl⟩

/-! ## Witnesses: single steps -/

/-- AcquireStep: with the lock free, and with another client holding it. -/
theorem witness_AcquireStep :
    Stands (waiting (.ramRead 0x2B)) 0 (.ramRead 0x2B) 0 (issued (.ramRead 0x2B)) { act := .acquire } ∧
    (waiting (.ramRead 0x2B)).lock = .free :=
  ⟨stands_of_standsOk (by decide) rfl rfl, rfl⟩

/-- Two clients, the second holding the lock and waiting on its first status read. -/
def contended : State :=
  { base with
    cfg := { profile with nClients := 2 }, lock := .held 1, trace := [.acquire 1]
    clients := [{ phase := .busy 0 .start, latches := issued .waitIbf }, { phase := .busy 1 .start, latches := issued .waitIbf }] }

theorem witness_AcquireStep_blocked :
    Stands contended 0 .waitIbf 0 (issued .waitIbf) { act := .acquire } ∧ contended.lock = .held 1 := by
  refine ⟨⟨⟨by decide, fun _ => by decide, fun h => (by cases h), by decide, ?_, ?_⟩, rfl, rfl, by decide, rfl⟩, rfl⟩
  · intro c hc; cases hc; decide
  · intro c q hq
    match c, hq with
    | 0, hq =>
      cases hq
      exact ⟨⟨by simp [issued, Latches.ofRequest], by simp [issued, Latches.ofRequest], by simp [issued, Latches.ofRequest]⟩,
        .waitIbf, by decide, by decide, by decide, by decide, by simp, by simp, by decide, by decide,
        by simp [issued, Latches.ofRequest], by simp [issued, Latches.ofRequest]⟩
    | 1, hq =>
      cases hq
      exact ⟨⟨by simp [issued, Latches.ofRequest], by simp [issued, Latches.ofRequest], by simp [issued, Latches.ofRequest]⟩,
        .waitIbf, by decide, by decide, by decide, by decide, by simp, by simp, by decide, by decide,
        by simp [issued, Latches.ofRequest], by simp [issued, Latches.ofRequest]⟩

/-- AcquireStep, the holder's release. -/
theorem witness_AcquireStep_released :
    (standing 2 (issued .waitIbf)).life = .attached ∧ (standing 2 (issued .waitIbf)).lock = .held 0 ∧
    (next? (step { standing 2 (issued .waitIbf) with schedule := [.run 0] })).map (·.lock) = some .free := by decide

/-- ReleaseStep: the last step of an operation, one that the next section follows, and the one before the idle poll. -/
theorem witness_ReleaseStep :
    (Stands (standing 7 { issued (.ramRead 0x2B) with v := some 1 }) 0 (.ramRead 0x2B) 7
      { issued (.ramRead 0x2B) with v := some 1 } { act := .release } ∧ 7 + 1 = (seqOf profile (.ramRead 0x2B)).length) ∧
    (Stands (standing 7 (issued (.smbReadByte 1 2 3))) 0 (.smbReadByte 1 2 3) 7 (issued (.smbReadByte 1 2 3))
      { act := .release } ∧ 7 + 1 < (seqOf profile (.smbReadByte 1 2 3)).length) ∧
    Stands (standing 31 (issued (.smbReadByte 1 2 3))) 0 (.smbReadByte 1 2 3) 31 (issued (.smbReadByte 1 2 3))
      { act := .release } :=
  ⟨⟨stands_of_standsOk (by decide) rfl rfl, by decide⟩, ⟨stands_of_standsOk (by decide) rfl rfl, by decide⟩,
    stands_of_standsOk (by decide) rfl rfl⟩

/-- ReleaseStep, its second clause: a Complete client in a state that meets the invariant. -/
theorem witness_ReleaseStep_complete :
    Inv { base with clients := [{ phase := .complete, latches := { issued .waitIbf with res := some .timeout } }] } := by
  refine ⟨by decide, fun _ => ⟨rfl, by decide⟩, fun h => (by cases h), rfl, fun c h => (by cases h), ?_⟩
  intro c q hq
  cases c with
  | succ c => cases hq
  | zero =>
    cases hq
    exact ⟨⟨by simp [issued, Latches.ofRequest], by simp [issued, Latches.ofRequest], by simp [issued, Latches.ofRequest]⟩,
      by simp [base, State.attached], .waitIbf, .timeout, by decide, rfl, rfl⟩

/-- A command, an argument from a latch, the argument that is the scan index, and the one that the idle poll follows. -/
theorem witness_PortOutStep :
    Stands (standing 2 (issued (.ramRead 0x2B))) 0 (.ramRead 0x2B) 2 (issued (.ramRead 0x2B)) { act := .command 0x80 } ∧
    Stands (standing 4 (issued (.ramRead 0x2B))) 0 (.ramRead 0x2B) 4 (issued (.ramRead 0x2B)) { act := .argument (.latch .a0) } ∧
    Stands (standing 4 { issued .tableScan with idx := some 1 }) 0 .tableScan 4 { issued .tableScan with idx := some 1 }
      { act := .argument .index } ∧
    Stands { standing 24 (issued (.smbReadByte 1 2 3)) with cfg := wholeProfile } 0 (.smbReadByte 1 2 3) 24
      (issued (.smbReadByte 1 2 3)) { act := .argument (.const 0x07) } :=
  ⟨stands_of_standsOk (by decide) rfl rfl, stands_of_standsOk (by decide) rfl rfl, stands_of_standsOk (by decide) rfl rfl,
    stands_of_standsOk (by decide) rfl rfl⟩

/-- ResultsAreOfAllowedKinds: the last run turn of a wait, and of a RAM read that has raised. -/
theorem witness_ResultsAreOfAllowedKinds :
    (Inv { standing 2 (issued .waitIbf) with schedule := [.run 0] } ∧
      (next? (step { standing 2 (issued .waitIbf) with schedule := [.run 0] })).map (fun t => (t.phase? 0, t.result? 0)) =
        some (some .complete, some (.ok 0))) ∧
    (next? (step { standing 1 (issued .waitIbf) with
      schedule := [.run 0], clients := [{ phase := .busy 1 (.abort .timeout), latches := issued .waitIbf }] })).map
        (fun t => (t.phase? 0, t.result? 0)) = some (some .complete, some .timeout) :=
  ⟨⟨inv_of_standsOk (i := .waitIbf) (pc := 2) (L := issued .waitIbf) (by decide), by decide⟩, by decide⟩

/-- DataReadStep: reads that only go on, of one latch and of two; ValidationStep's to EntryStep's witnesses are reads on which
more hangs. -/
theorem witness_DataReadStep :
    Stands (standing 6 (issued (.ramRead 0x2B)) [0xFF]) 0 (.ramRead 0x2B) 6 (issued (.ramRead 0x2B)) { act := .response [.v] } ∧
    Stands (standing 10 { issued (.adRead 1 2) with chk := some 0, v := some 0 }) 0 (.adRead 1 2) 10
      { issued (.adRead 1 2) with chk := some 0, v := some 0 } { act := .response [.lsb, .v] } :=
  ⟨stands_of_standsOk (by decide) rfl rfl, stands_of_standsOk (by decide) rfl rfl⟩

/-- ValidationStep: of a read, of a write and of the scan, each with the byte 0xFF and with another. -/
theorem witness_ValidationStep :
    (∀ b ∈ [0xFF, 0xFE], Stands (standing 6 (issued (.gpioDirRead 3)) [b]) 0 (.gpioDirRead 3) 6 (issued (.gpioDirRead 3))
      { act := .response [.chk, .v], after := .checkTarget } ∧ (standing 6 (issued (.gpioDirRead 3)) [b]).answer .data = b) ∧
    Stands (standing 6 (issued (.gpioStatusWrite 3 1)) [0xFF]) 0 (.gpioStatusWrite 3 1) 6 (issued (.gpioStatusWrite 3 1))
      { act := .response [.chk], after := .checkTarget } ∧
    (∀ b ∈ [0xFF, 0xFE], Stands (standing 6 { issued .tableScan with idx := some 1 } [b]) 0 .tableScan 6
      { issued .tableScan with idx := some 1 } { act := .response [.chk], after := .checkTable }) := by
  refine ⟨?_, stands_of_standsOk (by decide) rfl rfl, ?_⟩
  · intro b hb
    simp only [List.mem_cons, List.not_mem_nil, or_false] at hb
    rcases hb with rfl | rfl <;> exact ⟨stands_of_standsOk (by decide) rfl rfl, rfl⟩
  · intro b hb
    simp only [List.mem_cons, List.not_mem_nil, or_false] at hb
    rcases hb with rfl | rfl <;> exact stands_of_standsOk (by decide) rfl rfl

/-- The latches of a byte read at its idle poll, `n` busy reads behind it and `pr` the byte read. -/
def polled (n : Nat) (pr : Byte) : Latches :=
  { issued (.smbReadByte 1 2 3) with spoll := some n, v := some pr, pr := some pr }

/-- IdlePollStep: under `PerStep` with the byte 0x00, with a busy one, and with the busy one that is the last allowed; and
under `WholeTransaction`. -/
theorem witness_IdlePollStep :
    Stands (standing 39 (polled 1 0)) 0 (.smbReadByte 1 2 3) 39 (polled 1 0) { act := .release, after := .checkIdle 7 } ∧
    (Stands (standing 39 (polled 0 7)) 0 (.smbReadByte 1 2 3) 39 (polled 0 7) { act := .release, after := .checkIdle 7 } ∧
      0 + 1 < profile.smbMaxPoll) ∧
    (Stands (standing 39 (polled 1 7)) 0 (.smbReadByte 1 2 3) 39 (polled 1 7) { act := .release, after := .checkIdle 7 } ∧
      1 + 1 = profile.smbMaxPoll) ∧
    Stands { standing 30 (polled 1 0) [7] with cfg := wholeProfile } 0 (.smbReadByte 1 2 3) 30 (polled 1 0)
      { act := .response [.v, .pr], after := .checkIdle 5 } :=
  ⟨stands_of_standsOk (by decide) rfl rfl, ⟨stands_of_standsOk (by decide) rfl rfl, by decide⟩,
    ⟨stands_of_standsOk (by decide) rfl rfl, by decide⟩, stands_of_standsOk (by decide) rfl rfl⟩

/-- The latches of a transaction at its status check, `st` the byte read. -/
def checked (i : Instr) (st : Byte) : Latches :=
  { issued i with spoll := some 0, v := some st, pr := some 0, st := some st }

/-- StatusCheckStep: success that goes on, success that ends a write, another status, and the other lock scope. -/
theorem witness_StatusCheckStep :
    (Stands (standing 47 (checked (.smbReadByte 1 2 3) 0x80)) 0 (.smbReadByte 1 2 3) 47 (checked (.smbReadByte 1 2 3) 0x80)
      { act := .release, after := .checkStatus } ∧ 47 + 1 < (seqOf profile (.smbReadByte 1 2 3)).length) ∧
    (Stands (standing 55 (checked (.smbWriteByte 1 2 3 4) 0x80)) 0 (.smbWriteByte 1 2 3 4) 55
      (checked (.smbWriteByte 1 2 3 4) 0x80) { act := .release, after := .checkStatus } ∧
      55 + 1 = (seqOf profile (.smbWriteByte 1 2 3 4)).length) ∧
    Stands (standing 47 (checked (.smbReadByte 1 2 3) 0x81)) 0 (.smbReadByte 1 2 3) 47 (checked (.smbReadByte 1 2 3) 0x81)
      { act := .release, after := .checkStatus } ∧
    Stands { standing 36 (checked (.smbReadByte 1 2 3) 0) [0x81] with cfg := wholeProfile } 0 (.smbReadByte 1 2 3) 36
      (checked (.smbReadByte 1 2 3) 0) { act := .response [.v, .st], after := .checkStatus } :=
  ⟨⟨stands_of_standsOk (by decide) rfl rfl, by decide⟩, ⟨stands_of_standsOk (by decide) rfl rfl, by decide⟩,
    stands_of_standsOk (by decide) rfl rfl, stands_of_standsOk (by decide) rfl rfl⟩

/-- The latches of the scan at its last read of index `n`. -/
def fetched (n : Nat) : Latches := { issued .tableScan with idx := some n, chk := some 0, pin := some 0x10 }

/-- EntryStep: the last index and one before it. -/
theorem witness_EntryStep :
    (Stands (standing 14 (fetched 0) [0x20]) 0 .tableScan 14 (fetched 0) { act := .response [.dev], after := .storeEntry 13 } ∧
      0 + 1 < profile.nTbl) ∧
    (Stands (standing 14 (fetched 1) [0x21]) 0 .tableScan 14 (fetched 1) { act := .response [.dev], after := .storeEntry 13 } ∧
      ¬ 1 + 1 < profile.nTbl) :=
  ⟨⟨stands_of_standsOk (by decide) rfl rfl, by decide⟩, ⟨stands_of_standsOk (by decide) rfl rfl, by decide⟩⟩

/-- The first status read of a wait; and a later one, the last allowed, of the same wait. -/
theorem witness_StatusReadStep :
    Inv (standing 1 (issued .waitIbf)) ∧ (standing 1 (issued .waitIbf)).client? 0 =
      some { phase := .busy 1 .start, latches := issued .waitIbf } ∧
    (seqOf profile .waitIbf)[1]? = some { act := .waitIbf } ∧
    Inv { standing 1 (issued .waitIbf) with
      clients := [{ phase := .busy 1 .again, latches := { issued .waitIbf with poll := some 1 } }] } := by
  refine ⟨inv_of_standsOk (i := .waitIbf) (pc := 1) (L := issued .waitIbf) (by decide), rfl, rfl, ?_⟩
  refine ⟨by decide, fun _ => by decide, fun h => (by cases h), by decide, ?_, ?_⟩
  · intro c hc; cases hc; decide
  · intro c q hq
    match c, hq with
    | 0, hq =>
      cases hq
      exact ⟨⟨by simp [standing, base, State.attached, profile], by simp [issued, Latches.ofRequest],
          by simp [issued, Latches.ofRequest]⟩,
        .waitIbf, by decide, by decide, by decide, by decide, by simp,
        fun _ => ⟨1, rfl, by decide⟩, by decide, by decide, by simp [issued, Latches.ofRequest], by simp [issued, Latches.ofRequest]⟩

/-- The status reads where a counter starts: of the idle poll's first round and a later one, and of the scan's. -/
theorem witness_StatusReadStep_starts :
    (Inv (standing 33 (issued (.smbReadByte 1 2 3))) ∧
      (seqOf profile (.smbReadByte 1 2 3))[33]? = some { act := .waitIbf, starts := some .spoll }) ∧
    Inv (standing 33 (polled 1 7)) ∧
    (Inv (standing 1 (issued .tableScan)) ∧
      (seqOf profile .tableScan)[1]? = some { act := .waitIbf, starts := some .idx }) ∧
    Inv (standing 1 (fetched 1)) :=
  ⟨⟨inv_of_standsOk (i := .smbReadByte 1 2 3) (pc := 33) (L := issued (.smbReadByte 1 2 3)) (by decide), rfl⟩,
    inv_of_standsOk (i := .smbReadByte 1 2 3) (pc := 33) (L := polled 1 7) (by decide),
    ⟨inv_of_standsOk (i := .tableScan) (pc := 1) (L := issued .tableScan) (by decide), rfl⟩,
    inv_of_standsOk (i := .tableScan) (pc := 1) (L := fetched 1) (by decide)⟩

/-- ErrorEntry: with the lock held, and without. -/
theorem witness_ErrorEntry : (∀ v, Response.timeout ≠ .ok v) ∧ 0 < (standing 1 (issued .waitIbf)).clients.length ∧
    (standing 1 (issued .waitIbf)).lock = .held 0 ∧ (waiting (.smbReadByte 1 2 3)).lock ≠ .held 0 := by
  refine ⟨fun v h => (by cases h), by decide, rfl, by decide⟩

/-- CollectStep: a Complete client; and an Idle one, that collects or runs. -/
theorem witness_CollectStep :
    State.client? { base with
        schedule := [.collect 0], clients := [{ phase := .complete, latches := { issued .waitIbf with res := some .timeout } }] } 0 =
      some { phase := .complete, latches := { issued .waitIbf with res := some .timeout } } ∧
    (Instr.ramRead 0).wellFormed base.cfg.nTbl = true ∧ base.phase? 0 ≠ some .complete ∧
    State.nextTurn { base with schedule := [.run 0] } = .run 0 ∧ base.phase? 0 = some .idle := by
  refine ⟨rfl, rfl, by decide, rfl, rfl⟩

/-- MutualExclusion: both clauses, over one status read. -/
theorem witness_MutualExclusion :
    Inv (standing 1 (issued .waitIbf) [0]) ∧ (standing 1 (issued .waitIbf) [0]).trace = [] ++ .acquire 0 :: ([] ++ []) ∧
    (next? (step { standing 1 (issued .waitIbf) [0] with schedule := [.run 0] })).map (·.trace) =
      some [.acquire 0, .input 0 1 0] ∧ isPortEvent (.input 0 1 0) = true :=
  ⟨inv_of_standsOk (i := .waitIbf) (pc := 1) (L := issued .waitIbf) (by decide), rfl, by decide, rfl⟩

/-- RunTurnFrame, LatchFrame, OneEventPerStep, LockChangesOnlyByItsSteps: a turn that ends in a next state. -/
theorem witness_Frames :
    (waiting .waitIbf).now = .run 0 ∧ (next? (exec .waitIbf (waiting .waitIbf))).map (·.lock) = some (.held 0) ∧
    (next? (step { waiting .waitIbf with schedule := [.run 0] })).map (·.lock) = some (.held 0) ∧
    (waiting .waitIbf).life = .attached ∧ (waiting .waitIbf).lock = .free := by decide

/-- ScanStatusTransitions: the scan starts. -/
theorem witness_ScanStatusTransitions :
    (next? (step { base with schedule := [.request 0 0x0000000040] })).map (fun s => (s.life, s.scanStatus)) =
      some (.attached, .running) ∧ base.scanStatus = .notRun := by decide

/-- The scan at its last step, with success and with `stage` in the way. -/
def scanning (pc : Nat) (stage : Stage) : State :=
  { standing pc (fetched 1) with
    scanStatus := .running, schedule := [.run 0], clients := [{ phase := .busy pc stage, latches := { fetched 1 with dev := some 0x21 } }] }

/-- ScanStatusTransitions: the scan ends with success, with `InvalidTable` and with `Timeout`. -/
theorem witness_ScanStatusTransitions_end :
    (next? (step (scanning 15 .start))).map (fun s => (s.scanStatus, s.result? 0)) = some (.done, some (.ok 0)) ∧
    (next? (step (scanning 6 (.abort .invalidTable)))).map (fun s => (s.scanStatus, s.result? 0)) =
      some (.failed, some .invalidTable) ∧
    (next? (step (scanning 1 (.abort .timeout)))).map (fun s => (s.scanStatus, s.result? 0)) =
      some (.failed, some .timeout) := by decide

/-- ScanStatusTransitions: the two invariants hold at the scan's last step. -/
theorem witness_ScanStatusTransitions_inv : Inv (scanning 15 .start) ∧ ScanInv (scanning 15 .start) := by
  refine ⟨inv_of_standsOk (i := .tableScan) (pc := 15) (L := { fetched 1 with dev := some 0x21 }) (by decide),
    fun _ _ => rfl, ?_⟩
  rintro c d ⟨q, _, _, hc, _⟩ ⟨q', _, _, hd, _⟩
  cases c with
  | succ c => cases hc
  | zero =>
    cases d with
    | succ d => cases hd
    | zero => rfl

theorem witness_NoCancellation : Inv (waiting .waitIbf) ∧ (waiting .waitIbf).phase? 0 = some (.busy 0 .start) ∧
    State.nextTurn { waiting .waitIbf with schedule := [.detach] } ≠ .run 0 :=
  ⟨inv_of_standsOk (i := .waitIbf) (pc := 0) (L := issued .waitIbf) (by decide), rfl, by decide⟩

/-- LockScopes: both scopes. -/
theorem witness_LockScopes : profile.smbusLockScope = .perStep ∧ wholeProfile.smbusLockScope = .wholeTransaction := ⟨rfl, rfl⟩

/-! ## The assembly syntax -/

theorem test_readRequest : readRequest " RAM_READ 0x2B".toList = some (.ramRead 0x2B) ∧
    readRequest "SMB_WRITE_BYTE 0x01, 160, 0x10,0x55".toList = some (.smbWriteByte 0x01 0xA0 0x10 0x55) ∧
    readRequest "TABLE_SCAN".toList = some .tableScan := by decide
theorem test_readRequest_refuses : readRequest "RAM_READ".toList = none ∧ readRequest "RAM_READ 256".toList = none ∧
    readRequest "RAM_READ 1, 2".toList = none ∧ readRequest "RAM_READ 1,".toList = none ∧
    readRequest "RAM_FLUSH".toList = none := by decide
/-- From program P3 of 95_test_vectors.md. -/
theorem test_readProgram :
    readProgram "client 0:\n  TABLE_SCAN    ; 0x0000000040\n  expect Ok 0\nclient 1:\n  TABLE_READ 0x01".toList =
      some [{ client := 0, lines := [{ request := .tableScan, expected := some 0x0000000000 }] },
        { client := 1, lines := [{ request := .tableRead 0x01, expected := none }] }] := by decide
/-- Log entry 21: a heading needs its number, a client has one heading and a request one expect line, and every line
belongs to something. -/
theorem test_readProgram_refuses :
    readProgram "client :\n  WAIT_IBF".toList = none ∧
    readProgram "client 0:\n  WAIT_IBF\nclient 0:\n  WAIT_OBF".toList = none ∧
    readProgram "client 0:\n  WAIT_IBF\n  expect Ok 0\n  expect Ok 0".toList = none ∧
    readProgram "WAIT_IBF".toList = none ∧ readProgram "client 0:\n  expect Ok 0".toList = none := by decide
theorem test_clientTurn : base.clientTurn 0 [.waitIbf, .waitObf] = some (.request 0 0x0000000001, [.waitObf]) ∧
    (waiting .waitIbf).clientTurn 0 [.waitObf] = some (.run 0, [.waitObf]) := by decide

/-! ## Witnesses: the lifecycle -/

/-- ResetValues, DetachStep: a detach that is admitted, one that is not, and a request after it. -/
theorem witness_Detach :
    base.life = .attached ∧ base.detach.life = .detached ∧ base.lock = .free ∧
    State.nextTurn { base with schedule := [.detach] } = .detach ∧ (waiting .waitIbf).phase? 0 ≠ some .idle ∧
    State.nextTurn { base.detach with schedule := [.request 0 1] } = .request 0 1 := by decide

theorem witness_Attach :
    State.nextTurn { State.detached profile with schedule := [.attach (some "X")] } = .attach (some "X") ∧
    (State.detached profile).life = .detached ∧ (State.detached profile).used = false ∧
    (State.nextTurn { State.detached profile with schedule := [.attach none] } = .attach none ∧
      (next? (step { State.detached profile with schedule := [.attach none] })).map (fun t => (t.life, t.used)) =
        some (.detached, false)) ∧
    State.nextTurn { base with schedule := [.attach none] } = .attach none ∧ base.life = .attached ∧
    State.nextTurn { State.detached profile with schedule := [.detach] } = .detach := by decide

end Sys2Proof.Tests
end

section
/-!
PROOFS, family 00_scope. Which turn of a client runs its operation (O7), and what a DATA read does (O34).
-/
namespace Sys2Proof.Machine

/-! ## A run turn -/

theorem State.running_of_busy {s : State} {c pc : Nat} {stage : Stage} {L : Latches} {i : Instr}
    (hc : s.client? c = some { phase := .busy pc stage, latches := L }) (hi : L.operation = some i) :
    s.running c = .ok (some i) := by
  simp only [State.running, hc, hi]

theorem State.running_of_not_busy {s : State} {c : Nat} (h : ∀ pc stage, s.phase? c ≠ some (.busy pc stage)) :
    s.running c = .ok none := by
  cases hc : s.client? c with
  | none => simp only [State.running, hc]
  | some q =>
    obtain ⟨phase, L⟩ := q
    cases phase with
    | idle | complete => simp only [State.running, hc]
    | busy pc stage => exact absurd (by simp [State.phase?, hc]) (h pc stage)

theorem step_of_running {s : State} {c : Nat} {i : Instr} (hn : s.nextTurn = .run c)
    (hr : s.running c = .ok (some i)) : step s = exec i s.takeTurn := by
  have hr' : s.takeTurn.running c = .ok (some i) := hr
  simp only [step, State.takeTurn_now, hn, hr', attempt]

theorem step_of_not_running {s : State} {c : Nat} (hn : s.nextTurn = .run c) (hr : s.running c = .ok none) :
    step s = .next s.takeTurn := by
  have hr' : s.takeTurn.running c = .ok none := hr
  simp only [step, State.takeTurn_now, hn, hr', attempt]

/-- Settles O7: what the turn runs is what `State.running` reads from the client. -/
theorem stepRunsTheLatchedOperation : Obligations.StepRunsTheLatchedOperation :=
  ⟨fun _ _ _ _ _ _ hn hc hi => ⟨step_of_running hn (State.running_of_busy hc hi), hn⟩,
    fun _ _ hn hp => step_of_not_running hn (State.running_of_not_busy hp)⟩

/-! ## The internal work of a step that neither ends the operation nor has let the lock go -/

/-- What `State.settle` leads to there (`settle_continued`): unlike in `Settled`, the operation is not over, so that its
result and `scanStatus` stay, and each counter changes in one kind of internal work only. -/
structure Continued (s t : State) (after : After) (c pc : Nat) (q q' : Sequencer) : Prop where
  shape : ∃ tb, t = ({ s with table := tb } : State).setClient c q' ∧
    ((∀ back, after ≠ .storeEntry back) → tb = s.table)
  latches : ∃ sp x, q'.latches = { q.latches with spoll := sp, idx := x } ∧
    ((∀ back, after ≠ .checkIdle back) → sp = q.latches.spoll) ∧
    ((∀ back, after ≠ .storeEntry back) → x = q.latches.idx)
  phase : after = .proceed → q'.phase = .busy (pc + 1) .start

/-- Only the phase changes. -/
theorem Continued.of_phase (s : State) {after : After} (c : Nat) {pc : Nat} (q : Sequencer) {p : Phase}
    (hp : after = .proceed → p = .busy (pc + 1) .start) :
    Continued s (s.setClient c { q with phase := p }) after c pc q { q with phase := p } :=
  ⟨⟨s.table, rfl, fun _ => rfl⟩, ⟨_, _, rfl, fun _ => rfl, fun _ => rfl⟩, hp⟩

/-- The idle poll's counter changes too. -/
theorem Continued.of_spoll (s : State) (c pc back n : Nat) (q : Sequencer) (p : Phase) :
    Continued s (s.setClient c { phase := p, latches := { q.latches with spoll := some n } }) (.checkIdle back) c pc q
      { phase := p, latches := { q.latches with spoll := some n } } :=
  ⟨⟨s.table, rfl, fun _ => rfl⟩, ⟨some n, _, rfl, fun hne => absurd rfl (hne back), fun _ => rfl⟩, nofun⟩

/-- An entry is stored and the scan index changes too. -/
theorem Continued.of_entry (s : State) (c pc back n : Nat) (dev pin : Byte) (q : Sequencer) (p : Phase) :
    Continued s ((s.writeEntry n dev pin).setClient c { phase := p, latches := { q.latches with idx := some (n + 1) } })
      (.storeEntry back) c pc q { phase := p, latches := { q.latches with idx := some (n + 1) } } :=
  ⟨⟨_, rfl, fun hne => absurd rfl (hne back)⟩,
    ⟨_, some (n + 1), rfl, fun _ => rfl, fun hne => absurd rfl (hne back)⟩, nofun⟩

theorem raise_held {s : State} {r : Routine} {c pc : Nat} {q : Sequencer} {e : Response} (h : s.lock = .held c) :
    s.raise r c pc q e = s.setClient c { q with phase := .busy pc (.abort e) } :=
  if_pos h

theorem attempt_next {α : Type} {x : Except Fault α} {k : α → Out} {t : State} (h : attempt x k = .next t) :
    ∃ a, x = .ok a ∧ k a = .next t := by
  cases x with
  | ok a => exact ⟨a, rfl, h⟩
  | error f => cases h

theorem settle_continued {s t : State} {r : Routine} {after : After} {c pc : Nat} {q : Sequencer}
    (hl : s.lock = .held c) (hpc : pc + 1 < (r.seq s.cfg).length) (h : s.settle r after c pc q = .next t) :
    ∃ q', Continued s t after c pc q q' := by
  have hback : ∀ back, pc - back < (r.seq s.cfg).length := fun back => by omega
  unfold State.settle at h
  cases after with
  | proceed =>
    rw [goto_lt hpc] at h
    cases h
    exact ⟨_, .of_phase s c q fun _ => rfl⟩
  | checkTarget | checkTable | checkStatus =>
    obtain ⟨b, _, h⟩ := attempt_next h
    simp only [goto_lt hpc, raise_held hl] at h
    split at h <;> cases h <;> exact ⟨_, .of_phase s c q nofun⟩
  | checkIdle back =>
    obtain ⟨pr, _, h⟩ := attempt_next h
    split at h
    · rw [goto_lt hpc] at h
      cases h
      exact ⟨_, .of_phase s c q nofun⟩
    · obtain ⟨n, _, h⟩ := attempt_next h
      simp only [goto_lt (hback back), raise_held hl] at h
      split at h <;> cases h <;> exact ⟨_, .of_spoll s c pc back (n + 1) q _⟩
  | storeEntry back =>
    obtain ⟨dev, _, h⟩ := attempt_next h
    obtain ⟨pin, _, h⟩ := attempt_next h
    obtain ⟨n, _, h⟩ := attempt_next h
    split at h
    · have hgoto := @goto_lt (s.writeEntry n dev pin) r c
      simp only [hgoto hpc, hgoto (hback back)] at h
      split at h <;> cases h <;> exact ⟨_, .of_entry s c pc back n dev pin q _⟩
    · cases h

/-! ## A DATA read -/

section
variable {s : State} {c pc : Nat} {L : Latches} {i : Instr} {m : Micro}

/-- No step faults in a state that meets the invariant. -/
theorem Stands.exec_next (h : Stands s c i pc L m) : ∃ t, exec i s = .next t := by
  have hrange := (h.inv.sequencers c _ h.here).inRange
  obtain ⟨t, ht, _⟩ := perform_inv h.inv (h.inv.mid h.here) h.step (stands_busy h) hrange nofun
  exact ⟨t, (stands_exec h).trans ht⟩

variable {ls : List Latch}

theorem Stands.lock_of_response (h : Stands s c i pc L m) (ha : m.act = .response ls) : s.lock = .held c := by
  have hok := (seq_micro h.step).1
  rw [ha] at hok
  simp only [actOk, Bool.and_eq_true] at hok
  exact (stands_busy h).holds.mpr hok.1

/-- A DATA read is never the last step of an operation. -/
theorem Stands.succ_lt_of_response (h : Stands s c i pc L m) (ha : m.act = .response ls) :
    pc + 1 < ((routineOf i).seq s.cfg).length := by
  have hw := seq_where h.step
  rw [wherePred, ha] at hw
  exact notLast h (by simpa using hw)

/-- An operation that has `v` among its latches latches every byte it reads from DATA there (R31). -/
theorem Stands.v_mem_of_response (h : Stands s c i pc L m) (ha : m.act = .response ls) (hv : .v ∈ latchesOf i) :
    .v ∈ ls := by
  have hd := seq_decision h.step
  simp only [decisionOk, Bool.and_eq_true] at hd
  have hls := hd.1.1
  rw [ha] at hls
  simpa [hv] using hls

/-- A DATA read takes the oracle's byte, latches it, and continues the operation. -/
theorem Stands.response_continued (h : Stands s c i pc L m) (ha : m.act = .response ls) :
    ∃ t q, exec i s = .next t ∧ Continued (s.portIn c .data) t m.after c pc
      { phase := .busy pc .start, latches := L.writeAll (s.answer .data) ls } q := by
  obtain ⟨t, ht⟩ := h.exec_next
  have hsettle := ht
  rw [stands_exec h, State.perform, ha] at hsettle
  obtain ⟨q, hq⟩ := settle_continued (s := s.portIn c .data) (h.lock_of_response ha) (h.succ_lt_of_response ha) hsettle
  exact ⟨t, q, ht, hq⟩

end

/-- Settles O34: the read is `State.portIn`, the latches are those of `Latches.writeAll`, and the internal work after it
continues the operation. -/
theorem dataReadStep : Obligations.DataReadStep := by
  intro s c pc L i m ls h ha
  obtain ⟨t, q, ht, hq⟩ := h.response_continued ha
  obtain ⟨tb, rfl, htb⟩ := hq.shape
  obtain ⟨sp, x, hL, hsp, hx⟩ := hq.latches
  have hread : ∀ l, q.latches.read l = if l ∈ ls then some (s.answer .data) else L.read l := fun l => by
    rw [hL, ← Latches.read_writeAll]
    exact Latches.read_counters _ (L.writeAll (s.answer .data) ls).poll sp x l
  have hcounter := Latches.writeAll_counter L (s.answer .data) ls
  refine ⟨_, q, ht, rfl, State.client?_setClient_self _ q (State.client?_lt h.here), ?latched, ?others, ?v, ?poll, ?res,
    rfl, rfl, rfl, rfl, ?frame, ?spoll, ?entry, hq.phase⟩
  case latched => exact fun l hl => (hread l).trans (if_pos hl)
  case others => exact fun l hl => (hread l).trans (if_neg hl)
  case v => exact fun hv => (hread .v).trans (if_pos (h.v_mem_of_response ha hv))
  case poll => exact (congrArg Latches.poll hL).trans (hcounter .poll)
  case res => exact (congrArg Latches.res hL).trans (Latches.writeAll_res ..)
  case frame => exact ⟨rfl, rfl, rfl, rfl, rfl, rfl, rfl, rfl, fun d hd => State.client?_setClient_ne _ q hd⟩
  case spoll => exact fun hne => (congrArg Latches.spoll hL).trans ((hsp hne).trans (hcounter .spoll))
  case entry => exact fun hne => ⟨(congrArg Latches.idx hL).trans ((hx hne).trans (hcounter .idx)), htb hne⟩

end Sys2Proof.Machine
end

section
/-!
PROOFS, family 10_state. Reset (O8, O43), that no step stops (O45), what a run turn leaves as it is (O49, O50), the trace
and the lock (O51, O52), and the scan (O47, O53).
-/
namespace Sys2Proof.Machine

/-! ## Attach and detach -/

/-- Everything that an attach can do (R139, R140). -/
theorem State.attach_cases (s : State) (p : Option String) :
    s.attach p = s.markRefused ∨ (s.life = .detached ∧ s.attach p = s) ∨
      (s.life = .detached ∧ ∃ product, s.attach p =
        { State.attached s.cfg product with
          collected := s.collected, now := s.now, schedule := s.schedule, turns := s.turns, script := s.script,
          reads := s.reads }) := by
  unfold State.attach
  split
  · exact Or.inl rfl
  · rename_i hfirst
    have hlife : s.life = .detached := by
      cases hl : s.life with
      | detached => rfl
      | attached => exact absurd (Or.inl hl) hfirst
    cases p with
    | none => exact Or.inr (Or.inl ⟨hlife, rfl⟩)
    | some product => exact Or.inr (Or.inr ⟨hlife, product, rfl⟩)

/-- Everything that a detach can do (R141). -/
theorem State.detach_cases (s : State) :
    s.detach = s.markRefused ∨ (s.lock = .free ∧
      s.detach = { s with life := .detached, table := [], scanStatus := .notRun, product := "", clients := [] }) := by
  unfold State.detach
  split
  · rename_i h
    obtain ⟨-, hlock, -⟩ := h
    exact Or.inr ⟨hlock, rfl⟩
  · exact Or.inl rfl

theorem State.attach_attached {s : State} (h : s.life = .attached) (p : Option String) : s.attach p = s.markRefused :=
  if_pos (Or.inl h)

theorem client?_of_nil {s : State} (h : s.clients = []) (c : Nat) : s.client? c = none := by
  rw [State.client?, h, List.getElem?_nil]

/-- Every client of a fresh context is Idle with no latch written (R42). -/
theorem client?_attached {k : Config} {p : String} {c : Nat} :
    (State.attached k p).client? c = if c < k.nClients then some {} else none :=
  List.getElem?_replicate

theorem client?_attached_eq {k : Config} {p : String} {c : Nat} {q : Sequencer}
    (h : (State.attached k p).client? c = some q) : q = {} := by
  rw [client?_attached] at h
  split at h <;> cases h
  rfl

/-- Settles O8: the fields of `State.reset` as they are defined, and what a detach that takes place leaves. -/
theorem resetValues : Obligations.ResetValues := by
  refine ⟨⟨rfl, rfl, fun n hn => ?entry, List.length_replicate, rfl, rfl, rfl, rfl, List.length_replicate,
    fun c hc => ?client⟩, fun _ => ⟨rfl, rfl, rfl⟩, fun s hd hl => ?gone⟩
  case entry => exact List.getElem?_replicate.trans (if_pos hn)
  case client => exact client?_attached.trans (if_pos hc)
  case gone =>
    rcases s.detach_cases with h | ⟨hlock, h⟩ <;> rw [h] at hd ⊢
    · cases hl.symm.trans hd
    · exact ⟨rfl, rfl, rfl, hlock⟩

/-! ## The invariants of a fresh context -/

theorem ClientOk.of_idle {s : State} {c : Nat} {L : Latches} (hr : L.InRange s.cfg) (hl : s.lock ≠ .held c) :
    ClientOk s c { phase := .idle, latches := L } :=
  ⟨hr, hl⟩

theorem inv_attached {k : Config} (hk : k.wf = true) (p : String) : Inv (State.attached k p) where
  config := hk
  shape _ := ⟨List.length_replicate, List.length_replicate⟩
  gone := nofun
  exclusion := rfl
  owner := nofun
  sequencers c q hq := by
    rw [client?_attached_eq hq]
    exact .of_idle (Latches.inRange_empty k) nofun

/-- No client of a fresh context runs the scan. -/
theorem not_scans_attached (k : Config) (p : String) (c : Nat) : ¬ (State.attached k p).scans c := by
  rintro ⟨q, pc, stage, hq, hp, -⟩
  rw [client?_attached_eq hq] at hp
  cases hp

theorem scanInv_attached (k : Config) (p : String) : ScanInv (State.attached k p) where
  running c h := absurd h (not_scans_attached k p c)
  unique c _ h _ := absurd h (not_scans_attached k p c)

theorem handshakeInv_attached (k : Config) (p : String) : HandshakeInv (State.attached k p) where
  kept := rfl
  next c q pc stage i m hq hp := by
    rw [client?_attached_eq hq] at hp
    cases hp

/-- Settles O43: reset is an attach (R139), and each invariant holds right after any attach whose configuration the spec
allows. -/
theorem invariantsHoldAtReset : Obligations.InvariantsHoldAtReset :=
  ⟨inv_attached atReset_wf _, scanInv_attached _ _, handshakeInv_attached _ _⟩

/-! ## What a step answers -/

theorem step_of_decoded {s : State} {c : Nat} {w : Req} {i : Instr} (hn : s.nextTurn = .request c w)
    (hd : decodeReq w = .ok i) : step s = .next (s.takeTurn.issue i (routineOf i) c) := by
  simp only [step, State.takeTurn_now, hn, hd, exec_eq_operate, operate]

theorem step_of_undecoded {s : State} {c : Nat} {w : Req} {e : Reject} (hn : s.nextTurn = .request c w)
    (hd : decodeReq w = .error e) : step s = .next s.takeTurn.markRefused := by
  simp only [step, State.takeTurn_now, hn, hd]

theorem step_of_collect {s : State} {c : Nat} (hn : s.nextTurn = .collect c) : step s = s.takeTurn.collect c := by
  simp only [step, State.takeTurn_now, hn]

theorem step_of_attach {s : State} {p : Option String} (hn : s.nextTurn = .attach p) :
    step s = .next (s.takeTurn.attach p) := by
  simp only [step, State.takeTurn_now, hn]

theorem step_of_detach {s : State} (hn : s.nextTurn = .detach) : step s = .next s.takeTurn.detach := by
  simp only [step, State.takeTurn_now, hn]

theorem Inv.takeTurn {s : State} (h : Inv s) : Inv s.takeTurn :=
  h.fields rfl rfl rfl rfl rfl rfl

theorem Inv.markRefused {s : State} (h : Inv s) : Inv s.markRefused :=
  h.fields rfl rfl rfl rfl rfl rfl

theorem Inv.attach {s : State} (h : Inv s) (p : Option String) : Inv (s.attach p) := by
  rcases s.attach_cases p with e | ⟨-, e⟩ | ⟨-, product, e⟩ <;> rw [e]
  · exact h.markRefused
  · exact h
  · exact (inv_attached h.config product).fields rfl rfl rfl rfl rfl rfl

theorem Inv.detach {s : State} (h : Inv s) : Inv s.detach := by
  rcases s.detach_cases with e | ⟨hlock, e⟩ <;> rw [e]
  · exact h.markRefused
  · refine ⟨h.config, nofun, fun _ => ⟨rfl, hlock⟩, h.exclusion, fun c hc => ?owner, fun c q hq => ?none⟩
    case owner => cases hlock.symm.trans hc
    case none => cases (client?_of_nil rfl c).symm.trans hq

/-- A Complete client has a result to collect (R31, R130). -/
theorem Inv.collect_next {s : State} (h : Inv s) (c : Nat) : ∃ t, s.collect c = .next t ∧ Inv t := by
  unfold State.collect
  split
  · rename_i L hq
    obtain ⟨hrange, hlock, i, res, -, hres, -⟩ := h.sequencers c _ hq
    simp only at hres
    rw [hres]
    exact ⟨_, rfl, ((h.mid hq).close (.of_idle hrange hlock)).fields rfl rfl rfl rfl rfl rfl⟩
  all_goals exact ⟨s, rfl, h⟩

/-- The operation that a Busy client's latches hold takes its next step. -/
theorem Inv.exec_busy_next {s : State} (h : Inv s) {c pc : Nat} {stage : Stage} {L : Latches} (hn : s.now = .run c)
    (hq : s.client? c = some { phase := .busy pc stage, latches := L }) :
    ∃ i, L.operation = some i ∧ ∃ t, exec i s = .next t ∧ Inv t := by
  obtain ⟨hrange, i, hbusy⟩ := h.sequencers c _ hq
  obtain ⟨t, ht, hI⟩ := advance_inv h hq rfl hbusy hrange
  refine ⟨i, hbusy.operation, t, ?_, hI⟩
  rw [exec_eq_operate]
  simpa only [operate, hn] using ht

theorem Inv.run_next {s : State} (h : Inv s) {c : Nat} (hn : s.nextTurn = .run c) : ∃ t, step s = .next t ∧ Inv t := by
  by_cases hb : ∃ pc stage, s.phase? c = some (.busy pc stage)
  · obtain ⟨pc, stage, hp⟩ := hb
    obtain ⟨⟨_, L⟩, hq, rfl⟩ := State.phase?_some hp
    obtain ⟨i, hi, t, ht, hI⟩ := h.takeTurn.exec_busy_next hn hq
    exact ⟨t, (step_of_running hn (State.running_of_busy hq hi)).trans ht, hI⟩
  · push Not at hb
    exact ⟨_, step_of_not_running hn (State.running_of_not_busy hb), h.takeTurn⟩

/-- From a state that meets the invariant every step answers a next state, and that one meets it too. -/
theorem Inv.step_next {s : State} (h : Inv s) : ∃ t, step s = .next t ∧ Inv t := by
  cases hn : s.nextTurn with
  | request c w =>
    cases hd : decodeReq w with
    | ok i => exact ⟨_, step_of_decoded hn hd, issue_inv h.takeTurn i c⟩
    | error e => exact ⟨_, step_of_undecoded hn hd, h.takeTurn.markRefused⟩
  | run c => exact h.run_next hn
  | collect c =>
    rw [step_of_collect hn]
    exact h.takeTurn.collect_next c
  | attach p => exact ⟨_, step_of_attach hn, h.takeTurn.attach p⟩
  | detach => exact ⟨_, step_of_detach hn, h.takeTurn.detach⟩

/-- Settles O45: every kind of turn answers a next state (`Inv.step_next`), a run turn by `advance_inv`. -/
theorem noStepStops : Obligations.NoStepStops := fun _ h =>
  let ⟨t, ht, _⟩ := h.step_next
  ⟨t, ht⟩

theorem Inv.of_step {s t : State} (h : Inv s) (ht : step s = .next t) : Inv t := by
  obtain ⟨t', ht', hI⟩ := h.step_next
  cases ht.symm.trans ht'
  exact hI

/-! ## What a run turn leaves as it is -/

/-- Settles O49: `TurnKept` and `Turned.tables` say it of every run turn. -/
theorem runTurnFrame : Obligations.RunTurnFrame := by
  intro s t c i hn h
  rcases exec_run hn h with ⟨-, rfl⟩ | ⟨q, q', hq, hT⟩
  · exact ⟨⟨rfl, rfl, rfl, rfl, rfl, rfl, rfl, rfl, fun _ _ => rfl⟩, rfl, fun _ => ⟨rfl, rfl⟩⟩
  · have hkept := hT.kept hq
    exact ⟨hkept.others, hkept.now, hT.tables⟩

/-- No operation writes the latches that hold its descriptor (R52). -/
theorem latchesOf_not_request (i : Instr) : ∀ l ∈ latchesOf i, l ∉ requestLatches := by
  cases i <;> simp [latchesOf, requestLatches]

/-- Settles O50: the client's sequencer after the turn is the one that `Turned.latch` speaks of. -/
theorem latchFrame : Obligations.LatchFrame := by
  intro s t c i q q' hn hq h hq'
  rcases exec_run hn h with ⟨hnone, -⟩ | ⟨q₀, q₁, hq₀, hT⟩
  · cases hq.symm.trans hnone
  · cases hq.symm.trans hq₀
    cases hq'.symm.trans ((hT.kept hq).self hq)
    exact ⟨hT.latch.1, latchesOf_not_request i, hT.latch.2⟩

/-! ## The trace and the lock -/

/-- What a step does to the trace and the lock: a run turn appends its client's event, and else only an attach changes
either. -/
theorem step_trace_lock {s t : State} (h : step s = .next t) :
    (∃ c, s.nextTurn = .run c ∧ EvOk s t c) ∨ (∃ p, s.nextTurn = .attach p ∧ t = s.takeTurn.attach p) ∨
      (t.trace = s.trace ∧ t.lock = s.lock) := by
  rcases step_cases h with ⟨c, q, q', i, hn, -, -, hT⟩ | rfl | ⟨_, _, -, rfl, -⟩ | ⟨c, w, i, -, -, -, rfl⟩ |
    ⟨_, _, _, -, -, rfl⟩ | hattach | ⟨-, rfl⟩
  · exact Or.inl ⟨c, hn, hT.ev⟩
  · exact Or.inr (Or.inr ⟨rfl, rfl⟩)
  · exact Or.inr (Or.inr ⟨rfl, rfl⟩)
  · obtain ⟨-, htrace, -, hlock, -⟩ := issued_frame i s.takeTurn
    exact Or.inr (Or.inr ⟨htrace, hlock⟩)
  · exact Or.inr (Or.inr ⟨rfl, rfl⟩)
  · exact Or.inr (Or.inl hattach)
  · refine Or.inr (Or.inr ?_)
    rcases s.takeTurn.detach_cases with e | ⟨-, e⟩ <;> rw [e] <;> exact ⟨rfl, rfl⟩

/-- Settles O51: `EvOk` of a run turn, and `step_trace_lock` of every other turn. -/
theorem oneEventPerStep : Obligations.OneEventPerStep := by
  refine ⟨fun s t c i hn h => ?_, fun s t hrun hattach h => ?_⟩
  · rcases exec_ev hn h with ⟨h, -⟩ | ⟨h, -⟩ | ⟨h, -⟩ | ⟨-, p, b, hp, e, he, h⟩
    · exact Or.inl h
    · exact Or.inr ⟨_, h, Or.inl rfl⟩
    · exact Or.inr ⟨_, h, Or.inr (Or.inl rfl)⟩
    · exact Or.inr ⟨e, h, Or.inr (Or.inr ⟨p, b, hp, he⟩)⟩
  · rcases step_trace_lock h with ⟨c, hn, -⟩ | ⟨p, hn, -⟩ | ⟨h, -⟩
    · exact absurd hn (hrun c)
    · exact absurd hn (hattach p)
    · exact h

/-- Settles O52: two of the events of `EvOk` change the lock, and an attach while attached is refused. -/
theorem lockChangesOnlyByItsSteps : Obligations.LockChangesOnlyByItsSteps := by
  intro s t hlife h hne
  rcases step_trace_lock h with ⟨c, hn, hev⟩ | ⟨p, -, rfl⟩ | ⟨-, hlock⟩
  · refine ⟨c, hn, ?_⟩
    rcases hev with ⟨-, hlock⟩ | ⟨htr, hfree, hheld⟩ | ⟨htr, hheld, hfree⟩ | ⟨hlock, -⟩
    · exact absurd hlock hne
    · exact Or.inl ⟨hfree, hheld, htr⟩
    · exact Or.inr ⟨hheld, hfree, htr⟩
    · exact absurd hlock hne
  · rw [State.attach_attached (s := s.takeTurn) hlife] at hne
    exact absurd rfl hne
  · exact absurd hlock hne

/-! ## The scan -/

/-- The sequencer runs the scan. -/
def Sequencer.Scanning (q : Sequencer) : Prop :=
  (∃ pc stage, q.phase = .busy pc stage) ∧ q.latches.operation = some .tableScan

theorem scans_iff {s : State} {c : Nat} : s.scans c ↔ ∃ q, s.client? c = some q ∧ q.Scanning :=
  ⟨fun ⟨q, pc, stage, hq, hp, ho⟩ => ⟨q, hq, ⟨pc, stage, hp⟩, ho⟩,
    fun ⟨q, hq, ⟨pc, stage, hp⟩, ho⟩ => ⟨q, pc, stage, hq, hp, ho⟩⟩

/-- Who runs the scan after one client's sequencer is replaced. -/
theorem scans_of_set {s t : State} {c d : Nat} {q : Sequencer} (ht : t.clients = s.clients.set c q) (h : t.scans d) :
    (d ≠ c ∧ s.scans d) ∨ (d = c ∧ q.Scanning) := by
  obtain ⟨q₀, hq₀, hs⟩ := scans_iff.mp h
  simp only [State.client?, ht] at hq₀
  by_cases hd : d = c
  · subst hd
    rw [List.getElem?_set_self'] at hq₀
    obtain ⟨_, -, rfl⟩ := Option.map_eq_some_iff.mp hq₀
    exact Or.inr ⟨rfl, hs⟩
  · rw [List.getElem?_set_ne (Ne.symm hd)] at hq₀
    exact Or.inl ⟨hd, scans_iff.mpr ⟨q₀, hq₀, hs⟩⟩

/-- A step that lets nobody begin the scan, and that keeps `scanStatus` while somebody is still at it. -/
theorem ScanInv.of_fewer {s t : State} (h : ScanInv s)
    (ht : ∀ c, t.scans c → s.scans c ∧ t.scanStatus = s.scanStatus) : ScanInv t where
  running c hc := (ht c hc).2.trans (h.running c (ht c hc).1)
  unique c d hc hd := h.unique c d (ht c hc).1 (ht d hd).1

/-- A run turn lets nobody begin the scan. -/
theorem Turned.scanning {s t : State} {i : Instr} {c : Nat} {q q' : Sequencer} (h : Turned s t i c q q')
    (hs : q'.Scanning) : q.Scanning := by
  obtain ⟨hbusy, ho⟩ := hs
  refine ⟨?_, h.operation.symm.trans ho⟩
  cases h with
  | idle _ he _ => exact he ▸ hbusy
  | performed pc stage _ hp _ _ _ => exact ⟨pc, stage, hp⟩
  | aborted pc e hp _ _ _ => exact ⟨pc, .abort e, hp⟩

/-- A run turn changes `scanStatus` only where it ends the scan of its client (R25). -/
theorem Turned.scanStatus_cases {s t : State} {i : Instr} {c : Nat} {q q' : Sequencer} (h : Turned s t i c q q')
    (ho : q.latches.operation = some i) :
    t.scanStatus = s.scanStatus ∨ (q.Scanning ∧ q'.phase = .complete ∧
      ∃ res, q'.latches.res = some res ∧ t.scanStatus = endStatus .tableScan res .running) := by
  by_cases hi : i = .tableScan
  · subst hi
    by_cases hbusy : ∃ pc stage, q.phase = .busy pc stage
    · rcases h.scan hbusy with ⟨hst, -⟩ | ⟨hp, hres⟩
      · exact Or.inl hst
      · exact Or.inr ⟨⟨hbusy, ho⟩, hp, hres⟩
    · cases h with
      | idle h _ _ => exact Or.inl (congrArg State.scanStatus h)
      | performed pc stage _ hp _ _ _ => exact absurd ⟨pc, stage, hp⟩ hbusy
      | aborted pc e hp _ _ _ => exact absurd ⟨pc, .abort e, hp⟩ hbusy
  · exact Or.inl (h.tables hi).2

theorem Turned.scanInv {s t : State} {i : Instr} {c : Nat} {q q' : Sequencer} (h : Turned s t i c q q')
    (hI : ScanInv s) (hq : s.client? c = some q) (ho : q.latches.operation = some i) : ScanInv t := by
  have hfewer : ∀ d, t.scans d → s.scans d ∧ (d = c → q'.Scanning) := fun d hd => by
    rcases scans_of_set (h.kept hq).clients hd with ⟨hne, hs⟩ | ⟨rfl, hs⟩
    · exact ⟨hs, fun e => absurd e hne⟩
    · exact ⟨scans_iff.mpr ⟨q, hq, h.scanning hs⟩, fun _ => hs⟩
  refine hI.of_fewer fun d hd => ⟨(hfewer d hd).1, ?_⟩
  rcases h.scanStatus_cases ho with hst | ⟨hs, hp, -⟩
  · exact hst
  · obtain rfl := hI.unique d c (hfewer d hd).1 (scans_iff.mpr ⟨q, hq, hs⟩)
    obtain ⟨⟨pc, stage, hp'⟩, -⟩ := (hfewer d hd).2 rfl
    cases hp.symm.trans hp'

theorem scans_of_issued {s : State} {i : Instr} {c d : Nat}
    (h : (((routineOf i).issued s).setClient c { phase := .busy 0 .start, latches := .ofRequest i }).scans d) :
    s.scans d ∨ (d = c ∧ i = .tableScan) := by
  have hclients := (issued_frame i s).1
  rcases scans_of_set (s := s) (by rw [State.setClient_clients, hclients]) h with ⟨-, hs⟩ | ⟨hd, -, ho⟩
  · exact Or.inl hs
  · exact Or.inr ⟨hd, Option.some.inj ((Latches.operation_ofRequest i).symm.trans ho)⟩

/-- An admitted request: TABLE_SCAN is admitted only while nobody runs the scan (R75, R116). -/
theorem ScanInv.issued {s : State} {c : Nat} {w : Req} {i : Instr} (h : ScanInv s) (ha : Admits s c w i) :
    ScanInv (((routineOf i).issued s).setClient c { phase := .busy 0 .start, latches := .ofRequest i }) := by
  obtain ⟨-, -, -, -, -, hother, hscan⟩ := issued_frame i s
  by_cases hi : i = .tableScan
  · have hnone : ∀ d, ¬ s.scans d := fun d hd => by
      rcases ha.scan hi with e | e <;> cases e.symm.trans (h.running d hd)
    refine ⟨fun _ _ => hscan hi, fun d e hd he => ?_⟩
    obtain ⟨rfl, -⟩ := (scans_of_issued hd).resolve_left (hnone d)
    obtain ⟨rfl, -⟩ := (scans_of_issued he).resolve_left (hnone e)
    rfl
  · refine h.of_fewer fun d hd => ⟨(scans_of_issued hd).resolve_right fun hc => hi hc.2, ?_⟩
    rw [State.setClient_scanStatus, hother hi]

/-- A client that collects its response does not run the scan. -/
theorem ScanInv.setIdle {s t : State} {c : Nat} {L : Latches} (h : ScanInv s)
    (ht : t.clients = s.clients.set c { phase := .idle, latches := L }) (hst : t.scanStatus = s.scanStatus) :
    ScanInv t :=
  h.of_fewer fun d hd => by
    rcases scans_of_set ht hd with ⟨-, hs⟩ | ⟨-, ⟨pc, stage, hp⟩, -⟩
    · exact ⟨hs, hst⟩
    · cases hp

theorem ScanInv.attach {s : State} (h : ScanInv s) (p : Option String) : ScanInv (s.attach p) := by
  rcases s.attach_cases p with e | ⟨-, e⟩ | ⟨-, product, e⟩ <;> rw [e]
  · exact h.of_fewer fun _ hc => ⟨hc, rfl⟩
  · exact h
  · exact (scanInv_attached s.cfg product).of_fewer fun _ hc => ⟨hc, rfl⟩

theorem ScanInv.detach {s : State} (h : ScanInv s) : ScanInv s.detach := by
  rcases s.detach_cases with e | ⟨-, e⟩ <;> rw [e]
  · exact h.of_fewer fun _ hc => ⟨hc, rfl⟩
  · refine h.of_fewer fun c hc => ?_
    obtain ⟨q, -, -, hq, -⟩ := hc
    cases (client?_of_nil rfl c).symm.trans hq

/-- Settles O47: by the cases of a step. -/
theorem stepsKeepTheScanInvariant : Obligations.StepsKeepTheScanInvariant := by
  intro s t _ hI h
  have hturn : ScanInv s.takeTurn := hI.of_fewer fun _ hc => ⟨hc, rfl⟩
  rcases step_cases h with ⟨c, q, q', i, -, hq, ho, hT⟩ | rfl | ⟨_, _, -, rfl, -⟩ | ⟨c, w, i, -, -, ha, rfl⟩ |
    ⟨c, L, r, -, -, rfl⟩ | ⟨p, -, rfl⟩ | ⟨-, rfl⟩
  · exact hT.scanInv hturn hq ho
  · exact hturn
  · exact hturn.of_fewer fun _ hc => ⟨hc, rfl⟩
  · exact hturn.issued (w := w) ⟨ha.life, ha.idle, ha.decodes, ha.index, ha.scan⟩
  · exact hturn.setIdle rfl rfl
  · exact hturn.attach p
  · exact hturn.detach

/-- A Complete client's result is one that R122 allows its operation. -/
theorem Inv.mayEndWith {s : State} (h : Inv s) {c : Nat} {q : Sequencer} {i : Instr} {res : Response}
    (hq : s.client? c = some q) (hp : q.phase = .complete) (ho : q.latches.operation = some i)
    (hr : q.latches.res = some res) : mayEndWith i res = true := by
  have hok := (h.sequencers c q hq).phase
  rw [PhaseOk, hp] at hok
  obtain ⟨-, i', res', ho', hr', hm⟩ := hok
  cases ho.symm.trans ho'
  cases hr.symm.trans hr'
  exact hm

theorem mayEndWith_tableScan {res : Response} (h : mayEndWith .tableScan res = true) :
    (∃ v, res = .ok v) ∨ res = .timeout ∨ res = .invalidTable := by
  cases res with
  | ok v => exact Or.inl ⟨v, rfl⟩
  | timeout => exact Or.inr (Or.inl rfl)
  | invalidTable => exact Or.inr (Or.inr rfl)
  | invalidTarget | smbusError => cases h

/-- Settles O53: by the cases of a step; the run turn that changes `scanStatus` ends its client's scan, with a result that
the invariant allows TABLE_SCAN. -/
theorem scanStatusTransitions : Obligations.ScanStatusTransitions := by
  intro s t hI hscan hs ht h hne
  have hI' := hI.of_step h
  rcases step_cases h with ⟨c, q, q', i, hn, hq, ho, hT⟩ | rfl | ⟨_, _, -, rfl, -⟩ | ⟨c, w, i, hn, -, ha, rfl⟩ |
    ⟨_, _, _, -, -, rfl⟩ | ⟨p, -, rfl⟩ | ⟨-, rfl⟩
  · obtain ⟨hq₀, hp, res, hres, hst⟩ := (hT.scanStatus_cases ho).resolve_left hne
    have hc : s.scans c := scans_iff.mpr ⟨q, hq, hq₀⟩
    have hq' : t.client? c = some q' := (hT.kept (s := s.takeTurn) hq).self hq
    have hresult : t.result? c = some res := by rw [State.result?, hq', Option.bind_some, hres]
    rcases mayEndWith_tableScan (hI'.mayEndWith hq' hp (hT.operation.trans hq₀.2) hres) with ⟨v, rfl⟩ | rfl | rfl
    · exact Or.inr (Or.inl ⟨c, v, hn, hc, hscan.running c hc, hst, hresult⟩)
    · exact Or.inr (Or.inr ⟨c, _, hn, hc, hscan.running c hc, hst, hresult, Or.inl rfl⟩)
    · exact Or.inr (Or.inr ⟨c, _, hn, hc, hscan.running c hc, hst, hresult, Or.inr rfl⟩)
  · exact absurd rfl hne
  · exact absurd rfl hne
  · obtain ⟨-, -, -, -, -, hother, hrunning⟩ := issued_frame i s.takeTurn
    by_cases hi : i = .tableScan
    · exact Or.inl ⟨c, w, hn, hi ▸ ha, hrunning hi⟩
    · exact absurd (congrArg State.scanStatus (hother hi)) hne
  · exact absurd rfl hne
  · rw [State.attach_attached (s := s.takeTurn) hs] at hne
    exact absurd rfl hne
  · rcases s.takeTurn.detach_cases with e | ⟨-, e⟩
    · rw [e] at hne
      exact absurd rfl hne
    · rw [e] at ht
      cases ht

end Sys2Proof.Machine
end

section
/-!
PROOFS, family 20_memory. Every step keeps the invariant (O44), the steps that take and free the lock (O31, O32) and that
write a port (O33), mutual exclusion on the trace (O48), and the lock's scope by operation (O55).
-/
namespace Sys2Proof.Machine

/-! ## The invariant -/

/-- Settles O44: by the kinds of turns (`Inv.step_next`), a run turn by `advance_inv`, step for step of a sequence. -/
theorem stepsKeepTheInvariant : Obligations.StepsKeepTheInvariant := fun _ _ h ht => h.of_step ht

/-! ## Steps with no internal work -/

section
variable {s : State} {c pc : Nat} {L : Latches} {i : Instr} {m : Micro}

/-- An `Acquire()` and a port write have no internal work and are never an operation's last step: the sequencer goes on to
the next one with its latches as they are. -/
theorem Stands.settle_next (h : Stands s c i pc L m)
    (ha : m.act = .acquire ∨ (∃ b, m.act = .command b) ∨ ∃ src, m.act = .argument src) {w : State} (hw : w.cfg = s.cfg) :
    w.settle (routineOf i) m.after c pc { phase := .busy pc .start, latches := L } =
      .next (w.setClient c { phase := .busy (pc + 1) .start, latches := L }) := by
  have hp : (!(pc + 1 == (seqOf s.cfg i).length) && m.after == .proceed) = true := by
    have hp := seq_where h.step
    rcases ha with ha | ⟨b, ha⟩ | ⟨src, ha⟩ <;> rwa [wherePred, ha] at hp
  obtain ⟨hlast, hafter⟩ := Bool.and_eq_true_iff.mp hp
  rw [eq_of_beq hafter]
  exact settle_plain (hw ▸ notLast h (by simpa using hlast))

theorem Stands.client?_setClient (h : Stands s c i pc L m) {w : State} (hw : w.clients = s.clients) (q : Sequencer) :
    (w.setClient c q).client? c = some q :=
  State.client?_setClient_self w q (hw ▸ State.client?_lt h.here)

/-- What a run turn keeps, said of the client that stands at a step. -/
theorem Stands.others (h : Stands s c i pc L m) {t : State} (ht : exec i s = .next t) : OthersKept s t c :=
  (runTurnFrame s t c i h.now ht).1

theorem Stands.exec_acquire (h : Stands s c i pc L m) (ha : m.act = .acquire) : exec i s =
    if s.lock = .free then .next ((s.acquire c).setClient c { phase := .busy (pc + 1) .start, latches := L })
    else .next s := by
  rw [stands_exec h, State.perform, ha]
  simp only [h.settle_next (Or.inl ha) (State.acquire_cfg s c)]

theorem Stands.exec_command (h : Stands s c i pc L m) {b : Byte} (ha : m.act = .command b) : exec i s =
    .next ((s.portOut c .command b).setClient c { phase := .busy (pc + 1) .start, latches := L }) := by
  rw [stands_exec h, State.perform, ha]
  exact h.settle_next (Or.inr (Or.inl ⟨b, ha⟩)) rfl

/-- The byte of an argument is there: no step faults in a state that meets the invariant. -/
theorem Stands.exec_argument (h : Stands s c i pc L m) {src : Source} (ha : m.act = .argument src) :
    ∃ b, src.byte L = .ok b ∧ exec i s =
      .next ((s.portOut c .data b).setClient c { phase := .busy (pc + 1) .start, latches := L }) := by
  obtain ⟨t, ht⟩ := h.exec_next
  have hperform := ht
  rw [stands_exec h, State.perform, ha] at hperform
  obtain ⟨b, hb, hsettle⟩ := attempt_next hperform
  refine ⟨b, hb, ht.trans ?_⟩
  rw [← hsettle]
  exact h.settle_next (Or.inr (Or.inr ⟨src, ha⟩)) rfl

end

/-- Settles O31: `Stands.exec_acquire` is the step, and of the events that change the lock (O52) the holder's release is
the one that finds it held. -/
theorem acquireStep : Obligations.AcquireStep := by
  refine ⟨fun s c pc L i m h ha => ⟨fun hfree => ?taken, fun d hheld => ?disabled⟩, fun s t d hlife hheld hstep hne => ?freed⟩
  case taken =>
    have ht := (h.exec_acquire ha).trans (if_pos hfree)
    exact ⟨_, ht, rfl, rfl, h.client?_setClient rfl _, rfl, rfl, rfl, rfl, h.others ht⟩
  case disabled => exact (h.exec_acquire ha).trans (if_neg (by rw [hheld]; nofun))
  case freed =>
    obtain ⟨c, hn, ⟨hfree, -, -⟩ | ⟨hheld', hfree, htrace⟩⟩ := lockChangesOnlyByItsSteps s t hlife hstep hne
    · cases hheld.symm.trans hfree
    · cases hheld.symm.trans hheld'
      exact ⟨hn, hfree, htrace⟩

/-- Settles O33: `Stands.exec_command` and `Stands.exec_argument` are the two steps. -/
theorem portOutStep : Obligations.PortOutStep := by
  refine fun s c pc L i m h => ⟨fun b ha => ?_, fun src ha => ?_⟩
  · have ht := h.exec_command ha
    exact ⟨_, _, ht, rfl, h.client?_setClient rfl _, rfl, rfl, rfl, rfl, rfl, rfl, rfl, h.others ht⟩
  · obtain ⟨b, hb, ht⟩ := h.exec_argument ha
    exact ⟨b, _, _, hb, ht, rfl, h.client?_setClient rfl _, rfl, rfl, rfl, rfl, rfl, rfl, rfl, h.others ht⟩

/-! ## A `Release()` step -/

/-- `t` is `s` with another sequencer of client `c`, whose latches are `L` but for the result, and `scanStatus` aside. -/
def Resequenced (s t : State) (c : Nat) (L : Latches) : Prop :=
  ∃ st p res, t = ({ s with scanStatus := st } : State).setClient c { phase := p, latches := { L with res := res } }

theorem complete_resequenced (s : State) (i : Instr) (c : Nat) (q : Sequencer) (res : Response) :
    Resequenced s (s.complete (routineOf i) c q res) c q.latches :=
  ⟨_, .complete, some res, by rw [State.complete, routineOf_ended_eq]⟩

theorem raise_resequenced (s : State) (i : Instr) (c pc : Nat) (q : Sequencer) (e : Response) :
    Resequenced s (s.raise (routineOf i) c pc q e) c q.latches := by
  unfold State.raise
  split
  · exact ⟨s.scanStatus, _, q.latches.res, rfl⟩
  · exact complete_resequenced s i c q e

theorem goto_resequenced {s t : State} {i : Instr} {c pc : Nat} {q : Sequencer}
    (h : s.goto (routineOf i) c pc q = .next t) : Resequenced s t c q.latches := by
  unfold State.goto at h
  split at h
  · cases h
    exact ⟨s.scanStatus, _, q.latches.res, rfl⟩
  · obtain ⟨v, -, h⟩ := attempt_next h
    cases h
    exact complete_resequenced s i c q _

/-- Internal work that stores no entry changes no state but the sequencer (and `scanStatus` where the operation is over),
and no latch but the result and, in the idle poll's decision, its counter. -/
theorem settle_resequenced {s t : State} {i : Instr} {after : After} {c pc : Nat} {q : Sequencer}
    (hstore : ∀ back, after ≠ .storeEntry back) (h : s.settle (routineOf i) after c pc q = .next t) :
    ∃ sp, Resequenced s t c { q.latches with spoll := sp } ∧
      ((∀ back, after ≠ .checkIdle back) → sp = q.latches.spoll) := by
  unfold State.settle at h
  cases after with
  | proceed => exact ⟨_, goto_resequenced h, fun _ => rfl⟩
  | checkTarget | checkTable =>
    obtain ⟨chk, -, h⟩ := attempt_next h
    refine ⟨_, ?_, fun _ => rfl⟩
    split at h
    · cases h
      exact raise_resequenced s i c pc q _
    · exact goto_resequenced h
  | checkStatus =>
    obtain ⟨status, -, h⟩ := attempt_next h
    refine ⟨_, ?_, fun _ => rfl⟩
    split at h
    · exact goto_resequenced h
    · cases h
      exact raise_resequenced s i c pc q _
  | checkIdle back =>
    obtain ⟨pr, -, h⟩ := attempt_next h
    split at h
    · exact ⟨_, goto_resequenced h, fun _ => rfl⟩
    · obtain ⟨n, -, h⟩ := attempt_next h
      refine ⟨some (n + 1), ?_, fun hne => absurd rfl (hne back)⟩
      split at h
      · cases h
        exact raise_resequenced s i c pc _ _
      · exact goto_resequenced h
  | storeEntry back => exact absurd rfl (hstore back)

/-- After the last step of a sequence the operation ends with success (R129). -/
theorem settle_last {s t : State} {r : Routine} {c pc : Nat} {q : Sequencer} (hl : pc + 1 = (r.seq s.cfg).length)
    (h : s.settle r .proceed c pc q = .next t) : ∃ v, t = s.complete r c q (.ok v) := by
  simp only [State.settle, State.goto, hl, lt_irrefl, if_false] at h
  obtain ⟨v, -, h⟩ := attempt_next h
  cases h
  exact ⟨v, rfl⟩

section
variable {s : State} {c pc : Nat} {L : Latches} {i : Instr} {m : Micro}

theorem Stands.lock_of_release (h : Stands s c i pc L m) (ha : m.act = .release) : s.lock = .held c := by
  have hok := (seq_micro h.step).1
  rw [ha] at hok
  exact (stands_busy h).holds.mpr hok

/-- No entry is stored in a `Release()` step. -/
theorem Stands.after_of_release (h : Stands s c i pc L m) (ha : m.act = .release) (back : Nat) :
    m.after ≠ .storeEntry back := by
  intro hafter
  have hw := seq_where h.step
  rw [wherePred, ha] at hw
  simp only [hafter] at hw
  cases hw

/-- A `Release()` step frees the lock; its internal work is still to do. -/
theorem Stands.exec_release (h : Stands s c i pc L m) (ha : m.act = .release) : exec i s =
    (s.release c).settle (routineOf i) m.after c pc { phase := .busy pc .start, latches := L } := by
  rw [stands_exec h, State.perform, ha]
  exact if_pos (h.lock_of_release ha)

end

/-- A client that is Complete or Idle does not hold the lock. -/
theorem Inv.not_held {s : State} (h : Inv s) {c : Nat} (hp : s.phase? c = some .complete ∨ s.phase? c = some .idle) :
    s.lock ≠ .held c := by
  rcases hp with hp | hp <;> obtain ⟨q, hq, hp⟩ := State.phase?_some hp
  all_goals
    have hok := (h.sequencers c q hq).phase
    rw [PhaseOk, hp] at hok
  · exact hok.1
  · exact hok

/-- Settles O32: the step is `State.release` and then internal work that leaves the latches (`settle_resequenced`); where
that work is only to go on, it leads to the next step (`settle_plain`) or to the end (`settle_last`). -/
theorem releaseStep : Obligations.ReleaseStep := by
  refine ⟨fun s c pc L i m h ha => ⟨h.lock_of_release ha, ?_⟩, fun s c h hp => h.not_held hp⟩
  obtain ⟨t, ht⟩ := h.exec_next
  have hsettle := (h.exec_release ha).symm.trans ht
  obtain ⟨sp, ⟨st, p, res, he⟩, hsp⟩ := settle_resequenced (h.after_of_release ha) hsettle
  have hclient : t.client? c = some { phase := p, latches := { L with spoll := sp, res := res } } :=
    he ▸ h.client?_setClient rfl _
  refine ⟨t, _, ht, he ▸ rfl, he ▸ rfl, hclient, fun l => Latches.read_counters L L.poll sp L.idx l, rfl, rfl, hsp,
    he ▸ rfl, he ▸ rfl, he ▸ rfl, h.others ht, fun hafter hlt => ?next, fun hafter hlast => ?last⟩
  case next =>
    rw [hafter, settle_plain (s := s.release c) hlt] at hsettle
    cases hsettle
    obtain ⟨hp, hL⟩ := Sequencer.mk.inj (Option.some.inj (hclient.symm.trans (h.client?_setClient rfl _)))
    exact ⟨hp, hL, rfl⟩
  case last =>
    rw [hafter] at hsettle
    obtain ⟨v, rfl⟩ := settle_last (s := s.release c) hlast hsettle
    have hended := complete_client? (s.release c) i c { phase := .busy pc .start, latches := L } (.ok v)
      (State.client?_lt h.here)
    obtain ⟨hp, hL⟩ := Sequencer.mk.inj (Option.some.inj (hclient.symm.trans hended))
    exact ⟨hp, v, hL⟩

/-! ## Mutual exclusion on the trace -/

/-- The event is a port event of client `c` (R27). -/
def PortEventOf (c : Nat) (e : Event) : Prop :=
  (∃ p b, e = .input c p b) ∨ (∃ p b, e = .output c p b)

/-- While `c` holds the lock and does not release it, every event that keeps mutual exclusion is a port event of `c`. -/
theorem portEventOf_of_lockAfter {c : Nat} {l : Lock} : ∀ {mid post : List Event},
    lockAfter (.held c) (mid ++ post) = some l → .release c ∉ mid → ∀ e ∈ mid, PortEventOf c e
  | [], _, _, _ => nofun
  | e :: es, post, h, hrel => by
    obtain ⟨he, hes⟩ : PortEventOf c e ∧ lockAfter (.held c) (es ++ post) = some l := by
      cases e <;> rw [List.cons_append, lockAfter] at h <;> split at h
      case acquire.isTrue hfree => cases hfree
      case release.isTrue d hd => cases hd; exact absurd (.head es) hrel
      case input.isTrue d p b hd => cases hd; exact ⟨Or.inl ⟨p, b, rfl⟩, h⟩
      case output.isTrue d p b hd => cases hd; exact ⟨Or.inr ⟨p, b, rfl⟩, h⟩
      all_goals cases h
    exact List.forall_mem_cons.mpr ⟨he, portEventOf_of_lockAfter hes fun hm => hrel (.tail e hm)⟩

/-- Taking the lock finds it free. -/
theorem lockAfter_acquire {l l' : Lock} {c : Nat} {pre es : List Event}
    (h : lockAfter l (pre ++ .acquire c :: es) = some l') : lockAfter (.held c) es = some l' := by
  rw [lockAfter_append] at h
  obtain ⟨l₁, -, h⟩ := Option.bind_eq_some_iff.mp h
  rw [lockAfter] at h
  split at h
  · exact h
  · cases h

/-- A port event appended to the trace is one of the client that holds the lock. -/
theorem Inv.held_of_portEventOf {s t : State} (hs : Inv s) (ht : Inv t) {c : Nat} {e : Event}
    (htrace : t.trace = s.trace ++ [e]) (he : PortEventOf c e) : s.lock = .held c := by
  have h := ht.exclusion
  rw [htrace, lockAfter_append, hs.exclusion, Option.bind_some] at h
  by_contra hne
  rcases he with ⟨p, b, rfl⟩ | ⟨p, b, rfl⟩ <;> rw [lockAfter, if_neg hne] at h <;> cases h

/-- A step that appends a port event is a run turn of the event's client. -/
theorem portEvent_of_step {s t : State} {e : Event} (h : step s = .next t) (htrace : t.trace = s.trace ++ [e])
    (he : isPortEvent e = true) : ∃ c, s.nextTurn = .run c ∧ PortEventOf c e := by
  have hne : t.trace ≠ s.trace := by simp [htrace]
  have heq : ∀ {e'}, t.trace = s.trace ++ [e'] → e = e' := fun h' =>
    List.singleton_inj.mp (List.append_cancel_left (htrace.symm.trans h'))
  rcases step_trace_lock h with ⟨c, hn, hev⟩ | ⟨p, -, rfl⟩ | ⟨hsame, -⟩
  · refine ⟨c, hn, ?_⟩
    rcases hev with ⟨hsame, -⟩ | ⟨hacquire, -⟩ | ⟨hrelease, -⟩ | ⟨-, p, b, -, e', he', hport⟩
    · exact absurd hsame hne
    · cases heq hacquire
      cases he
    · cases heq hrelease
      cases he
    · obtain rfl := heq hport
      exact he'.imp (fun hin => ⟨p, b, hin⟩) fun hout => ⟨p, b, hout⟩
  · rcases s.takeTurn.attach_cases p with ha | ⟨-, ha⟩ | ⟨-, product, ha⟩ <;> rw [ha] at htrace hne
    · exact absurd rfl hne
    · exact absurd rfl hne
    · exact absurd htrace.symm (List.append_ne_nil_of_right_ne_nil _ (List.cons_ne_nil e []))
  · exact absurd hsame hne

/-- Settles O48: the trace up to a state that meets the invariant keeps mutual exclusion (`lockAfter`); and of the steps
only a run turn's appends a port event (`step_trace_lock`), one that keeps it. -/
theorem mutualExclusion : Obligations.MutualExclusion := by
  refine ⟨fun s pre mid post c h htrace hrel => ?between, fun s t e h hstep htrace hport => ?appended⟩
  case between => exact portEventOf_of_lockAfter (lockAfter_acquire (htrace ▸ h.exclusion)) hrel
  case appended =>
    obtain ⟨c, hn, he⟩ := portEvent_of_step hstep htrace hport
    exact ⟨c, hn, h.held_of_portEventOf (h.of_step hstep) htrace he, he⟩

/-! ## The lock's scope by operation -/

/-- A part of a sequence without lock actions (R87, R88, R92). -/
def Lockless (seq : List Micro) : Prop :=
  .acquire ∉ seq.map Micro.act ∧ .release ∉ seq.map Micro.act

@[simp] theorem lockless_nil : Lockless [] := by simp [Lockless]

@[simp] theorem lockless_append {xs ys : List Micro} : Lockless (xs ++ ys) ↔ Lockless xs ∧ Lockless ys := by
  simp only [Lockless, List.map_append, List.mem_append]
  tauto

@[simp] theorem lockless_sendCommand (b : Byte) (x : Option Counter) : Lockless (sendCommand b x) := by
  simp [Lockless, sendCommand]

@[simp] theorem lockless_sendArgument (src : Source) : Lockless (sendArgument src) := by
  simp [Lockless, sendArgument]

@[simp] theorem lockless_receive (ls : List Latch) (after : After) : Lockless (receive ls after) := by
  simp [Lockless, receive]

@[simp] theorem lockless_memRead (k : Config) (addr : Source) (dst : List Latch) (after : After) (x : Option Counter) :
    Lockless (memRead k addr dst after x) := by
  simp [memRead]

@[simp] theorem lockless_memWrite (k : Config) (addr val : Source) : Lockless (memWrite k addr val) := by
  simp [memWrite]

@[simp] theorem lockless_validation (validate : Bool) (also : List Latch) : Lockless (validation validate also) := by
  cases validate <;> simp [validation]

@[simp] theorem lockless_familyRead (opc : Byte) (validate : Bool) : Lockless (familyRead opc validate) := by
  simp [familyRead]

@[simp] theorem lockless_familyWrite (opc : Byte) (validate : Bool) : Lockless (familyWrite opc validate) := by
  simp [familyWrite]

@[simp] theorem lockless_scanBody (k : Config) : Lockless (scanBody k) := by
  simp [scanBody]

/-- A sequence that holds the lock from its first step to its last (R62, R93). -/
def OneSection (seq : List Micro) : Prop :=
  ∃ body, seq = locked body ∧ Lockless body

section
variable {k : Config}

theorem lockless_ramR (hk : k.smbusLockScope = .wholeTransaction) (addr : Byte) (dst : Latch) (after : After)
    (x : Option Counter) : Lockless (ramR k addr dst after x) := by
  simp [ramR, hk]

theorem lockless_ramW (hk : k.smbusLockScope = .wholeTransaction) (addr : Byte) (val : Source) :
    Lockless (ramW k addr val) := by
  simp [ramW, hk]

/-- Under `WholeTransaction` one lock spans the transaction (R108). -/
theorem oneSection_smbTransaction (hk : k.smbusLockScope = .wholeTransaction) (kind : SmbKind) :
    OneSection (smbTransaction kind k) := by
  simp only [smbTransaction, smbScope, hk]
  refine ⟨_, rfl, ?_⟩
  cases kind <;> simp [smbData, smbResult, lockless_ramR hk, lockless_ramW hk]

/-- Every operation but TABLE_READ, and but the SMBus operations under `PerStep`, is one section. -/
theorem oneSection_seqOf {i : Instr} (hread : ∀ index, i ≠ .tableRead index)
    (hsmb : isSmbus i = true → k.smbusLockScope = .wholeTransaction) : OneSection (seqOf k i) := by
  cases i
  case waitIbf | waitObf => exact ⟨_, rfl, by simp [Lockless]⟩
  case ramRead => exact ⟨_, rfl, lockless_memRead ..⟩
  case ramWrite => exact ⟨_, rfl, lockless_memWrite ..⟩
  case acpiRead | gpioStatusRead | gpioDirRead | onekeyRead | oemRead => exact ⟨_, rfl, lockless_familyRead ..⟩
  case acpiWrite | gpioStatusWrite | gpioDirWrite | onekeyWrite | oemWrite => exact ⟨_, rfl, lockless_familyWrite ..⟩
  case adRead => exact ⟨_, rfl, by simp⟩
  case smbReadByte => exact oneSection_smbTransaction (hsmb rfl) .byteRead
  case smbWriteByte => exact oneSection_smbTransaction (hsmb rfl) .byteWrite
  case smbReadWord => exact oneSection_smbTransaction (hsmb rfl) .wordRead
  case tableScan => exact ⟨_, rfl, lockless_scanBody k⟩
  case tableRead index => exact absurd rfl (hread index)

end

theorem OneSection.acts {seq : List Micro} (h : OneSection seq) :
    ∃ body, seq.map Micro.act = .acquire :: (body ++ [.release]) ∧ .acquire ∉ body ∧ .release ∉ body := by
  obtain ⟨body, rfl, hbody⟩ := h
  exact ⟨body.map Micro.act, by simp [locked], hbody⟩

/-- The act is a COMMAND write. -/
def Act.isCommand : Act → Bool
  | .command _ => true
  | _ => false

/-- A succession of sections, each with the lock held and with one COMMAND write (R62). -/
def Sections (seq : List Micro) : Prop :=
  ∃ bodies : List (List Act), seq.map Micro.act = bodies.flatMap (fun body => .acquire :: (body ++ [.release])) ∧
    ∀ body ∈ bodies, .acquire ∉ body ∧ .release ∉ body ∧ (body.filter Act.isCommand).length = 1

theorem sections_nil : Sections [] := ⟨[], rfl, nofun⟩

theorem Sections.append {xs ys : List Micro} (hx : Sections xs) (hy : Sections ys) : Sections (xs ++ ys) := by
  obtain ⟨as, ha, has⟩ := hx
  obtain ⟨bs, hb, hbs⟩ := hy
  refine ⟨as ++ bs, by rw [List.map_append, List.flatMap_append, ha, hb], fun body hbody => ?_⟩
  exact (List.mem_append.mp hbody).elim (has body) (hbs body)

theorem sections_single {body : List Micro} {last : Micro} (hbody : Lockless body)
    (hcommand : ((body.map Micro.act).filter Act.isCommand).length = 1) (hlast : last.act = .release) :
    Sections ({ act := .acquire } :: (body ++ [last])) := by
  refine ⟨[body.map Micro.act], by simp [hlast], fun b hb => ?_⟩
  obtain rfl := List.mem_singleton.mp hb
  exact ⟨hbody.1, hbody.2, hcommand⟩

section
variable {k : Config} (hk : k.smbusLockScope = .perStep)
include hk

theorem sections_ramR (addr : Byte) (dst : Latch) (after : After) (x : Option Counter) :
    Sections (ramR k addr dst after x) := by
  simp only [ramR, hk]
  exact sections_single (lockless_memRead ..) rfl rfl

theorem sections_ramW (addr : Byte) (val : Source) : Sections (ramW k addr val) := by
  simp only [ramW, hk]
  exact sections_single (lockless_memWrite ..) rfl rfl

theorem sections_smbData : ∀ kind, Sections (smbData k kind)
  | .byteWrite => sections_ramW hk ..
  | .byteRead | .wordRead => sections_nil

theorem sections_smbResult : ∀ kind, Sections (smbResult k kind)
  | .byteRead => sections_ramR hk ..
  | .wordRead => (sections_ramR hk ..).append (sections_ramR hk ..)
  | .byteWrite => sections_nil

/-- Under `PerStep` each RAM access of a transaction is a section of its own (R108). -/
theorem sections_smbTransaction (kind : SmbKind) : Sections (smbTransaction kind k) := by
  simp only [smbTransaction, smbScope, hk]
  have hw := sections_ramW hk
  have hr := sections_ramR hk
  exact (hw _ _).append (hw _ _) |>.append (hw _ _) |>.append (sections_smbData hk kind) |>.append (hw _ _)
    |>.append (hr _ _ _ _) |>.append (hr _ _ _ _) |>.append (sections_smbResult hk kind)

end

/-- Settles O55: every sequence but TABLE_READ's is one section (`oneSection_seqOf`) or, for the SMBus operations under
`PerStep`, a succession of them (`sections_smbTransaction`). -/
theorem lockScopes : Obligations.LockScopes := by
  refine fun k i => ⟨?read, fun hread hscope => ?one, fun hk hsmb => ?many⟩
  case read =>
    rintro index rfl
    rfl
  case one =>
    refine (oneSection_seqOf hread fun hi => ?_).acts
    rcases hscope with hk | ⟨hrb, hrw, hwb⟩
    · exact hk
    · cases i
      case smbReadByte => cases hrb _ _ _ rfl
      case smbReadWord => cases hrw _ _ _ rfl
      case smbWriteByte => cases hwb _ _ _ _ rfl
      all_goals cases hi
  case many =>
    rcases hsmb with ⟨_, _, _, rfl⟩ | ⟨_, _, _, rfl⟩ | ⟨_, _, _, _, rfl⟩
    · exact sections_smbTransaction hk .byteRead
    · exact sections_smbTransaction hk .wordRead
    · exact sections_smbTransaction hk .byteWrite

end Sys2Proof.Machine
end

section
/-!
PROOFS, family 30_encoding. Descriptors and the operation map (O1 to O5), the issue of a request (O6, O9, O10), the response
word (O42) and the assembly syntax (O59).
-/
namespace Sys2Proof.Machine
open Sys2Proof.Laws.Encoding (packReq_and)

/-! ## A descriptor and its five bytes (R68) -/

theorem toNat_byte_append {n : Nat} (b : Byte) (x : BitVec n) : (b ++ x).toNat = b.toNat * 2 ^ n + x.toNat := by
  rw [BitVec.toNat_append, ← Nat.shiftLeft_add_eq_or_of_lt x.isLt, Nat.shiftLeft_eq]

theorem toNat_packReq (op a0 a1 a2 a3 : Byte) : (packReq op a0 a1 a2 a3).toNat =
    a3.toNat * 2 ^ 32 + (a2.toNat * 2 ^ 24 + (a1.toNat * 2 ^ 16 + (a0.toNat * 2 ^ 8 + op.toNat))) := by
  unfold packReq
  iterate 4 rw [toNat_byte_append]

@[simp] theorem reqBytes_packReq (op a0 a1 a2 a3 : Byte) : reqBytes (packReq op a0 a1 a2 a3) = [op, a0, a1, a2, a3] := by
  simp only [reqBytes, List.cons.injEq, ← BitVec.toNat_inj, BitVec.extractLsb'_toNat, toNat_packReq,
    Nat.shiftRight_eq_div_pow, and_true]
  omega

theorem packReq_fields (w : Req) : packReq (w.extractLsb' 0 8) (w.extractLsb' 8 8) (w.extractLsb' 16 8)
    (w.extractLsb' 24 8) (w.extractLsb' 32 8) = w := by
  rw [← BitVec.toNat_inj, toNat_packReq]
  simp only [BitVec.extractLsb'_toNat, Nat.shiftRight_eq_div_pow]
  omega

theorem exists_packReq (w : Req) : ∃ op a0 a1 a2 a3, w = packReq op a0 a1 a2 a3 :=
  ⟨_, _, _, _, _, (packReq_fields w).symm⟩

theorem packReq_inj {op a0 a1 a2 a3 op' a0' a1' a2' a3' : Byte} :
    packReq op a0 a1 a2 a3 = packReq op' a0' a1' a2' a3' ↔ op = op' ∧ a0 = a0' ∧ a1 = a1' ∧ a2 = a2' ∧ a3 = a3' := by
  refine ⟨fun h => ?_, fun ⟨h, h0, h1, h2, h3⟩ => by rw [h, h0, h1, h2, h3]⟩
  simpa using congrArg reqBytes h

@[simp] theorem decodeReq_packReq (op a0 a1 a2 a3 : Byte) :
    decodeReq (packReq op a0 a1 a2 a3) = decodeFields op a0 a1 a2 a3 := by
  rw [decodeReq, reqBytes_packReq, decode]
  cases decodeFields op a0 a1 a2 a3 <;> rfl

theorem decodeFields_eq_ok_iff {op a0 a1 a2 a3 : Byte} {i : Instr} :
    decodeFields op a0 a1 a2 a3 = .ok i ↔ [op, a0, a1, a2, a3] = encode i := by
  refine ⟨fun h => (decodeFields_encode h).symm, fun h => ?_⟩
  simp only [encode, List.cons.injEq] at h
  obtain ⟨rfl, rfl, rfl, rfl, rfl, -⟩ := h
  exact decodeFields_opcode i

/-- Settles O2: every descriptor is five bytes packed, and bytes decode to `i` exactly where they are those of `i`. -/
theorem descriptorIsItsEncoding : Obligations.DescriptorIsItsEncoding := by
  intro w i
  obtain ⟨op, a0, a1, a2, a3, rfl⟩ := exists_packReq w
  rw [decodeReq_packReq, decodeFields_eq_ok_iff, encodeReq, packReq_inj]
  simp [encode]

/-! ## Decoding a byte stream (R76) -/

theorem decode_eq_ok {bytes rest : List Byte} {i : Instr} (h : decode bytes = .ok (i, rest)) :
    ∃ op a0 a1 a2 a3, bytes = op :: a0 :: a1 :: a2 :: a3 :: rest ∧ decodeFields op a0 a1 a2 a3 = .ok i := by
  unfold decode at h
  split at h
  · rename_i op a0 a1 a2 a3 tail
    cases hd : decodeFields op a0 a1 a2 a3 <;> rw [hd] at h <;> cases h
    exact ⟨op, a0, a1, a2, a3, rfl, hd⟩
  all_goals cases h

/-- Settles O1: `decode` reads five bytes, and these are the bytes of what they decode to. -/
theorem decodeEncodeAgree : Obligations.DecodeEncodeAgree := by
  refine ⟨fun i rest => ?forth, fun bytes rest i h => ?back⟩
  case forth => exact congrArg (Except.map (·, rest)) (decodeFields_opcode i)
  case back =>
    obtain ⟨op, a0, a1, a2, a3, rfl, hd⟩ := decode_eq_ok h
    rw [decodeFields_encode hd]
    rfl

/-! ## The rows of the operation map (R72, R73) -/

theorem pattern_eq_packReq (j : Instr) : j.pattern = packReq j.opcode 0 0 0 0 := by
  rw [← packReq_fields j.pattern, packReq_inj]
  unfold Instr.pattern
  generalize j.opcode = op
  revert op
  decide

/-- The byte of a row's mask at operand `k`, where the row has `n` operands: it covers the operand where that is reserved. -/
def operandMask (n k : Nat) : Byte :=
  if k < n then 0 else 0xFF

theorem and_operandMask_eq_zero {a : Byte} {n k : Nat} : a &&& operandMask n k = 0 ↔ k < n ∨ a = 0 := by
  unfold operandMask
  split <;> rename_i h
  · simp [h]
  · have hall : a &&& 0xFF = a := BitVec.and_allOnes
    rw [hall]
    simp [h]

/-- A row's mask covers `op` and the operands that `argumentsOf` leaves out. -/
theorem mask_eq_packReq (j : Instr) : j.mask = packReq 0xFF (operandMask (argumentsOf j).length 0)
    (operandMask (argumentsOf j).length 1) (operandMask (argumentsOf j).length 2) (operandMask (argumentsOf j).length 3) := by
  cases j <;> simp only [Instr.mask, argumentsOf, List.length] <;> decide

/-- The operand bytes that an operation's row reserves are zero. -/
def ReservedZero (j : Instr) (a0 a1 a2 a3 : Byte) : Prop :=
  ([a0, a1, a2, a3].drop (argumentsOf j).length).all (· == 0) = true

theorem reservedZero_iff {j : Instr} {a0 a1 a2 a3 : Byte} : ReservedZero j a0 a1 a2 a3 ↔
    (0 < (argumentsOf j).length ∨ a0 = 0) ∧ (1 < (argumentsOf j).length ∨ a1 = 0) ∧
    (2 < (argumentsOf j).length ∨ a2 = 0) ∧ (3 < (argumentsOf j).length ∨ a3 = 0) := by
  obtain ⟨-, -, hle⟩ := mnemonic_plain j
  unfold ReservedZero
  generalize (argumentsOf j).length = n at hle ⊢
  interval_cases n <;> simp

/-- A descriptor matches a row exactly where it has its `op` and zeros in its reserved bytes (R73). -/
theorem matches_row_iff {j : Instr} {op a0 a1 a2 a3 : Byte} :
    packReq op a0 a1 a2 a3 &&& j.mask = j.pattern ↔ op = j.opcode ∧ ReservedZero j a0 a1 a2 a3 := by
  have hop : op &&& 0xFF = op := BitVec.and_allOnes
  rw [mask_eq_packReq, packReq_and, hop, pattern_eq_packReq, packReq_inj, reservedZero_iff]
  simp only [and_operandMask_eq_zero]

/-- With the `op` of a row, the decoder answers an operation of that row once it has looked at the reserved bytes. -/
theorem decodeFields_row (j : Instr) (a0 a1 a2 a3 : Byte) : ∃ i,
    decodeFields j.opcode a0 a1 a2 a3 = reserving ([a0, a1, a2, a3].drop (argumentsOf j).length) i ∧
    i.opcode = j.opcode := by
  cases j <;> exact ⟨_, rfl, rfl⟩

theorem decodeFields_of_reservedZero {j : Instr} {a0 a1 a2 a3 : Byte} (h : ReservedZero j a0 a1 a2 a3) :
    ∃ i, decodeFields j.opcode a0 a1 a2 a3 = .ok i ∧ i.opcode = j.opcode := by
  obtain ⟨i, hd, ho⟩ := decodeFields_row j a0 a1 a2 a3
  exact ⟨i, hd.trans (if_pos h), ho⟩

theorem decodeFields_of_not_reservedZero {j : Instr} {a0 a1 a2 a3 : Byte} (h : ¬ ReservedZero j a0 a1 a2 a3) :
    decodeFields j.opcode a0 a1 a2 a3 = .error .reservedOperand := by
  obtain ⟨i, hd, -⟩ := decodeFields_row j a0 a1 a2 a3
  exact hd.trans (if_neg h)

/-- Settles O3: matching a row is having its `op` and its zeros (`matches_row_iff`), which is what the decoder asks for. -/
theorem descriptorSelectsItsRow : Obligations.DescriptorSelectsItsRow := by
  refine ⟨fun w i h => ?own, fun w j h => ?row, fun w i j hi hj => ?unique⟩
  all_goals obtain ⟨op, a0, a1, a2, a3, rfl⟩ := exists_packReq w
  case own =>
    rw [(descriptorIsItsEncoding _ i).mp h, encodeReq, matches_row_iff]
    by_contra hz
    cases (decodeFields_opcode i).symm.trans (decodeFields_of_not_reservedZero fun hr => hz ⟨rfl, hr⟩)
  case row =>
    obtain ⟨rfl, hz⟩ := matches_row_iff.mp h
    rw [decodeReq_packReq]
    exact decodeFields_of_reservedZero hz
  case unique => exact (matches_row_iff.mp hi).1.symm.trans (matches_row_iff.mp hj).1

theorem decodeFields_of_reservedOp {op : Byte} (h : ∀ i : Instr, i.opcode ≠ op) (a0 a1 a2 a3 : Byte) :
    decodeFields op a0 a1 a2 a3 = .error (.reservedOp op) := by
  have hrows : ∀ r ∈ rowInstrs, op.toNat ≠ r.opcode.toNat := fun r _ e => h r (BitVec.eq_of_toNat_eq e.symm)
  simp only [rowInstrs, BitVec.ofNat_eq_ofNat, List.cons_append, List.nil_append, List.mem_cons, List.not_mem_nil, or_false,
    Instr.opcode, ne_eq, forall_eq_or_imp, BitVec.toNat_ofNat, Nat.reducePow, Nat.one_mod, Nat.reduceMod,
    forall_eq] at hrows
  simp [decodeFields, hrows]

/-- Settles O4: the decoder names the reserved `op` or the reserved operand, and `step` then only sets the mark. -/
theorem illegalDescriptorsAreRefused : Obligations.IllegalDescriptorsAreRefused :=
  ⟨fun _ a0 a1 a2 a3 h => decodeFields_of_reservedOp h a0 a1 a2 a3,
    fun _ _ _ _ _ h => decodeFields_of_not_reservedZero fun hz => h (matches_row_iff.mpr ⟨rfl, hz⟩),
    fun _ _ _ _ => step_of_undecoded⟩

/-- Settles O5: each of the nine descriptors is decoded. -/
theorem writtenDescriptorsDecode : Obligations.WrittenDescriptorsDecode := by
  unfold Obligations.WrittenDescriptorsDecode
  decide

/-! ## The issue of a request (R75) -/

/-- Settles O6: `step` dispatches on the turn it has just taken. -/
theorem stepIssuesTheDecodedRequest : Obligations.StepIssuesTheDecodedRequest := fun _ _ _ _ hn hd =>
  ⟨by simp only [step, State.takeTurn_now, hn, hd], hn⟩

theorem exec_of_request {s : State} {c : Nat} {w : Req} (hn : s.now = .request c w) (i : Instr) :
    exec i s = .next (s.issue i (routineOf i) c) := by
  simp only [exec_eq_operate, operate, hn]

/-- What an operation's own routine asks of its issue: items 4 and 5 of R75. -/
theorem routineOf_admits_iff (i : Instr) (s : State) : (routineOf i).admits s = true ↔
    (∀ index, i = .tableRead index → index.toNat < s.cfg.nTbl) ∧
    (i = .tableScan → s.scanStatus = .notRun ∨ s.scanStatus = .failed) := by
  cases i
  case tableRead index => simp [routineOf, tableReadRoutine]
  case tableScan => simp [routineOf, tableScanRoutine, scanAdmitted]
  all_goals exact iff_of_true rfl ⟨nofun, nofun⟩

/-- The model's test at the issue of what a descriptor decodes to is R75's. -/
theorem admits_iff {s : State} {c : Nat} {w : Req} {i : Instr} (hd : decodeReq w = .ok i) : Admits s c w i ↔
    s.life = .attached ∧ s.phase? c = some .idle ∧ (routineOf i).admits s = true := by
  rw [routineOf_admits_iff]
  exact ⟨fun h => ⟨h.life, h.idle, h.index, h.scan⟩, fun ⟨hl, hi, hx, hs⟩ => ⟨hl, hi, hd, hx, hs⟩⟩

theorem routineOf_issued_eq (i : Instr) (s : State) : (routineOf i).issued s =
    { s with
      scanStatus := if i = .tableScan then .running else s.scanStatus
      table := if i = .tableScan then List.replicate s.cfg.nTbl .undefined else s.table } := by
  cases i <;> rfl

theorem Admits.issue {s : State} {c : Nat} {w : Req} {i : Instr} (h : Admits s c w i) : s.issue i (routineOf i) c =
    ((routineOf i).issued s).setClient c { phase := .busy 0 .start, latches := .ofRequest i } :=
  if_pos ((admits_iff h.decodes).mp h)

theorem issue_of_not_admits {s : State} {c : Nat} {w : Req} {i : Instr} (hd : decodeReq w = .ok i)
    (h : ¬ Admits s c w i) : s.issue i (routineOf i) c = s.markRefused :=
  if_neg (mt (admits_iff hd).mpr h)

/-- Nothing that R75 asks for depends on the schedule. -/
theorem admits_takeTurn {s : State} {c : Nat} {w : Req} {i : Instr} : Admits s.takeTurn c w i ↔ Admits s c w i :=
  ⟨fun ⟨hl, hi, hd, hx, hs⟩ => ⟨hl, hi, hd, hx, hs⟩, fun ⟨hl, hi, hd, hx, hs⟩ => ⟨hl, hi, hd, hx, hs⟩⟩

theorem Admits.lt {s : State} {c : Nat} {w : Req} {i : Instr} (h : Admits s c w i) : c < s.clients.length := by
  obtain ⟨q, hq, -⟩ := State.phase?_some h.idle
  exact State.client?_lt hq

theorem step_of_not_admits {s : State} {c : Nat} {w : Req} (hn : s.nextTurn = .request c w)
    (h : ∀ i, ¬ Admits s c w i) : step s = .next s.takeTurn.markRefused := by
  cases hd : decodeReq w with
  | error e => exact step_of_undecoded hn hd
  | ok i => rw [step_of_decoded hn hd, issue_of_not_admits hd (mt admits_takeTurn.mp (h i))]

/-- Settles O10: the issue step of the operation's routine, whose own part is `routineOf_issued_eq`. -/
theorem issueAnswersNext : Obligations.IssueAnswersNext := by
  intro i s c hn ha
  rw [exec_of_request hn, ha.issue, routineOf_issued_eq]
  split <;> rfl

/-- The fields that the issue of a decoded operation latches are the descriptor's own bytes (R68). -/
theorem encode_eq_reqBytes {w : Req} {i : Instr} (hd : decodeReq w = .ok i) : encode i = reqBytes w := by
  rw [(descriptorIsItsEncoding w i).mp hd, encodeReq, reqBytes_packReq]
  rfl

/-- Settles O9: admitted, the step is the issue step (`Admits.issue`), and else it only sets the mark. -/
theorem admissionOfRequests : Obligations.AdmissionOfRequests := by
  refine fun s c w hn => ⟨fun i ha => ?_, step_of_not_admits hn⟩
  have hstep := step_of_decoded hn ha.decodes
  rw [(admits_takeTurn.mpr ha).issue, routineOf_issued_eq] at hstep
  have hbytes := encode_eq_reqBytes ha.decodes
  simp only [encode, reqBytes, List.cons.injEq] at hbytes
  obtain ⟨hop, h0, h1, h2, h3, -⟩ := hbytes
  refine ⟨_, .ofRequest i, hstep, State.client?_setClient_self _ _ ha.lt, congrArg some hop, congrArg some h0,
    congrArg some h1, congrArg some h2, congrArg some h3, rfl, rfl, rfl, rfl, rfl, rfl, ?frame⟩
  exact ⟨rfl, rfl, rfl, rfl, rfl, rfl, rfl, rfl, fun d hd => State.client?_setClient_ne _ _ hd⟩

/-! ## The response word (R69, R121) -/

theorem Response.word_kind (r : Response) : r.word.extractLsb' 0 8 = r.kind := BitVec.extractLsb'_append_eq_right

theorem Response.word_value (r : Response) : r.word.extractLsb' 8 32 = r.value := BitVec.extractLsb'_append_eq_left

theorem Response.kind_le (r : Response) : r.kind.toNat ≤ 4 := by cases r <;> simp [Response.kind]

/-- Settles O42: the two fields of a response word are its kind and its value. -/
theorem responseWords : Obligations.ResponseWords := by
  unfold Obligations.ResponseWords
  simp only [Response.word_kind, Response.word_value]
  exact ⟨fun _ => ⟨rfl, rfl⟩, ⟨rfl, rfl⟩, ⟨rfl, rfl⟩, fun _ => ⟨rfl, rfl⟩, ⟨rfl, rfl⟩, Response.kind_le⟩

/-! ## The assembly syntax (R77) -/

/-- Settles O59: the text is split into mnemonic and operands as it was printed (`readRequest_printed`), and these
assemble to the operation (`assemble_mnemonic`). -/
theorem requestTextReadsBack : Obligations.RequestTextReadsBack := by
  intro i
  obtain ⟨hne, hplain, hargs⟩ := mnemonic_plain i
  exact (readRequest_printed _ _ hne hplain hargs).trans (assemble_mnemonic i)

end Sys2Proof.Machine
end

section
/-!
PROOFS, family 40_port_primitives. The two waits as operations (O14, O15, O16), one status read of a wait (O39), that no
other turn changes a running operation (O54), and the handshake discipline (O46).
-/
namespace Sys2Proof.Machine

/-! ## The two waits as operations (R78 to R80, R85, R86) -/

section
variable {s : State} {c : Nat} (hwf : s.cfg.wf = true) (ht : s.table.length = s.cfg.nTbl) (hr : Ready s c)
include hwf ht hr

theorem waitIbf_ends (reads : List Byte) : EndsOrTimesOut s .waitIbf c [.acquire, .ibf reads, .release] (.ok 0) :=
  endsOrTimesOut_of_locked (ms := [.ibf reads]) nofun nofun hwf ht hr (says_zero (says_locked (says_waitIbf reads)))

theorem waitObf_ends (reads : List Byte) : EndsOrTimesOut s .waitObf c [.acquire, .obf reads, .release] (.ok 0) :=
  endsOrTimesOut_of_locked (ms := [.obf reads]) nofun nofun hwf ht hr (says_zero (says_locked (says_waitObf reads)))

end

/-- Settles O14: the pseudocode, a `WaitIBF()` in the lock, says these moves, and the machine's run makes them. -/
theorem waitIbfRuns : Obligations.WaitIbfRuns :=
  ⟨rfl, rfl, fun _ _ reads hwf ht hr => waitIbf_ends hwf ht hr reads⟩

/-- Settles O15: the pseudocode, a `WaitOBF()` in the lock, says these moves, and the machine's run makes them. -/
theorem waitObfRuns : Obligations.WaitObfRuns :=
  ⟨rfl, rfl, fun _ _ reads hwf ht hr => waitObf_ends hwf ht hr reads⟩

theorem waitDone_of_last {k : Config} {done : Byte → Bool} {reads : List Byte} {last : Byte}
    (hlast : reads = reads.dropLast ++ [last]) (hlen : reads.length ≤ k.maxPoll)
    (hfail : ∀ b ∈ reads.dropLast, done b = false) (hdone : done last = true) : waitDone k done reads = true := by
  have hget : reads.getLast? = some last := by rw [hlast, List.getLast?_concat]
  simpa [waitDone, hget, hdone, hlen] using hfail

theorem waitLate_of_all {k : Config} {done : Byte → Bool} {reads : List Byte} (hlen : reads.length = k.maxPoll)
    (hfail : ∀ b ∈ reads, done b = false) : waitLate k done reads = true := by
  simpa [waitLate, hlen] using hfail

/-- The move `m` is a wait that makes the status reads `reads`, where `allowed`. -/
structure Move.Polls (k : Config) (c : Nat) (reads : List Byte) (allowed : Bool) (m : Move) : Prop where
  answers : m.answers = reads
  events : m.events k c = reads.map (.input c k.portCmd)
  ok : m.ok k = allowed

/-- An operation that is one wait in the lock makes the status reads of that wait and the two lock events. -/
theorem EndsWith.wait_counts {s : State} {i : Instr} {c : Nat} {m : Move} {reads rest : List Byte} {allowed : Bool}
    {res : Response} {table : List Entry} {scan : ScanStatus}
    (h : EndsWith s i c [.acquire, m, .release] res table scan) (hm : m.Polls s.cfg c reads allowed)
    (hok : allowed = true) (hs : s.script = reads ++ rest) :
    ∃ t, performs i c (reads.length + 2) s = .next t ∧ t.script = rest ∧ t.result? c = some res ∧
      t.trace = s.trace ++ [.acquire c] ++ reads.map (.input c s.cfg.portCmd) ++ [.release c] := by
  have hans : answersOf [.acquire, m, .release] = reads := (List.append_nil _).trans hm.answers
  have hev : eventsOf s.cfg c [.acquire, m, .release] =
      .acquire c :: (reads.map (.input c s.cfg.portCmd) ++ [.release c]) :=
    congrArg (fun es => Event.acquire c :: (es ++ [Event.release c])) hm.events
  have hall : [.acquire, m, .release].all (Move.ok s.cfg) = true := congrArg (· && true) (hm.ok.trans hok)
  obtain ⟨t, hrun, htrace, hscript, -, hres, -⟩ := h rest (by rw [hans, hs]) hall
  exact ⟨t, by simpa [hev] using hrun, hscript, hres, by simpa [hev] using htrace⟩

/-- Settles O16: the moves of either wait, as it succeeds and as it runs out, are its status reads, one event each. -/
theorem waitReadCounts : Obligations.WaitReadCounts := by
  intro s c reads rest i done hi hwf ht hr hs
  obtain ⟨m, late, ⟨hends, hlates⟩, hout, hm, hlate⟩ : ∃ m late, EndsOrTimesOut s i c [.acquire, m, .release] (.ok 0) ∧
      RunsOut [.acquire, m, .release] [.acquire, late] ∧ m.Polls s.cfg c reads (waitDone s.cfg done reads) ∧
      late.Polls s.cfg c reads (waitLate s.cfg done reads) := by
    rcases hi with ⟨rfl, rfl⟩ | ⟨rfl, rfl⟩
    · exact ⟨.ibf reads, .lateIbf reads, waitIbf_ends hwf ht hr reads,
        ⟨[.acquire], [.release], reads, reads, Or.inl ⟨rfl, rfl⟩⟩, ⟨rfl, rfl, rfl⟩, ⟨rfl, rfl, rfl⟩⟩
    · exact ⟨.obf reads, .lateObf reads, waitObf_ends hwf ht hr reads,
        ⟨[.acquire], [.release], reads, reads, Or.inr ⟨rfl, rfl⟩⟩, ⟨rfl, rfl, rfl⟩, ⟨rfl, rfl, rfl⟩⟩
  refine ⟨fun last hlast hlen hfail hdone => ?success, fun hlen hfail => ?late⟩
  case success => exact hends.wait_counts hm (waitDone_of_last hlast hlen hfail hdone) hs
  case late =>
    rw [← hlen]
    exact (hlates _ hout).wait_counts hlate (waitLate_of_all hlen hfail) hs

/-! ## One status read of a wait (R78 to R81) -/

/-- A Busy client of a state that meets the invariant stands where its operation's sequence says. -/
theorem Inv.busyOk {s : State} (h : Inv s) {c pc : Nat} {stage : Stage} {q : Sequencer} {i : Instr}
    (hq : s.client? c = some q) (hp : q.phase = .busy pc stage) (ho : q.latches.operation = some i) :
    BusyOk s c q.latches i pc stage := by
  have hok := (h.sequencers c q hq).phase
  rw [PhaseOk, hp] at hok
  obtain ⟨j, hb⟩ := hok
  cases hb.operation.symm.trans ho
  exact hb

/-- The sequencer after a status read at step `pc` of a wait for `done`, with `n` failed reads before it. -/
def State.polled (s : State) (pc n : Nat) (L : Latches) (done : Byte → Bool) : Sequencer :=
  if done (s.answer .command) then { phase := .busy (pc + 1) .start, latches := { L with poll := some n } }
  else
    { phase := .busy pc (if n + 1 = s.cfg.maxPoll then .abort .timeout else .again)
      latches := { L with poll := some (n + 1) } }

theorem pollStep_eq_polled {s : State} {r : Routine} {c pc n : Nat} {q : Sequencer} {stage : Stage}
    (hl : s.lock = .held c) (hpc : pc + 1 < (r.seq s.cfg).length)
    (hn : (stage = .start ∧ n = 0) ∨ (stage = .again ∧ q.latches.poll = some n)) (done : Byte → Bool) :
    s.pollStep r .proceed c pc q stage done =
      .next ((s.portIn c .command).setClient c (s.polled pc n q.latches done)) := by
  have hcount : (if stage = .again then q.latches.count .poll else .ok 0) = .ok n := by
    rcases hn with ⟨rfl, rfl⟩ | ⟨rfl, hp⟩
    · rfl
    · simp [Latches.count, Latches.readCounter, hp]
  have hsettle := fun q => settle_plain (s := s.portIn c .command) (r := r) (c := c) (pc := pc) (q := q) hpc
  have hraise := fun q e => raise_held (s := s.portIn c .command) (r := r) (c := c) (pc := pc) (q := q) (e := e) hl
  simp only [State.pollStep, State.polled, hcount, attempt, hsettle, hraise]
  split
  · rfl
  · split <;> rfl

theorem poll_starting {L : Latches} {n : Nat} (h : L.poll = some n) (x : Option Counter) :
    (L.starting x).poll = some n := by
  rcases x with _ | _ | _ | _ <;> simp [Latches.starting, Latches.start, h]

/-- The first status read of the idle poll is that of the `RamR` of `SMBUS_PROTOCOL` (R109, R110). -/
theorem memRead_prefix_of_poll {k : Config} {i : Instr} (hi : isSmbus i = true) :
    ∃ after, memRead k (.const k.smbusProtocol) [.pr] after (some .spoll) <+:
      (seqOf k i).drop (pollAt k.smbusLockScope i - pollStart k.smbusLockScope) := by
  obtain ⟨_, _, _, _, _, _, scope⟩ := k
  cases i
  case smbReadByte | smbWriteByte | smbReadWord =>
    cases scope
    · exact ⟨.proceed, List.prefix_iff_eq_take.mpr rfl⟩
    · exact ⟨.checkIdle 5, List.prefix_iff_eq_take.mpr rfl⟩
  all_goals cases hi

theorem scanBody_prefix (k : Config) : scanBody k <+: (seqOf k .tableScan).drop 1 :=
  List.prefix_append _ _

/-- Where a counter starts (R109, R118). -/
theorem starting_cases {k : Config} {i : Instr} {pc : Nat} {m : Micro} (hm : (seqOf k i)[pc]? = some m) (L : Latches) :
    (m.starts = none ∧ L.starting m.starts = L) ∨
    (m.starts = some .spoll ∧ L.starting m.starts = { L with spoll := some (L.spoll.getD 0) } ∧
      ∃ after, memRead k (.const k.smbusProtocol) [.pr] after (some .spoll) <+: (seqOf k i).drop pc) ∨
    (m.starts = some .idx ∧ L.starting m.starts = { L with idx := some (L.idx.getD 0) } ∧ i = .tableScan ∧
      scanBody k <+: (seqOf k i).drop pc) := by
  have hd := seq_decision hm
  simp only [decisionOk, Bool.and_eq_true] at hd
  obtain ⟨-, hstart⟩ := hd
  rcases hx : m.starts with _ | _ | _ | _ <;> simp only [hx, Bool.and_eq_true, beq_iff_eq, decide_eq_true_eq] at hstart
  · exact Or.inl ⟨rfl, rfl⟩
  · cases hstart
  · obtain ⟨hi, rfl⟩ := hstart
    exact Or.inr (Or.inl ⟨rfl, rfl, memRead_prefix_of_poll hi⟩)
  · obtain ⟨rfl, rfl⟩ := hstart
    exact Or.inr (Or.inr ⟨rfl, rfl, rfl, scanBody_prefix k⟩)

/-- A wait has no internal work, is never an operation's last step, and has the lock held (R62). -/
theorem seq_wait {k : Config} {i : Instr} {pc : Nat} {m : Micro} (hm : (seqOf k i)[pc]? = some m)
    (ha : m.act = .waitIbf ∨ m.act = .waitObf) :
    m.after = .proceed ∧ pc + 1 < (seqOf k i).length ∧ heldBefore (seqOf k i) pc = true := by
  have hlt := (List.getElem?_eq_some_iff.mp hm).1
  have hw := seq_where hm
  have hok := (seq_micro hm).1
  rcases ha with ha | ha
  all_goals
    simp only [wherePred, actOk, ha, Bool.and_eq_true, Bool.not_eq_true', beq_iff_eq, beq_eq_false_iff_ne] at hw hok
    obtain ⟨hlast, hafter⟩ := hw
    exact ⟨hafter, by omega, hok⟩

/-- A turn of a client that waits is a status read. -/
theorem advance_wait {s : State} {c pc : Nat} {stage : Stage} {L : Latches} {i : Instr} {m : Micro} {done : Byte → Bool}
    (hq : s.client? c = some { phase := .busy pc stage, latches := L }) (hm : (seqOf s.cfg i)[pc]? = some m)
    (hstage : stage = .start ∨ stage = .again)
    (ha : (m.act = .waitIbf ∧ done = ibfClear) ∨ (m.act = .waitObf ∧ done = obfSet)) :
    s.advance (routineOf i) c =
      s.pollStep (routineOf i) m.after c pc { phase := .busy pc stage, latches := L.starting m.starts } stage done := by
  have hm' : ((routineOf i).seq s.cfg)[pc]? = some m := hm
  have hperform : s.perform (routineOf i) m c pc { phase := .busy pc stage, latches := L } stage =
      s.pollStep (routineOf i) m.after c pc { phase := .busy pc stage, latches := L.starting m.starts } stage done := by
    rcases ha with ⟨ha, rfl⟩ | ⟨ha, rfl⟩ <;> rw [State.perform, ha]
  rcases hstage with rfl | rfl <;> simp only [State.advance, hq, hm', hperform]

/-- Settles O39: the step is the status read of `State.polled`, from the latches in which its counter, if any, has
started (`starting_cases`). -/
theorem statusReadStep : Obligations.StatusReadStep := by
  intro s c pc n stage L i m done hI hn hq ho hm ha hstage
  obtain ⟨hafter, hpc, hheld⟩ := seq_wait hm (ha.imp And.left And.left)
  have hlock : s.lock = .held c := (hI.busyOk hq rfl ho).holds.mpr hheld
  have hexec : exec i s =
      .next ((s.portIn c .command).setClient c (s.polled pc n (L.starting m.starts) done)) := by
    simp only [exec_eq_operate, operate, hn]
    rw [advance_wait hq hm (hstage.imp And.left And.left) ha, hafter]
    exact pollStep_eq_polled hlock hpc (hstage.imp_right fun ⟨h, hp⟩ => ⟨h, poll_starting hp _⟩) done
  refine ⟨_, _, _, starting_cases hm L, hexec, rfl, State.client?_setClient_self _ _ (State.client?_lt hq), rfl, rfl, rfl,
    rfl, rfl, (runTurnFrame s _ c i hn hexec).1, fun hd => ?success, fun hd => ?failure⟩
  all_goals
    simp only [State.polled, hd]
    exact ⟨rfl, rfl⟩

/-! ## No other turn changes a running operation (R82) -/

/-- A detach with a client Busy is refused (R141). -/
theorem State.detach_of_busy {s : State} {c pc : Nat} {stage : Stage} (h : s.phase? c = some (.busy pc stage)) :
    s.detach = s.markRefused := by
  obtain ⟨q, hq, hp⟩ := State.phase?_some h
  refine if_neg fun ⟨_, _, hidle⟩ => ?_
  have hqi : (q.phase == .idle) = true := List.all_eq_true.mp hidle q (List.mem_of_getElem? hq)
  rw [hp] at hqi
  cases hqi

/-- Settles O54: by the cases of a step; a request and a collect are of a client that is not Busy, and the host's turns
are refused while one is. -/
theorem noCancellation : Obligations.NoCancellation := by
  intro s t c pc stage hI hbusy hne h
  obtain ⟨q, hq, -⟩ := State.phase?_some hbusy
  rcases step_cases h with ⟨d, p, p', i, hn, hp, -, hT⟩ | rfl | ⟨_, _, -, rfl, -⟩ | ⟨d, w, i, -, -, ha, rfl⟩ |
    ⟨d, L, r, -, hd, rfl⟩ | ⟨p, -, rfl⟩ | ⟨-, rfl⟩
  · have hcd : c ≠ d := fun e => hne (e ▸ hn)
    exact (hT.kept (s := s.takeTurn) hp).others.clients c hcd
  · rfl
  · rfl
  · have hcd : c ≠ d := fun e => by cases hbusy.symm.trans (e ▸ ha.idle)
    rw [State.client?_setClient_ne _ _ hcd]
    exact congrArg (·[c]?) (issued_frame i s.takeTurn).1
  · have hcd : c ≠ d := fun e => by
      subst e
      rw [State.phase?, hd] at hbusy
      cases hbusy
    exact State.client?_setClient_ne s.takeTurn _ hcd
  · rw [State.attach_attached (s := s.takeTurn) (hI.mid hq).attached]
    rfl
  · rw [State.detach_of_busy (s := s.takeTurn) hbusy]
    rfl

/-! ## The handshake discipline (R83) -/

/-- The sequencer `q` of client `c` may take its next step with `last` as the trace's last event (R83). -/
def Prepared (k : Config) (last : Option Event) (c : Nat) (q : Sequencer) : Prop :=
  ∀ pc stage i m, q.phase = .busy pc stage → (∀ e, stage ≠ .abort e) → q.latches.operation = some i →
    (seqOf k i)[pc]? = some m → m.act.ready k c last = true

theorem handshakeInv_iff {s : State} : HandshakeInv s ↔ handshake s.cfg none s.trace = true ∧
    ∀ c q, s.client? c = some q → Prepared s.cfg s.trace.getLast? c q :=
  ⟨fun h => ⟨h.kept, fun c q hq pc stage i m => h.next c q pc stage i m hq⟩,
    fun ⟨hk, hn⟩ => ⟨hk, fun c q pc stage i m hq => hn c q hq pc stage i m⟩⟩

/-- The sequencer is not Busy, or an error is raised and only the `Release()` is left (R127). -/
def Sequencer.Ending (q : Sequencer) : Prop :=
  q.phase = .idle ∨ q.phase = .complete ∨ ∃ pc e, q.phase = .busy pc (.abort e)

theorem Sequencer.Ending.prepared {k : Config} {last : Option Event} {c : Nat} {q : Sequencer} (h : q.Ending) :
    Prepared k last c q := by
  intro pc stage i m hp hna
  rcases h with h | h | ⟨pc', e, h⟩ <;> cases h.symm.trans hp
  exact absurd rfl (hna e)

/-- No operation begins with a port write or a DATA read. -/
theorem prepared_issued (k : Config) (last : Option Event) (c : Nat) (L : Latches) :
    Prepared k last c { phase := .busy 0 .start, latches := L } := by
  intro pc stage i m hp _ _ hm
  cases hp
  have hok := seq_hs k i
  simp only [hsOk, Bool.and_eq_true, hm, hsPred] at hok
  refine ready_of ⟨fun h => ?_, fun h => ?_⟩ <;> simp [h] at hok

/-- A port write or a DATA read is made with the lock held (R62). -/
theorem prepared_of_not_held {s : State} (hI : Inv s) {c : Nat} {q : Sequencer} (hq : s.client? c = some q)
    (hl : s.lock ≠ .held c) (last : Option Event) : Prepared s.cfg last c q := by
  intro pc stage i m hp _ ho hm
  have hheld : heldBefore (seqOf s.cfg i) pc = false :=
    Bool.eq_false_iff.mpr fun h => hl ((hI.busyOk hq hp ho).holds.mpr h)
  have hok := (seq_micro hm).1
  cases ha : m.act with
  | acquire | waitIbf | waitObf | release | lookup => rfl
  | command | response => simp [ha, actOk, hheld] at hok
  | argument src => cases src <;> simp [ha, actOk, hheld] at hok

/-- A step that changes neither configuration nor trace, and leaves or prepares each sequencer. -/
theorem HandshakeInv.of_sequencers {s t : State} (h : HandshakeInv s) (hcfg : t.cfg = s.cfg) (htrace : t.trace = s.trace)
    (hseq : ∀ c q, t.client? c = some q → s.client? c = some q ∨ Prepared s.cfg s.trace.getLast? c q) :
    HandshakeInv t := by
  obtain ⟨hkept, hnext⟩ := handshakeInv_iff.mp h
  rw [handshakeInv_iff, hcfg, htrace]
  exact ⟨hkept, fun c q hq => (hseq c q hq).elim (hnext c q) id⟩

theorem client?_of_set {s t : State} {c d : Nat} {q q₀ : Sequencer} (ht : t.clients = s.clients.set c q)
    (h : t.client? d = some q₀) : (d ≠ c ∧ s.client? d = some q₀) ∨ (d = c ∧ q₀ = q) := by
  simp only [State.client?, ht] at h
  by_cases hd : d = c
  · subst hd
    rw [List.getElem?_set_self'] at h
    obtain ⟨_, -, rfl⟩ := Option.map_eq_some_iff.mp h
    exact Or.inr ⟨rfl, rfl⟩
  · rw [List.getElem?_set_ne (Ne.symm hd)] at h
    exact Or.inl ⟨hd, h⟩

theorem HandshakeInv.set {s t : State} (h : HandshakeInv s) {c : Nat} {q : Sequencer} (hcfg : t.cfg = s.cfg)
    (htrace : t.trace = s.trace) (ht : t.clients = s.clients.set c q) (hq : Prepared s.cfg s.trace.getLast? c q) :
    HandshakeInv t :=
  h.of_sequencers hcfg htrace fun d q₀ hd => by
    rcases client?_of_set ht hd with ⟨-, hs⟩ | ⟨rfl, rfl⟩
    · exact Or.inl hs
    · exact Or.inr hq

theorem HandshakeInv.attach {s : State} (h : HandshakeInv s) (p : Option String) : HandshakeInv (s.attach p) := by
  rcases s.attach_cases p with e | ⟨-, e⟩ | ⟨-, product, e⟩ <;> rw [e]
  · exact h.of_sequencers rfl rfl fun _ _ => Or.inl
  · exact h
  · exact (handshakeInv_attached s.cfg product).of_sequencers rfl rfl fun _ _ => Or.inl

theorem HandshakeInv.detach {s : State} (h : HandshakeInv s) : HandshakeInv s.detach := by
  rcases s.detach_cases with e | ⟨-, e⟩ <;> rw [e]
  · exact h.of_sequencers rfl rfl fun _ _ => Or.inl
  · exact h.of_sequencers rfl rfl fun c q hq => by cases (client?_of_nil rfl c).symm.trans hq

/-! ## A run turn and the handshake -/

/-- A status read may follow anything. -/
theorem handshakeStep_status {k : Config} (hk : k.wf = true) (prev : Option Event) (c : Nat) (b : Byte) :
    handshakeStep k prev (.input c k.portCmd b) = true := by
  simp only [Config.wf, Config.portsOk, Bool.and_eq_true, decide_eq_true_eq] at hk
  obtain ⟨⟨⟨-, ⟨hports, -⟩, -⟩, -⟩, -⟩ := hk
  exact if_neg hports

/-- A turn from `s` to `t` appends nothing to the trace, or an event that may follow (R83). -/
def HandshakeTurn (s t : State) : Prop :=
  t.trace = s.trace ∨ ∃ e, t.trace = s.trace ++ [e] ∧ handshakeStep s.cfg s.trace.getLast? e = true

theorem Acted.handshake {s w : State} {c : Nat} {m : Micro} {q q1 : Sequencer} (h : Acted s w c m q q1)
    (hk : s.cfg.wf = true) (hready : m.act.ready s.cfg c s.trace.getLast? = true) : HandshakeTurn s w := by
  rcases h.event with ⟨ht, -⟩ | ⟨ht, -⟩ | ⟨ht, -⟩ | ⟨-, ⟨b, ht⟩, x, ha⟩ | ⟨-, ⟨b, ht⟩, x, ha⟩ | ⟨-, ⟨b, ht⟩, x, ha⟩ |
    ⟨-, b, ht, -⟩
  · exact Or.inl ht
  · exact Or.inr ⟨_, ht, rfl⟩
  · exact Or.inr ⟨_, ht, rfl⟩
  · rw [ha] at hready
    exact Or.inr ⟨_, ht, hready⟩
  · rw [ha] at hready
    exact Or.inr ⟨_, ht, hready⟩
  · rw [ha] at hready
    exact Or.inr ⟨_, ht, hready⟩
  · exact Or.inr ⟨_, ht, handshakeStep_status hk _ _ _⟩

theorem raise_ending {s : State} {i : Instr} {c pc : Nat} {q q' : Sequencer} {e : Response} (hc : c < s.clients.length)
    (h : (s.raise (routineOf i) c pc q e).client? c = some q') : q'.Ending := by
  unfold State.raise at h
  split at h
  · cases (State.client?_setClient_self _ _ hc).symm.trans h
    exact Or.inr (Or.inr ⟨pc, e, rfl⟩)
  · cases (complete_client? s i c q e hc).symm.trans h
    exact Or.inr (Or.inl rfl)

/-- A run turn's event comes while no other client holds the lock (R57). -/
theorem EvOk.not_held {s t : State} {c : Nat} (h : EvOk s t c) (hs : Inv s) (ht : Inv t) {d : Nat} (hd : d ≠ c) :
    t.trace = s.trace ∨ s.lock ≠ .held d := by
  have hheld : ∀ {l : Lock}, l = .free ∨ l = .held c → l ≠ .held d := by
    rintro l (rfl | rfl) h <;> cases h
    exact hd rfl
  rcases h with ⟨h, -⟩ | ⟨-, h, -⟩ | ⟨-, h, -⟩ | ⟨-, p, b, -, e, he, htrace⟩
  · exact Or.inl h
  · exact Or.inr (hheld (Or.inl h))
  · exact Or.inr (hheld (Or.inr h))
  · exact Or.inr (hheld (Or.inr (hs.held_of_portEventOf ht htrace
      (he.imp (fun h => ⟨p, b, h⟩) fun h => ⟨p, b, h⟩))))

section
variable {s t : State} {i : Instr} {c : Nat} {q q' : Sequencer}

/-- The event of a run turn keeps the discipline where the client was prepared, and the client is prepared again. -/
theorem Turned.handshake (h : Turned s t i c q q') (hk : s.cfg.wf = true) (hq : s.client? c = some q)
    (ho : q.latches.operation = some i) (hp : Prepared s.cfg s.trace.getLast? c q) :
    HandshakeTurn s t ∧ Prepared s.cfg t.trace.getLast? c q' := by
  have hq' := (h.kept hq).self hq
  have hop := h.operation.trans ho
  cases h with
  | idle h he =>
    subst h he
    exact ⟨Or.inl rfl, hp⟩
  | aborted pc e _ _ h he =>
    refine ⟨Or.inr ⟨.release c, ?_, rfl⟩, Sequencer.Ending.prepared (Or.inr (Or.inl (by rw [he])))⟩
    rw [h, State.complete, routineOf_ended_eq]
    rfl
  | performed pc stage m hphase hna hm h =>
    cases h with
    | held h he =>
      subst h he
      exact ⟨Or.inl rfl, hp⟩
    | acted w q1 hs ha =>
      rw [HandshakeTurn, hs.tl.1]
      refine ⟨ha.handshake hk (hp pc stage i m hphase hna ho hm), ?_⟩
      rcases hs.phase with ⟨hc, -⟩ | ⟨-, -, ⟨e, habort⟩ | ⟨pc', hnext, -, hpc⟩⟩
      · exact Sequencer.Ending.prepared (Or.inr (Or.inl hc))
      · exact Sequencer.Ending.prepared (Or.inr (Or.inr ⟨pc, e, habort⟩))
      · intro _ _ i' m' hp' _ ho' hm'
        cases hnext.symm.trans hp'
        cases hop.symm.trans ho'
        exact hs_next hm hm' ha hpc
    | late b w hw hb ha hl hcases =>
      subst hw
      have hstatus : ∀ u : State, u.trace = (s.portIn c .command).trace → HandshakeTurn s u :=
        fun u hu => Or.inr ⟨_, hu, handshakeStep_status hk _ c _⟩
      rcases hcases with ⟨hagain, -, rfl⟩ | ⟨L, -, hs, e, hraise⟩
      · refine ⟨hstatus _ rfl, ?_⟩
        intro _ _ i' m' hp' _ ho' hm'
        cases hagain.symm.trans hp'
        cases hop.symm.trans ho'
        cases hm.symm.trans hm'
        rcases ha with ⟨ha, -⟩ | ⟨ha, -⟩ <;> rw [ha] <;> rfl
      · exact ⟨hstatus t hs.tl.1, (raise_ending (s := s.portIn c .command) (State.client?_lt hq) (hraise ▸ hq')).prepared⟩

theorem Turned.handshakeInv (h : Turned s t i c q q') (hI : Inv s) (hI' : Inv t) (hH : HandshakeInv s)
    (hq : s.client? c = some q) (ho : q.latches.operation = some i) : HandshakeInv t := by
  obtain ⟨hkept, hnext⟩ := handshakeInv_iff.mp hH
  have hturn := h.kept hq
  obtain ⟨hevent, hself⟩ := h.handshake hI.config hq ho (hnext c q hq)
  rw [handshakeInv_iff, hturn.cfg]
  refine ⟨?kept, fun d q₀ hd => ?next⟩
  case kept =>
    rcases hevent with htrace | ⟨e, htrace, he⟩ <;> rw [htrace]
    · exact hkept
    · rw [handshake_none, hkept, he]
      rfl
  case next =>
    rcases client?_of_set hturn.clients hd with ⟨hne, hs⟩ | ⟨rfl, rfl⟩
    · rcases h.ev.not_held hI hI' hne with htrace | hlock
      · rw [htrace]
        exact hnext d q₀ hs
      · exact prepared_of_not_held hI hs hlock _
    · exact hself

end

/-- Settles O46: by the cases of a step; a run turn by `Turned.handshake` for its own client, and by the lock for the
others, of which none makes a port access next. -/
theorem stepsKeepTheHandshake : Obligations.StepsKeepTheHandshake := by
  intro s t hI hH h
  have hturn : HandshakeInv s.takeTurn := hH.of_sequencers rfl rfl fun _ _ => Or.inl
  rcases step_cases h with ⟨c, q, q', i, -, hq, ho, hT⟩ | rfl | ⟨_, _, -, rfl, -⟩ | ⟨c, w, i, -, -, -, rfl⟩ |
    ⟨c, L, r, -, -, rfl⟩ | ⟨p, -, rfl⟩ | ⟨-, rfl⟩
  · exact hT.handshakeInv hI.takeTurn (hI.of_step h) hturn hq ho
  · exact hturn
  · exact hturn.of_sequencers rfl rfl fun _ _ => Or.inl
  · obtain ⟨hclients, htrace, hcfg, -⟩ := issued_frame i s.takeTurn
    exact hturn.set hcfg htrace (by rw [State.setClient_clients, hclients]) (prepared_issued _ _ _ _)
  · exact hturn.set rfl rfl rfl (Sequencer.Ending.prepared (Or.inl rfl))
  · exact hturn.attach p
  · exact hturn.detach

end Sys2Proof.Machine
end

section
/-!
PROOFS, family 41_ram_accessor. The accessors without a validation byte: the four reads (O17) and the four writes (O18).
`MemRead` and `MemWrite` are the unvalidated accesses of R92 with the RAM opcodes, so that one argument serves each four.
-/
namespace Sys2Proof.Machine

/-! ## The RAM accesses as family accesses (R87, R88, R92) -/

theorem Pseudo.memRead_eq_familyRead (k : Config) (c : Nat) (addr : Byte) :
    Pseudo.memRead k c addr = Pseudo.familyRead k c k.opRamRead addr false := by
  simp only [Pseudo.memRead, Pseudo.familyRead, Pseudo.validation, Bool.false_eq_true, if_false, Pseudo.pure_bind']

theorem Pseudo.memWrite_eq_familyWrite (k : Config) (c : Nat) (addr val : Byte) :
    Pseudo.memWrite k c addr val = Pseudo.familyWrite k c k.opRamWrite addr val false := by
  simp only [Pseudo.memWrite, Pseudo.familyWrite, Pseudo.validation, Bool.false_eq_true, if_false, Pseudo.pure_bind']

/-! ## The accessors issued and run (R89, R90, R96, R97, R104 to R107) -/

section
variable {s : State} {c : Nat} {i : Instr} {opc tgt b val : Byte} {w1 w2 w3 : List Byte}
  (hread : ∀ index, i ≠ .tableRead index) (hscan : i ≠ .tableScan)
  (hwf : s.cfg.wf = true) (ht : s.table.length = s.cfg.nTbl) (hr : Ready s c)
include hread hscan hwf ht hr

theorem familyRead_ends
    (hop : Pseudo.operation s.cfg c i = Pseudo.zext (Pseudo.locked c (Pseudo.familyRead s.cfg c opc tgt false))) :
    EndsOrTimesOut s i c
      [.acquire, .ibf w1, .command opc, .ibf w2, .argument tgt, .obf w3, .response b, .release]
      (.ok (b.setWidth 32)) := by
  have hsays := says_zext (says_locked (says_familyRead (k := s.cfg) (c := c) opc tgt w1 w2 w3 b))
  rw [← hop] at hsays
  exact endsOrTimesOut_of_locked hread hscan hwf ht hr hsays

theorem familyWrite_ends
    (hop : Pseudo.operation s.cfg c i = Pseudo.zero (Pseudo.locked c (Pseudo.familyWrite s.cfg c opc tgt val false))) :
    EndsOrTimesOut s i c
      [.acquire, .ibf w1, .command opc, .ibf w2, .argument tgt, .ibf w3, .argument val, .release] (.ok 0) := by
  have hsays := says_zero (says_locked (says_familyWrite (k := s.cfg) (c := c) opc tgt val w1 w2 w3))
  rw [← hop] at hsays
  exact endsOrTimesOut_of_locked hread hscan hwf ht hr hsays

end

/-- Settles O17: the pseudocode of each is `familyRead_ends`' locked access with the opcode of its family. -/
theorem uncheckedReadsRun : Obligations.UncheckedReadsRun := by
  intro s c i opc addr b w1 w2 w3 hi hwf ht hr
  simp only [List.mem_cons, Prod.mk.injEq, List.not_mem_nil, or_false] at hi
  rcases hi with ⟨rfl, rfl⟩ | ⟨rfl, rfl⟩ | ⟨rfl, rfl⟩ | ⟨rfl, rfl⟩
  case inl =>
    refine familyRead_ends nofun nofun hwf ht hr ?_
    rw [Pseudo.operation, Pseudo.memRead_eq_familyRead]
  all_goals exact familyRead_ends nofun nofun hwf ht hr rfl

/-- Settles O18: the pseudocode of each is `familyWrite_ends`' locked access with the opcode of its family. -/
theorem uncheckedWritesRun : Obligations.UncheckedWritesRun := by
  intro s c i opc addr value w1 w2 w3 hi hwf ht hr
  simp only [List.mem_cons, Prod.mk.injEq, List.not_mem_nil, or_false] at hi
  rcases hi with ⟨rfl, rfl⟩ | ⟨rfl, rfl⟩ | ⟨rfl, rfl⟩ | ⟨rfl, rfl⟩
  case inl =>
    refine familyWrite_ends nofun nofun hwf ht hr ?_
    rw [Pseudo.operation, Pseudo.memWrite_eq_familyWrite]
  all_goals exact familyWrite_ends nofun nofun hwf ht hr rfl

end Sys2Proof.Machine
end

section
/-!
PROOFS, family 42_register_families. The operations with a validation byte (R95): the two GPIO reads (O19), the two GPIO
writes (O20) and AD_READ (O21), each issued and run, and the one step that reads the byte (O35).
-/
namespace Sys2Proof.Machine

/-! ## An operation that its pseudocode ends with an error -/

/-- A lock-scoped operation in which the body of its pseudocode plays the moves between and raises `e`. -/
theorem endsWith_of_raised {s : State} {i : Instr} {c : Nat} {ms : List Move} {e : Response}
    (hread : ∀ index, i ≠ .tableRead index) (hscan : i ≠ .tableScan) (hwf : s.cfg.wf = true)
    (ht : s.table.length = s.cfg.nTbl) (hr : Ready s c)
    (hp : Plays s.cfg c (Pseudo.operation s.cfg c i) (.acquire :: (ms ++ [.release])) (.error e)) :
    EndsWith s i c (.acquire :: (ms ++ [.release])) e s.table s.scanStatus :=
  ends_of_plays hread hscan hwf ht hr hp (lockOf_closed c .free (.acquire :: ms))

theorem isSentinel_of_ne {b : Byte} (h : b ≠ 0xFF) : isSentinel b = false :=
  beq_eq_false_iff_ne.mpr h

/-! ## The GPIO accessors (R92, R98 to R101) -/

/-- Settles O19: the pseudocode of each is the validated read of R92 in the lock, with the opcode of its family. -/
theorem gpioReadsRun : Obligations.GpioReadsRun := by
  intro s c i opc pin chk b w1 w2 w3 w4 hi hwf ht hr
  obtain ⟨hread, hscan, hop⟩ : (∀ index, i ≠ .tableRead index) ∧ i ≠ .tableScan ∧
      Pseudo.operation s.cfg c i = Pseudo.zext (Pseudo.locked c (Pseudo.familyRead s.cfg c opc pin true)) := by
    simp only [List.mem_cons, Prod.mk.injEq, List.not_mem_nil, or_false] at hi
    rcases hi with ⟨rfl, rfl⟩ | ⟨rfl, rfl⟩ <;> exact ⟨nofun, nofun, rfl⟩
  refine ⟨fun hchk => ?valid, ?invalid⟩
  case valid =>
    have hsays := says_zext (says_locked
      (says_validatedRead (k := s.cfg) (c := c) opc pin w1 w2 w3 w4 chk b (isSentinel_of_ne hchk)))
    rw [← hop] at hsays
    exact endsOrTimesOut_of_locked hread hscan hwf ht hr hsays
  case invalid =>
    have hplays := plays_zext (plays_locked (plays_invalidRead (k := s.cfg) (c := c) opc pin w1 w2 w3))
    rw [← hop] at hplays
    exact endsWith_of_raised hread hscan hwf ht hr hplays

/-- Settles O20: the pseudocode of each is the validated write of R92 in the lock, with the opcode of its family. -/
theorem gpioWritesRun : Obligations.GpioWritesRun := by
  intro s c i opc pin value chk w1 w2 w3 w4 hi hwf ht hr
  obtain ⟨hread, hscan, hop⟩ : (∀ index, i ≠ .tableRead index) ∧ i ≠ .tableScan ∧
      Pseudo.operation s.cfg c i = Pseudo.zero (Pseudo.locked c (Pseudo.familyWrite s.cfg c opc pin value true)) := by
    simp only [List.mem_cons, Prod.mk.injEq, List.not_mem_nil, or_false] at hi
    rcases hi with ⟨rfl, rfl⟩ | ⟨rfl, rfl⟩ <;> exact ⟨nofun, nofun, rfl⟩
  refine ⟨fun hchk => ?valid, ?invalid⟩
  case valid =>
    have hsays := says_zero (says_locked
      (says_validatedWrite (k := s.cfg) (c := c) opc pin value w1 w2 w3 w4 chk (isSentinel_of_ne hchk)))
    rw [← hop] at hsays
    exact endsOrTimesOut_of_locked hread hscan hwf ht hr hsays
  case invalid =>
    have hplays := plays_zero (plays_locked (plays_invalidWrite (k := s.cfg) (c := c) opc pin value w1 w2 w3))
    rw [← hop] at hplays
    exact endsWith_of_raised hread hscan hwf ht hr hplays

/-! ## AD_READ (R102, R103) -/

/-- The raw reading of R102 before its upper bits are dropped. -/
theorem adRaw_eq_append (msb lsb : Byte) : (byteValue msb <<< 8) ||| byteValue lsb = (msb ++ lsb).setWidth 32 := by
  ext n hn
  simp only [byteValue, BitVec.getElem_or, BitVec.getElem_shiftLeft, BitVec.getElem_setWidth, BitVec.getLsbD_append]
  by_cases h : n < 8
  · simp [h]
  · simp [h, BitVec.getLsbD_of_ge lsb n (Nat.le_of_not_lt h)]

theorem adValue_eq_ofNat (msb lsb mult : Byte) :
    adValue msb lsb mult = BitVec.ofNat 32 ((msb.toNat * 256 + lsb.toNat) % 1024 * mult.toNat * 100) := by
  have hraw : ((msb ++ lsb).setWidth 32 &&& 0x3FF#32) = BitVec.ofNat 32 ((msb.toNat * 256 + lsb.toNat) % 1024) := by
    apply BitVec.eq_of_toNat_eq
    have hmask : (0x3FF#32).toNat = 2 ^ 10 - 1 := rfl
    rw [BitVec.toNat_and, hmask, Nat.and_two_pow_sub_one_eq_mod, BitVec.toNat_setWidth, toNat_byte_append,
      BitVec.toNat_ofNat]
    omega
  have hmult : byteValue mult = BitVec.ofNat 32 mult.toNat := (BitVec.ofNat_toNat ..).symm
  rw [adValue, adRaw_eq_append, hraw, hmult, BitVec.ofNat_mul, BitVec.ofNat_mul]

/-- Settles O21: the pseudocode of AD_READ in the lock, whose result is the arithmetic of R102 (`adValue_eq_ofNat`). -/
theorem adReadRuns : Obligations.AdReadRuns := by
  intro s c index mult chk lsb msb w1 w2 w3 w4 w5 w6 w7 hwf ht hr
  refine ⟨fun hchk => ?valid, ?invalid⟩
  case valid =>
    rw [← adValue_eq_ofNat]
    exact endsOrTimesOut_of_locked (i := .adRead index mult) nofun nofun hwf ht hr
      (says_locked (says_adRead index mult w1 w2 w3 w4 w5 w6 w7 chk lsb msb (isSentinel_of_ne hchk)))
  case invalid =>
    exact endsWith_of_raised (i := .adRead index mult) nofun nofun hwf ht hr
      (plays_locked (plays_invalidAd index mult w1 w2 w3))

/-! ## The read of a validation byte (R95, R118) -/

/-- A check of `chk` with the lock held and a step left: 0xFF raises its error, any other byte goes on. -/
theorem settle_check {s : State} {r : Routine} {after : After} {c pc : Nat} {q : Sequencer} {e : Response} {b : Byte}
    (hafter : (after = .checkTarget ∧ e = .invalidTarget) ∨ (after = .checkTable ∧ e = .invalidTable))
    (hl : s.lock = .held c) (hpc : pc + 1 < (r.seq s.cfg).length) (hchk : q.latches.chk = some b) :
    s.settle r after c pc q = .next (s.setClient c
      { q with phase := if b = 0xFF then .busy pc (.abort e) else .busy (pc + 1) .start }) := by
  have hneed : q.latches.need .chk = .ok b := by simp only [Latches.need, Latches.read, hchk]
  rcases hafter with ⟨rfl, rfl⟩ | ⟨rfl, rfl⟩
  all_goals
    simp only [State.settle, hneed, attempt, raise_held hl, goto_lt hpc, isSentinel, beq_iff_eq]
    split <;> rfl

section
variable {s : State} {c pc : Nat} {L : Latches} {i : Instr} {m : Micro}

/-- A check is the internal work of the DATA read that latches its byte in `chk`. -/
theorem Stands.response_of_check (h : Stands s c i pc L m) (hafter : m.after = .checkTarget ∨ m.after = .checkTable) :
    ∃ ls, m.act = .response ls ∧ .chk ∈ ls := by
  have hd := seq_decision h.step
  simp only [decisionOk, Bool.and_eq_true] at hd
  obtain ⟨⟨-, hcheck⟩, -⟩ := hd
  cases ha : m.act with
  | response ls =>
    have hboth : pc + 1 < (seqOf s.cfg i).length ∧ .chk ∈ ls := by
      rcases hafter with hafter | hafter <;> simpa [hafter, ha] using hcheck
    exact ⟨ls, rfl, hboth.right⟩
  | acquire | waitIbf | waitObf | command | argument | release | lookup =>
    rcases hafter with hafter | hafter <;> simp [hafter, ha] at hcheck

/-- A DATA read takes the oracle's byte and latches it; its internal work is still to do. -/
theorem Stands.exec_response (h : Stands s c i pc L m) {ls : List Latch} (ha : m.act = .response ls) : exec i s =
    (s.portIn c .data).settle (routineOf i) m.after c pc
      { phase := .busy pc .start, latches := L.writeAll (s.answer .data) ls } := by
  rw [stands_exec h, State.perform, ha]

end

/-- Settles O35: the step is a DATA read that latches `chk`, and then the check of `settle_check`. -/
theorem validationStep : Obligations.ValidationStep := by
  intro s c pc L i m e h hafter
  obtain ⟨ls, ha, hmem⟩ := h.response_of_check (hafter.imp And.left And.left)
  have hchk : (L.writeAll (s.answer .data) ls).chk = some (s.answer .data) :=
    (Latches.read_writeAll L _ ls .chk).trans (if_pos hmem)
  have hlock := h.lock_of_response ha
  have ht := (h.exec_response ha).trans
    (settle_check (s := s.portIn c .data) hafter hlock (h.succ_lt_of_response ha) hchk)
  exact ⟨_, _, ht, h.client?_setClient rfl _, hchk, hlock, rfl, rfl, rfl, h.others ht, rfl⟩

end Sys2Proof.Machine
end

section
/-!
PROOFS, family 43_smbus. The three SMBus operations issued and run under either lock scope (O22, O23, O24), and the two
decisions of a transaction as single steps: the idle poll's (O36) and the status check (O37).
-/
namespace Sys2Proof.Machine

/-! ## The lock after a transaction's moves (R108) -/

section
variable {k : Config} (hk : k.smbusLockScope = .perStep) (c : Nat)
include hk

/-- Under `PerStep` a RAM access leaves the lock free. -/
theorem lockOf_stepMoves (lk : Lock) (body : List Move) : lockOf c lk (stepMoves k body) = .free := by
  simp only [stepMoves, hk]
  exact lockOf_closed c lk (.acquire :: body)

theorem lockOf_pollMoves (reads : List ReadAnswers) : lockOf c .free (pollMoves k reads) = .free := by
  unfold pollMoves
  induction reads with
  | nil => rfl
  | cons a as ih => rw [List.flatMap_cons, lockOf_append, lockOf_stepMoves hk, ih]

theorem lockOf_armMoves (kind : SmbKind) (ch slv reg data : Byte) (a : HeadAnswers) :
    lockOf c .free (armMoves k kind ch slv reg data a) = .free := by
  rw [armMoves, lockOf_append, lockOf_stepMoves hk]

theorem lockOf_headMoves (kind : SmbKind) (ch slv reg data : Byte) (a : HeadAnswers) :
    lockOf c .free (headMoves k kind ch slv reg data a) = .free := by
  rw [headMoves, lockOf_append, lockOf_stepMoves hk]

end

/-- Under `WholeTransaction` the outer lock closes the transaction, whatever its body. -/
theorem lockOf_transactionMoves {k : Config} {c : Nat} {body : List Move}
    (h : k.smbusLockScope = .perStep → lockOf c .free body = .free) :
    lockOf c .free (transactionMoves k body) = .free := by
  unfold transactionMoves
  cases hk : k.smbusLockScope with
  | perStep => exact h hk
  | wholeTransaction => exact lockOf_closed c .free (.acquire :: body)

/-! ## A transaction issued and run (R109 to R112) -/

/-- An operation whose pseudocode is a transaction, whose result cells are read by the moves `cells`. -/
theorem transactionEnds_of_says {s : State} {i : Instr} {c : Nat} {kind : SmbKind} {ch slv reg data : Byte}
    {cells : List Move} {value : Word32} (hread : ∀ index, i ≠ .tableRead index) (hscan : i ≠ .tableScan)
    (hwf : s.cfg.wf = true) (ht : s.table.length = s.cfg.nTbl) (hr : Ready s c)
    (hop : Pseudo.operation s.cfg c i = Pseudo.smbTransaction s.cfg c kind ch slv reg data)
    (hcells : Says s.cfg c (stepClose s.cfg) (Pseudo.smbCells s.cfg c kind) cells value)
    (hlock : s.cfg.smbusLockScope = .perStep → lockOf c .free cells = .free) :
    TransactionEnds s i c kind ch slv reg data cells value := by
  refine fun a => ⟨fun hpolls hst => ?success, fun hpolls hst => ?smbusError, fun hbusy hlen => ?pollTimeout⟩
  case success =>
    refine endsOrTimesOut_of_says hread hscan hwf ht hr ?_ (lockOf_transactionMoves fun hk => ?_)
    · rw [hop]
      exact says_smbTransaction (says_smbSteps ch slv reg data a hpolls hst hcells)
    · rw [lockOf_append, lockOf_headMoves hk, hlock hk]
  case smbusError =>
    refine ends_of_plays (r := .error (.smbusError a.status.value)) hread hscan hwf ht hr ?_
      (lockOf_transactionMoves fun hk => lockOf_headMoves hk ..)
    rw [hop]
    exact plays_smbTransaction (plays_smbError ch slv reg data a hpolls hst)
  case pollTimeout =>
    refine ends_of_plays (r := .error .timeout) hread hscan hwf ht hr ?_ (lockOf_transactionMoves fun hk => ?_)
    · rw [hop]
      exact plays_smbTransaction (plays_smbTimeout ch slv reg data a hbusy hlen)
    · rw [lockOf_append, lockOf_armMoves hk, lockOf_pollMoves hk]

/-- Settles O22: its pseudocode is the transaction that reads one result cell. -/
theorem smbReadByteRuns : Obligations.SmbReadByteRuns := fun _ _ _ _ _ d hwf ht hr =>
  transactionEnds_of_says nofun nofun hwf ht hr rfl (says_byteCells d) fun hk => lockOf_stepMoves hk ..

/-- Settles O23: its pseudocode is the transaction that writes the data cell and reads no result cell. -/
theorem smbWriteByteRuns : Obligations.SmbWriteByteRuns := fun _ _ _ _ _ _ hwf ht hr =>
  transactionEnds_of_says nofun nofun hwf ht hr rfl says_writeCells fun _ => rfl

/-- The cell at offset 0 is the high byte of the word (R47, R115). -/
theorem smbWord_eq_append (d0 d1 : Byte) : smbWord d0 d1 = d0 ++ d1 := by
  rw [smbWord, BitVec.append_def, BitVec.setWidth'_eq, BitVec.shiftLeftZeroExtend_eq]

/-- Settles O24: its pseudocode is the transaction that reads two result cells, whose word is `smbWord_eq_append`. -/
theorem smbReadWordRuns : Obligations.SmbReadWordRuns := by
  intro s c ch slv reg d0 d1 hwf ht hr
  rw [← smbWord_eq_append]
  refine transactionEnds_of_says nofun nofun hwf ht hr rfl (says_wordCells d0 d1) fun hk => ?_
  rw [lockOf_append, lockOf_stepMoves hk]

/-! ## The last step of a `RamR` (R108) -/

theorem Latches.need_of_read {L : Latches} {l : Latch} {b : Byte} (h : L.read l = some b) : L.need l = .ok b := by
  simp only [Latches.need, h]

theorem Latches.count_of_readCounter {L : Latches} {n : Counter} {v : Nat} (h : L.readCounter n = some v) :
    L.count n = .ok v := by
  simp only [Latches.count, h]

/-- `w` is `s` and `L'` are the latches `L` after the act of the last step `m` of a `RamR` whose byte `b` goes to `l`: the
`Release()` under `PerStep`, the DATA read under `WholeTransaction`. -/
structure RamEnded (s w : State) (c : Nat) (L L' : Latches) (m : Micro) (l : Latch) (b : Byte) : Prop where
  decides : DecidesOn s L m l b
  read : L'.read l = some b
  spoll : L'.spoll = L.spoll
  lock : w.lock = scopeLock s.cfg c
  cfg : w.cfg = s.cfg
  clients : w.clients = s.clients

section
variable {s : State} {c pc : Nat} {L : Latches} {i : Instr} {m : Micro}

/-- The last step of a `RamR` has its byte in `l`; its internal work is still to do. -/
theorem Stands.exec_ramEnd (h : Stands s c i pc L m) {l : Latch} (ha : m.act = ramEnd s.cfg.smbusLockScope l)
    (hl : l ∈ writtenBefore (seqOf s.cfg i) (pc + 1)) :
    ∃ b w L', RamEnded s w c L L' m l b ∧
      exec i s = w.settle (routineOf i) m.after c pc { phase := .busy pc .start, latches := L' } := by
  cases hk : s.cfg.smbusLockScope <;> rw [hk] at ha
  case perStep =>
    have hwrites : m.writes = [] := by rw [Micro.writes, ha]; rfl
    rw [writtenBefore_succ h.step, hwrites, List.append_nil] at hl
    obtain ⟨b, hb⟩ := Option.isSome_iff_exists.mp ((stands_busy h).written l hl)
    exact ⟨b, s.release c, L, ⟨Or.inl ⟨hk, ha, hb⟩, hb, rfl, by rw [scopeLock, hk]; rfl, rfl, rfl⟩, h.exec_release ha⟩
  case wholeTransaction =>
    have hread := (Latches.read_writeAll L (s.answer .data) [.v, l] l).trans (if_pos (by simp))
    refine ⟨s.answer .data, s.portIn c .data, _, ⟨Or.inr ⟨hk, ha, rfl⟩, hread, ?_, ?_, rfl, rfl⟩, h.exec_response ha⟩
    · exact Latches.writeAll_counter L _ _ .spoll
    · rw [scopeLock, hk]
      exact h.lock_of_response ha

/-- An SMBus operation touches neither the table nor `scanStatus`. -/
theorem Stands.tables_of_smbus (h : Stands s c i pc L m) (hi : isSmbus i = true) {t : State} (ht : exec i s = .next t) :
    t.table = s.table ∧ t.scanStatus = s.scanStatus :=
  (runTurnFrame s t c i h.now ht).2.2 (by rintro rfl; cases hi)

end

/-! ## The decisions of a transaction -/

section
variable {s w : State} {i : Instr} {c pc : Nat} {q : Sequencer}
  (hlock : w.lock = scopeLock s.cfg c) (hcfg : w.cfg = s.cfg) (hc : c < w.clients.length)
include hlock hc

/-- An error raised by the last step of a `RamR` (R127). -/
theorem raise_endsBy (e : Response) : ∃ q', (w.raise (routineOf i) c pc q e).client? c = some q' ∧
    q'.latches.spoll = q.latches.spoll ∧ EndsBy s (w.raise (routineOf i) c pc q e) c pc q' e := by
  unfold scopeLock at hlock
  unfold EndsBy
  cases hk : s.cfg.smbusLockScope <;> simp only [hk] at hlock ⊢
  case perStep =>
    have hcomplete : w.raise (routineOf i) c pc q e = w.complete (routineOf i) c q e :=
      if_neg (by rw [hlock]; nofun)
    rw [hcomplete]
    refine ⟨_, complete_client? w i c q e hc, rfl, ?_, rfl, rfl⟩
    rw [State.complete, routineOf_ended_eq]
    exact hlock
  case wholeTransaction =>
    rw [raise_held hlock]
    exact ⟨_, State.client?_setClient_self w _ hc, rfl, hlock, rfl⟩

include hcfg

/-- The idle poll's decision on the byte `b` with `n` busy reads behind it (R109, R110). -/
theorem settle_checkIdle {back n : Nat} {b : Byte} (hpr : q.latches.read .pr = some b) (hn : q.latches.spoll = some n)
    (hpc : pc + 1 < (seqOf s.cfg i).length) :
    ∃ t q', w.settle (routineOf i) (.checkIdle back) c pc q = .next t ∧ t.client? c = some q' ∧
      q'.latches.spoll = some (if b = 0x00 then n else n + 1) ∧
      (b = 0x00 → q'.phase = .busy (pc + 1) .start) ∧
      (b ≠ 0x00 → n + 1 < s.cfg.smbMaxPoll → q'.phase = .busy (pc - back) .start) ∧
      (b ≠ 0x00 → n + 1 = s.cfg.smbMaxPoll → EndsBy s t c pc q' .timeout) := by
  have hneed := Latches.need_of_read hpr
  have hcount : q.latches.count .spoll = .ok n := Latches.count_of_readCounter hn
  have hgoto : ∀ pc' ≤ pc + 1, ∀ q₀, w.goto (routineOf i) c pc' q₀ =
      .next (w.setClient c { phase := .busy pc' .start, latches := q₀.latches }) := fun pc' hle q₀ =>
    goto_lt (by rw [hcfg]; exact Nat.lt_of_le_of_lt hle hpc)
  have hself := fun q₀ => State.client?_setClient_self w q₀ hc
  simp only [State.settle, hneed, hcount, attempt, engineIdle, beq_iff_eq, hcfg, hgoto (pc + 1) le_rfl,
    hgoto (pc - back) (by omega)]
  by_cases hb : b = 0x00
  · simp only [if_pos hb]
    exact ⟨_, _, rfl, hself _, hn, fun _ => rfl, fun h => absurd hb h, fun h => absurd hb h⟩
  · by_cases hmax : n + 1 = s.cfg.smbMaxPoll
    · obtain ⟨q', hq', hspoll, hends⟩ := raise_endsBy (i := i) (pc := pc)
        (q := { q with latches := { q.latches with spoll := some (n + 1) } }) hlock hc .timeout
      simp only [if_neg hb, if_pos hmax]
      exact ⟨_, q', rfl, hq', hspoll, fun h => absurd h hb, fun _ h => absurd hmax h.ne, fun _ _ => hends⟩
    · simp only [if_neg hb, if_neg hmax]
      exact ⟨_, _, rfl, hself _, rfl, fun h => absurd h hb, fun _ _ => rfl, fun _ h => absurd h hmax⟩

/-- The decision on the status byte `b` (R111). -/
theorem settle_checkStatus {b : Byte} (hst : q.latches.read .st = some b)
    (hvalue : pc + 1 = (seqOf s.cfg i).length → ∀ L, (routineOf i).value w L = .ok 0)
    (hpc : pc < (seqOf s.cfg i).length) :
    ∃ t q', w.settle (routineOf i) .checkStatus c pc q = .next t ∧ t.client? c = some q' ∧
      (b = 0x80 → pc + 1 < (seqOf s.cfg i).length → q'.phase = .busy (pc + 1) .start) ∧
      (b = 0x80 → pc + 1 = (seqOf s.cfg i).length → q'.phase = .complete ∧ q'.latches.res = some (.ok 0)) ∧
      (b ≠ 0x80 → EndsBy s t c pc q' (.smbusError b)) := by
  have hlen : ((routineOf i).seq w.cfg).length = (seqOf s.cfg i).length := by rw [hcfg]; rfl
  simp only [State.settle, Latches.need_of_read hst, attempt, smbusSuccess, beq_iff_eq]
  by_cases hb : b = 0x80
  · simp only [if_pos hb]
    by_cases hlast : pc + 1 = (seqOf s.cfg i).length
    · have hgoto : w.goto (routineOf i) c (pc + 1) q = .next (w.complete (routineOf i) c q (.ok 0)) := by
        rw [State.goto, hlen, if_neg hlast.not_lt, hvalue hlast]
        rfl
      exact ⟨_, _, hgoto, complete_client? w i c q _ hc, fun _ h => absurd hlast h.ne, fun _ _ => ⟨rfl, rfl⟩,
        fun h => absurd hb h⟩
    · have hgoto := goto_lt (s := w) (r := routineOf i) (c := c) (q := q) (pc := pc + 1) (by omega)
      exact ⟨_, _, hgoto, State.client?_setClient_self w _ hc, fun _ _ => rfl, fun _ h => absurd h hlast,
        fun h => absurd hb h⟩
  · obtain ⟨q', hq', -, hends⟩ := raise_endsBy (i := i) (pc := pc) (q := q) hlock hc (.smbusError b)
    simp only [if_neg hb]
    exact ⟨_, q', rfl, hq', fun h => absurd h hb, fun h => absurd h hb, fun _ => hends⟩

end

/-! ## The idle poll's step (R109, R110) -/

/-- The steps up to the idle poll's decision are the `RamR` of `SMBUS_PROTOCOL`. -/
theorem ramR_of_pollAt {k : Config} {i : Instr} (hi : isSmbus i = true) :
    ((seqOf k i).drop (pollAt k.smbusLockScope i - pollBack k.smbusLockScope)).take (pollBack k.smbusLockScope + 1) =
      ramR k k.smbusProtocol .pr (.checkIdle (pollBack k.smbusLockScope)) (some .spoll) := by
  obtain ⟨_, _, _, _, _, _, scope⟩ := k
  cases i
  case smbReadByte | smbWriteByte | smbReadWord => cases scope <;> rfl
  all_goals cases hi

/-- Where the idle poll's decision stands in a sequence (R109, R110), and what is written and started there. -/
theorem seq_checkIdle {k : Config} {i : Instr} {pc back : Nat} {m : Micro} (hm : (seqOf k i)[pc]? = some m)
    (hafter : m.after = .checkIdle back) :
    isSmbus i = true ∧ m.act = ramEnd k.smbusLockScope .pr ∧ pc + 1 < (seqOf k i).length ∧
      ((seqOf k i).drop (pc - back)).take (back + 1) = ramR k k.smbusProtocol .pr (.checkIdle back) (some .spoll) ∧
      .pr ∈ writtenBefore (seqOf k i) (pc + 1) ∧ .spoll ∈ startedBefore (seqOf k i) pc := by
  have hd := seq_decision hm
  simp only [decisionOk, hafter, Bool.and_eq_true, beq_iff_eq, decide_eq_true_eq] at hd
  obtain ⟨⟨-, ⟨⟨⟨hi, rfl⟩, rfl⟩, hpc⟩, hact⟩, -⟩ := hd
  have hok := (seq_micro hm).2.1
  simp only [hafter, afterOk, Bool.and_eq_true, List.contains_iff_mem] at hok
  obtain ⟨⟨⟨⟨⟨hpr, hspoll⟩, -⟩, -⟩, -⟩, -⟩ := hok
  exact ⟨hi, hact, hpc, ramR_of_pollAt hi, hpr, hspoll⟩

/-- The idle poll's decision finds its counter started and below its bound (R110). -/
theorem BusyOk.spoll_lt {s : State} {c pc back : Nat} {L : Latches} {i : Instr} {m : Micro}
    (h : BusyOk s c L i pc .start) (hm : (seqOf s.cfg i)[pc]? = some m) (hafter : m.after = .checkIdle back) :
    ∃ n, L.spoll = some n ∧ n < s.cfg.smbMaxPoll := by
  obtain ⟨-, -, -, -, -, hstarted⟩ := seq_checkIdle hm hafter
  obtain ⟨n, hn⟩ := Option.isSome_iff_exists.mp (h.started .spoll hstarted)
  have hpolls : pollsFrom (seqOf s.cfg i) pc = true := by rw [pollsFrom_succ hm, hafter]; rfl
  exact ⟨n, hn, h.idling nofun hpolls n hn⟩

/-- Settles O36: the step is the last one of the `RamR` (`Stands.exec_ramEnd`), and then the decision of
`settle_checkIdle`. -/
theorem idlePollStep : Obligations.IdlePollStep := by
  intro s c pc back L i m h hafter
  obtain ⟨hi, hact, hpc, hramR, hpr, -⟩ := seq_checkIdle h.step hafter
  obtain ⟨n, hn, hbound⟩ := (stands_busy h).spoll_lt h.step hafter
  obtain ⟨b, w, L', hw, hexec⟩ := h.exec_ramEnd hact hpr
  rw [hafter] at hexec
  obtain ⟨t, q, hsettle, hq, hdecision⟩ := settle_checkIdle
    (q := { phase := .busy pc .start, latches := L' }) hw.lock hw.cfg (hw.clients ▸ State.client?_lt h.here)
    hw.read (hw.spoll.trans hn) hpc
  have ht := hexec.trans hsettle
  obtain ⟨htable, hscan⟩ := h.tables_of_smbus hi ht
  exact ⟨hramR, b, n, t, q, hw.decides, hn, hbound, ht, hq, htable, hscan, h.others ht, hdecision⟩

/-! ## The status check's step (R111) -/

/-- Where the status check stands in a sequence; it is the last step of none but SMB_WRITE_BYTE's. -/
theorem seq_checkStatus {k : Config} {i : Instr} {pc : Nat} {m : Micro} (hm : (seqOf k i)[pc]? = some m)
    (hafter : m.after = .checkStatus) :
    isSmbus i = true ∧ m.act = ramEnd k.smbusLockScope .st ∧
      (pc + 1 = (seqOf k i).length → rep i = .smbWriteByte 0 0 0 0) ∧ .st ∈ writtenBefore (seqOf k i) (pc + 1) := by
  have hd := seq_decision hm
  simp only [decisionOk, hafter, Bool.and_eq_true, Bool.or_eq_true, beq_iff_eq, decide_eq_true_eq] at hd
  obtain ⟨⟨-, ⟨⟨hi, -⟩, hact⟩, hlast⟩, -⟩ := hd
  have hok := (seq_micro hm).2.1
  simp only [hafter, afterOk, Bool.and_eq_true, List.contains_iff_mem] at hok
  exact ⟨hi, hact, fun hend => hlast.resolve_left hend.not_lt, hok.1⟩

theorem routineOf_value_smbWriteByte {i : Instr} (h : rep i = .smbWriteByte 0 0 0 0) (s : State) (L : Latches) :
    (routineOf i).value s L = .ok 0 := by
  cases i <;> cases h
  rfl

/-- Settles O37: the step is the last one of the `RamR` (`Stands.exec_ramEnd`), and then the decision of
`settle_checkStatus`; where it is the operation's last step, the operation is SMB_WRITE_BYTE, whose value is 0. -/
theorem statusCheckStep : Obligations.StatusCheckStep := by
  intro s c pc L i m h hafter
  obtain ⟨hi, hact, hlast, hst⟩ := seq_checkStatus h.step hafter
  obtain ⟨b, w, L', hw, hexec⟩ := h.exec_ramEnd hact hst
  rw [hafter] at hexec
  obtain ⟨t, q, hsettle, hq, hdecision⟩ := settle_checkStatus
    (q := { phase := .busy pc .start, latches := L' }) hw.lock hw.cfg (hw.clients ▸ State.client?_lt h.here)
    hw.read (fun hend => routineOf_value_smbWriteByte (hlast hend) w) (stands_busy h).position
  have ht := hexec.trans hsettle
  obtain ⟨htable, hscan⟩ := h.tables_of_smbus hi ht
  exact ⟨b, t, q, hw.decides, ht, hq, htable, hscan, h.others ht, hdecision⟩

end Sys2Proof.Machine
end

section
/-!
PROOFS, family 44_table_discovery. TABLE_SCAN issued and run (O25), the step of the scan that stores an entry (O38), and
TABLE_READ (O26).
-/
namespace Sys2Proof.Machine

/-! ## The scan's loop in the lock (R118) -/

/-- The state after client `c` has played `ms` and stored the entries of the slots `as`, index 0 first. -/
def State.fetched (w : State) (c : Nat) (ms : List Move) (as : List SlotAnswers) : State :=
  { w.played c ms with table := setEntries 0 as w.table }

/-- `Plays`, and the entries of `as` are stored. -/
def Fetches {α : Type} (k : Config) (c : Nat) (p : Pseudo.Code α) (ms : List Move) (as : List SlotAnswers)
    (r : Except Response α) : Prop :=
  ∀ (w : State) (L : Latches) (rest : List Byte), w.cfg = k → w.script = answersOf ms ++ rest →
    ms.all (Move.ok k) = true → ∃ L', p (w, L) = (r, (w.fetched c ms as, L'))

section
variable {k : Config} {c : Nat} {ms : List Move} {as : List SlotAnswers}

/-- The loop over all the indices of the table. -/
theorem fetches_scanLoop (hchk : as.all (fun a => !isSentinel a.check) = true) (hlen : as.length = k.nTbl) :
    Fetches k c (Pseudo.scanLoop k c k.nTbl 0) (slotsMoves k 0 as) as (.ok ()) := by
  intro w L rest hk hs hok
  rw [← hlen]
  exact scanLoop_done k c as hchk 0 w L rest hk hs hok

/-- The loop up to the index at which it raises `e`. -/
theorem fetches_scanLoop_error (hchk : as.all (fun a => !isSentinel a.check) = true) (hlen : as.length < k.nTbl)
    {e : Response} (hp : Plays k c (Pseudo.scanOne k c as.length) ms (.error e)) :
    Fetches k c (Pseudo.scanLoop k c k.nTbl 0) (slotsMoves k 0 as ++ ms) as (.error e) := by
  intro w L rest hk hs hok
  obtain ⟨more, hmore⟩ := Nat.exists_eq_add_of_lt hlen
  rw [hmore]
  exact scanLoop_error k c as hchk more 0 ms e (by rwa [Nat.zero_add]) w L rest hk hs hok

theorem Fetches.assign {α : Type} {p : Pseudo.Code α} {r : Except Response α} (hp : Fetches k c p ms as r)
    (f : Latches → Latches) : Fetches k c (do Pseudo.assign f; p) ms as r := fun w L => hp w (f L)

theorem Fetches.locked {α : Type} {p : Pseudo.Code α} {r : Except Response α} (hp : Fetches k c p ms as r) :
    Fetches k c (Pseudo.locked c p) (.acquire :: (ms ++ [.release])) as r := by
  intro w L rest hk hs hok
  have hans : answersOf (.acquire :: (ms ++ [.release])) = answersOf ms := by simp [answersOf, Move.answers]
  rw [hans] at hs
  simp only [List.all_cons, List.all_append, Move.ok, List.all_nil, Bool.true_and, Bool.and_true] at hok
  obtain ⟨L', h⟩ := hp (w.acquire c) L rest hk hs hok
  refine ⟨L', ?_⟩
  simp only [Pseudo.locked, h]
  simp [State.fetched, State.played, State.release, State.acquire, hans, eventsOf, lockOf, lockOf_append, Move.events]

theorem Fetches.zero {p : Pseudo.Code Unit} {r : Except Response Unit} (hp : Fetches k c p ms as r) :
    Fetches k c (Pseudo.zero p) ms as (r.map fun _ => 0) := by
  intro w L rest hk hs hok
  obtain ⟨L', h⟩ := hp w L rest hk hs hok
  refine ⟨L', ?_⟩
  rw [Pseudo.zero, Pseudo.bind_run, h]
  cases r <;> rfl

end

/-! ## The scan issued and run (R116, R118) -/

section
variable {s : State} {c : Nat} (hr : Ready s c)
include hr

/-- The issue makes a new table, so that nothing is asked of the one before (R118). -/
theorem Ready.live_tableScan :
    Live s.cfg .tableScan c (some (none, none)) (s.started .tableScan c) (Latches.ofRequest .tableScan) :=
  started_live (s := { s with table := List.replicate s.cfg.nTbl .undefined }) .tableScan c
    ⟨hr.life, hr.idle, hr.lock⟩ List.length_replicate

variable (hwf : s.cfg.wf = true) (hscan : s.scanStatus = .notRun ∨ s.scanStatus = .failed)
include hwf hscan

/-- The scan ends as its loop does: with the entries that the loop has fetched, and with `scanStatus` by its result. -/
theorem tableScan_ends {ms : List Move} {as : List SlotAnswers} {r : Except Response Unit} (hlen : as.length ≤ s.cfg.nTbl)
    (hp : Fetches s.cfg c (Pseudo.scanLoop s.cfg c s.cfg.nTbl 0) ms as r) :
    EndsWith s .tableScan c (.acquire :: (ms ++ [.release])) (Pseudo.response (r.map fun _ => 0))
      (scannedTable s.cfg as) (endStatus .tableScan (Pseudo.response (r.map fun _ => 0)) s.scanStatus) := by
  intro rest hs hok
  obtain ⟨q, hq, -⟩ := State.phase?_some hr.idle
  have hadmits : (routineOf .tableScan).admits s = true := (routineOf_admits_iff _ s).mpr ⟨nofun, fun _ => hscan⟩
  obtain ⟨n, hn, hrun, htrace⟩ := whole_run (sim_operation hwf .tableScan nofun) _ hr.live_tableScan hr.lock
  obtain ⟨L', hbody⟩ := (hp.assign fun L => { L with idx := some 0 }).locked.zero (s.started .tableScan c)
    (Latches.ofRequest .tableScan) rest rfl hs hok
  rw [← performs_run .tableScan c n hr hadmits hn] at hrun
  simp only [Pseudo.body, hbody] at hrun htrace
  have hsteps : n = (eventsOf s.cfg c (.acquire :: (ms ++ [.release]))).length :=
    Nat.add_left_cancel (htrace.symm.trans List.length_append)
  rw [hsteps, State.complete, routineOf_ended_eq] at hrun
  have hself := fun w q (hw : w.clients = s.clients) => State.client?_setClient_self (c := c) w q (hw ▸ State.client?_lt hq)
  refine ⟨_, hrun, rfl, ?script, ?phase, ?result, lockOf_closed c s.lock (.acquire :: ms), setEntries_scanned s.cfg as hlen,
    rfl, ?frame⟩
  case script => exact (congrArg (List.drop _) hs).trans List.drop_left
  case phase => exact congrArg (Option.map Sequencer.phase) (hself _ _ rfl)
  case result => exact congrArg (Option.bind · (·.latches.res)) (hself _ _ rfl)
  case frame => exact ⟨rfl, rfl, rfl, rfl, rfl, rfl, rfl, rfl, fun d hd => State.client?_setClient_ne _ _ hd⟩

end

/-- Settles O25: the loop fetches every index, or it raises at the first one whose read-back is 0xFF or one of whose waits
runs out. -/
theorem tableScanRuns : Obligations.TableScanRuns := by
  intro s c slots hwf hr hscan hchk
  refine ⟨fun hlen => ?done, fun a hlen ha => ?invalidTable, fun a cut hlen ha hcut => ?timeout⟩
  case done =>
    have hends := tableScan_ends hr hwf hscan hlen.le (fetches_scanLoop hchk hlen)
    have htable : scannedTable s.cfg slots = slots.map SlotAnswers.entry := by simp [scannedTable, hlen]
    rwa [htable] at hends
  case invalidTable =>
    exact tableScan_ends hr hwf hscan hlen.le (fetches_scanLoop_error hchk hlen (plays_scanBad slots.length a ha))
  case timeout =>
    have hlate := (says_scanOne (k := s.cfg) (c := c) slots.length a (isSentinel_of_ne ha)).2 cut hcut
    rw [List.append_nil] at hlate
    exact tableScan_ends hr hwf hscan hlen.le (fetches_scanLoop_error hchk hlen hlate)

/-! ## The step that stores an entry (R118) -/

/-- Where the store stands: at the end of the scan's body, before the `Release()`, with the pin latched and the index
started. -/
theorem seq_storeEntry {k : Config} {i : Instr} {pc back : Nat} {m : Micro} (hm : (seqOf k i)[pc]? = some m)
    (hafter : m.after = .storeEntry back) :
    i = .tableScan ∧ m.act = .response [.dev] ∧ ((seqOf k i).drop (pc - back)).take (back + 1) = scanBody k ∧
      (seqOf k i)[pc + 1]? = some { act := .release } ∧ .pin ∈ writtenBefore (seqOf k i) pc ∧
      .idx ∈ startedBefore (seqOf k i) pc := by
  have hd := seq_decision hm
  simp only [decisionOk, hafter, Bool.and_eq_true, beq_iff_eq, decide_eq_true_eq] at hd
  obtain ⟨⟨-, ⟨⟨rfl, rfl⟩, rfl⟩, hact⟩, -⟩ := hd
  exact ⟨rfl, hact, rfl, rfl, List.contains_iff_mem.mp rfl, List.contains_iff_mem.mp rfl⟩

/-- The store finds the index of an entry (R118). -/
theorem BusyOk.idx_lt {s : State} {c pc back : Nat} {L : Latches} {i : Instr} {m : Micro} (h : BusyOk s c L i pc .start)
    (hm : (seqOf s.cfg i)[pc]? = some m) (hafter : m.after = .storeEntry back) :
    ∃ n, L.idx = some n ∧ n < s.cfg.nTbl := by
  obtain ⟨-, -, -, -, -, hstarted⟩ := seq_storeEntry hm hafter
  obtain ⟨n, hn⟩ := Option.isSome_iff_exists.mp (h.started .idx hstarted)
  have hstores : storesFrom (seqOf s.cfg i) pc = true := by rw [storesFrom_succ hm, hafter]; rfl
  exact ⟨n, hn, h.scanning hstores n hn⟩

/-- The store itself, with a step left after it. -/
theorem settle_storeEntry {s : State} {r : Routine} {c pc back n : Nat} {q : Sequencer} {dev pin : Byte}
    (hdev : q.latches.read .dev = some dev) (hpin : q.latches.read .pin = some pin) (hidx : q.latches.idx = some n)
    (hn : n < s.table.length) (hpc : pc + 1 < (r.seq s.cfg).length) :
    s.settle r (.storeEntry back) c pc q = .next ((s.writeEntry n dev pin).setClient c
      { phase := .busy (if n + 1 < s.cfg.nTbl then pc - back else pc + 1) .start
        latches := { q.latches with idx := some (n + 1) } }) := by
  have hcount : q.latches.count .idx = .ok n := Latches.count_of_readCounter hidx
  simp only [State.settle, Latches.need_of_read hdev, Latches.need_of_read hpin, hcount, attempt, if_pos hn]
  split
  · exact goto_lt (Nat.lt_of_le_of_lt (by omega) hpc)
  · exact goto_lt hpc

/-- Settles O38: the step is a DATA read that latches `dev`, and then the store of `settle_storeEntry`. -/
theorem entryStep : Obligations.EntryStep := by
  intro s c pc back L i m h hafter
  obtain ⟨hi, hact, hbody, hrelease, hwritten, -⟩ := seq_storeEntry h.step hafter
  obtain ⟨n, hn, hbound⟩ := (stands_busy h).idx_lt h.step hafter
  obtain ⟨pin, hpin⟩ := Option.isSome_iff_exists.mp ((stands_busy h).written .pin hwritten)
  have hread := Latches.read_writeAll L (s.answer .data) [.dev]
  have hsettle := settle_storeEntry (s := s.portIn c .data) (r := routineOf i) (c := c) (back := back)
    (q := { phase := .busy pc .start, latches := L.writeAll (s.answer .data) [.dev] })
    (hread .dev) ((hread .pin).trans hpin) hn ((h.inv.mid h.here).table ▸ hbound) (h.succ_lt_of_response hact)
  rw [← hafter] at hsettle
  have ht := (h.exec_response hact).trans hsettle
  exact ⟨hi, hbody, hrelease, n, pin, _, _, hn, hbound, hpin, ht, h.client?_setClient rfl _, rfl, rfl, rfl,
    h.lock_of_response hact, rfl, h.others ht⟩

/-! ## TABLE_READ (R119) -/

theorem tableReadResult_eq {s : State} {L : Latches} {index : Byte} {e : Entry} (ha : L.a0 = some index)
    (he : s.table[index.toNat]? = some e) : tableReadResult s L = .ok (entryValue e) := by
  simp only [tableReadResult, Latches.need_of_read (l := .a0) ha, bind, Except.bind, he]
  rfl

/-- The one step of TABLE_READ. -/
theorem advance_tableRead {s : State} {c : Nat} {index : Byte} {e : Entry} {L : Latches}
    (hq : s.client? c = some { phase := .busy 0 .start, latches := L }) (ha : L.a0 = some index)
    (he : s.table[index.toNat]? = some e) : s.advance (routineOf (.tableRead index)) c =
      .next (s.setClient c { phase := .complete, latches := { L with res := some (.ok (entryValue e)) } }) := by
  have hgoto : s.goto (tableReadRoutine index) c 1 { phase := .busy 0 .start, latches := L } = _ :=
    (if_neg (lt_irrefl 1)).trans (congrArg (attempt · _) (tableReadResult_eq ha he))
  simp only [State.advance, hq]
  exact hgoto

theorem decodeReq_encodeReq (i : Instr) : decodeReq (encodeReq i) = .ok i :=
  (descriptorIsItsEncoding _ i).mpr rfl

/-- TABLE_READ issued and run, whoever holds the lock. -/
theorem performs_tableRead {s : State} {c : Nat} {index : Byte} {e : Entry} (hlife : s.life = .attached)
    (hidle : s.phase? c = some .idle) (hindex : index.toNat < s.cfg.nTbl) (he : s.table[index.toNat]? = some e) :
    performs (.tableRead index) c 1 s = .next ((s.atTurn (.run c)).setClient c
      { phase := .complete
        latches := { Latches.ofRequest (.tableRead index) with res := some (.ok (entryValue e)) } }) := by
  have hadmits : Admits (s.atTurn (.request c (encodeReq (.tableRead index)))) c (encodeReq (.tableRead index))
      (.tableRead index) := (admits_iff (decodeReq_encodeReq _)).mpr ⟨hlife, hidle, decide_eq_true hindex⟩
  have hstep := advance_tableRead (s := (s.atTurn (.run c)).seat c 0 (Latches.ofRequest (.tableRead index)))
    (State.client?_seat _ hadmits.lt) rfl he
  rw [performs, exec_of_request rfl, hadmits.issue]
  dsimp only
  rw [← runTurns_atTurn _ _ _ _ Nat.one_pos]
  refine (runTurns_one rfl hstep).trans ?_
  rw [State.seat, State.setClient_setClient]

/-- Settles O26: an index past the table is not admitted (R75), and any other is read in the one step of
`performs_tableRead`. -/
theorem tableReadRuns : Obligations.TableReadRuns := by
  refine ⟨fun _ => ⟨rfl, rfl⟩, fun s c index hn hpast => ?refused, fun s c index e hlife hidle hindex he => ?read⟩
  case refused =>
    refine step_of_not_admits hn fun i ha => hpast (ha.index index ?_)
    exact Except.ok.inj (ha.decodes.symm.trans (decodeReq_encodeReq _))
  case read =>
    obtain ⟨q, hq, -⟩ := State.phase?_some hidle
    have hself := fun q => State.client?_setClient_self (s.atTurn (.run c)) q (State.client?_lt hq)
    refine ⟨_, performs_tableRead hlife hidle hindex he, rfl, rfl, rfl, rfl, rfl, ?phase, ?result, ?frame⟩
    case phase => exact congrArg (Option.map Sequencer.phase) (hself _)
    case result => exact congrArg (Option.bind · (·.latches.res)) (hself _)
    case frame => exact ⟨rfl, rfl, rfl, rfl, rfl, rfl, rfl, rfl, fun d hd => State.client?_setClient_ne _ _ hd⟩

end Sys2Proof.Machine
end

section
/-!
PROOFS, family 60_exceptions. The last step of each operation (O11, O12, O13), taking an error (O40), collecting (O41),
and the error kinds by operation (O30, O29).
-/
namespace Sys2Proof.Machine

/-! ## The last step of an operation (R129) -/

theorem latchValue_of_read {L : Latches} {l : Latch} {b : Byte} (h : L.read l = some b) (s : State) :
    latchValue l s L = .ok (byteValue b) := by
  rw [latchValue, Latches.need_of_read h]
  rfl

/-- Every operation but TABLE_READ ends with a `Release()` (R62), on which only SMB_WRITE_BYTE may have a decision: the
status check, where that step is the release of its own `RamR` (R108, R114). -/
theorem getLast?_seqOf (k : Config) {i : Instr} (hread : ∀ index, i ≠ .tableRead index) :
    ∃ after, (seqOf k i).getLast? = some { act := .release, after := after } ∧
      (after = .proceed ∨ after = .checkStatus ∧ rep i = .smbWriteByte 0 0 0 0) := by
  obtain ⟨_, _, _, _, _, _, scope⟩ := k
  cases i
  case tableRead index => exact absurd rfl (hread index)
  case smbWriteByte =>
    cases scope
    · exact ⟨.checkStatus, rfl, Or.inr ⟨rfl, rfl⟩⟩
    · exact ⟨.proceed, rfl, Or.inl rfl⟩
  case smbReadByte | smbReadWord => cases scope <;> exact ⟨.proceed, rfl, Or.inl rfl⟩
  all_goals exact ⟨.proceed, rfl, Or.inl rfl⟩

/-- The internal work of the last step ends the operation with success, where a status to check is the success code. -/
theorem settle_ends {s : State} {r : Routine} {after : After} {c pc : Nat} {q : Sequencer} {v : Word32}
    (hafter : after = .proceed ∨ after = .checkStatus ∧ q.latches.read .st = some 0x80)
    (hlast : pc + 1 = (r.seq s.cfg).length) (hv : r.value s q.latches = .ok v) :
    s.settle r after c pc q = .next (s.complete r c q (.ok v)) := by
  have hgoto : s.goto r c (pc + 1) q = .next (s.complete r c q (.ok v)) := by
    rw [State.goto, if_neg hlast.not_lt, hv]
    rfl
  rcases hafter with rfl | ⟨rfl, hst⟩
  · exact hgoto
  · rw [State.settle, Latches.need_of_read hst]
    exact hgoto

theorem exec_of_busy {s : State} {c pc : Nat} {L : Latches} {i : Instr} {m : Micro} (hn : s.now = .run c)
    (hq : s.client? c = some { phase := .busy pc .start, latches := L }) (hm : (seqOf s.cfg i)[pc]? = some m) :
    exec i s = s.perform (routineOf i) m c pc { phase := .busy pc .start, latches := L } .start := by
  have hm' : ((routineOf i).seq s.cfg)[pc]? = some m := hm
  simp only [exec_eq_operate, operate, hn, State.advance, hq, hm']

/-- The last step of an operation but TABLE_READ: the lock is released and the operation ends with its value. -/
theorem exec_last {s : State} {c pc : Nat} {L : Latches} {i : Instr} {v : Word32}
    (hread : ∀ index, i ≠ .tableRead index) (hn : s.now = .run c)
    (hq : s.client? c = some { phase := .busy pc .start, latches := L }) (hlast : pc + 1 = (seqOf s.cfg i).length)
    (hl : s.lock = .held c) (hst : rep i = .smbWriteByte 0 0 0 0 → L.st = some 0x80)
    (hv : (routineOf i).value (s.release c) L = .ok v) :
    exec i s = .next ((s.release c).complete (routineOf i) c { phase := .busy pc .start, latches := L } (.ok v)) := by
  obtain ⟨after, hm, hafter⟩ := getLast?_seqOf s.cfg hread
  rw [List.getLast?_eq_getElem?, ← hlast, Nat.add_sub_cancel] at hm
  rw [exec_of_busy hn hq hm, State.perform, if_pos hl]
  exact settle_ends (hafter.imp_right fun ⟨ha, hi⟩ => ⟨ha, hst hi⟩) hlast hv

/-- Settles O11: the last step (`exec_last`), with the byte of `v` as the value. -/
theorem readsFinish : Obligations.ReadsFinish := by
  intro s c pc L i x b hi hn hq hlast hl hv
  have hvalue := latchValue_of_read (l := .v) hv (s.release c)
  simp only [List.mem_cons, List.not_mem_nil, or_false] at hi
  rcases hi with rfl | rfl | rfl | rfl | rfl | rfl
  all_goals exact exec_last nofun hn hq hlast hl nofun hvalue

/-- Settles O12: the last step (`exec_last`), with the value 0. -/
theorem writesFinish : Obligations.WritesFinish := by
  intro s c pc L i x y hi hn hq hlast hl
  simp only [List.mem_cons, List.not_mem_nil, or_false] at hi
  rcases hi with rfl | rfl | rfl | rfl | rfl | rfl | rfl | rfl
  all_goals exact exec_last nofun hn hq hlast hl nofun rfl

theorem adResult_of_read {L : Latches} {msb lsb mult : Byte} (hmsb : L.read .msb = some msb)
    (hlsb : L.read .lsb = some lsb) (hmult : L.read .a1 = some mult) (s : State) :
    adResult s L = .ok (adValue msb lsb mult) := by
  rw [adResult, Latches.need_of_read hmsb, Latches.need_of_read hlsb, Latches.need_of_read hmult]
  rfl

theorem smbWordResult_of_read {L : Latches} {d0 d1 : Byte} (h0 : L.read .d0 = some d0) (h1 : L.read .d1 = some d1)
    (s : State) : smbWordResult s L = .ok ((d0 ++ d1).setWidth 32) := by
  rw [smbWordResult, Latches.need_of_read h0, Latches.need_of_read h1, ← smbWord_eq_append]
  rfl

/-- Settles O13: the last step (`exec_last`) with the value of each operation, and TABLE_READ's one step. -/
theorem otherOperationsFinish : Obligations.OtherOperationsFinish := by
  refine fun s c pc L hn hq => ⟨fun index mult lsb msb hlast hl hlsb hmsb hmult => ?ad,
    fun ch slv reg d0 hlast hl h0 => ?readByte, fun ch slv reg data hlast hl hst => ?writeByte,
    fun ch slv reg d0 d1 hlast hl h0 h1 => ?readWord, fun hlast hl => ?scan, fun index e hpc ha he => ?tableRead⟩
  case ad => exact exec_last nofun hn hq hlast hl nofun (adResult_of_read hmsb hlsb hmult (s.release c))
  case readByte => exact exec_last nofun hn hq hlast hl nofun (latchValue_of_read (l := .d0) h0 (s.release c))
  case writeByte => exact exec_last nofun hn hq hlast hl (fun _ => hst) rfl
  case readWord => exact exec_last nofun hn hq hlast hl nofun (smbWordResult_of_read h0 h1 (s.release c))
  case scan => exact exec_last nofun hn hq hlast hl nofun rfl
  case tableRead =>
    subst hpc
    rw [exec_eq_operate, operate, hn]
    exact advance_tableRead hq ha he

/-! ## Taking an error (R127) -/

theorem endStatus_of_error {i : Instr} {e : Response} (he : ∀ v, e ≠ .ok v) (st : ScanStatus) :
    endStatus i e st = if i = .tableScan then .failed else st := by
  unfold endStatus
  cases e with
  | ok v => exact absurd rfl (he v)
  | timeout | invalidTarget | smbusError | invalidTable => rfl

theorem complete_of_error {s : State} {i : Instr} {c : Nat} {q : Sequencer} {e : Response} (he : ∀ v, e ≠ .ok v) :
    s.complete (routineOf i) c q e =
      ({ s with scanStatus := if i = .tableScan then .failed else s.scanStatus } : State).setClient c
        { phase := .complete, latches := { q.latches with res := some e } } := by
  rw [State.complete, routineOf_ended_eq, endStatus_of_error he]

theorem exec_of_aborting {s : State} {c pc : Nat} {q : Sequencer} {i : Instr} {e : Response} (hn : s.now = .run c)
    (hq : s.client? c = some q) (hp : q.phase = .busy pc (.abort e)) (hl : s.lock = .held c) :
    exec i s = .next ((s.release c).complete (routineOf i) c q e) := by
  simp only [exec_eq_operate, operate, hn, State.advance, hq, hp]
  exact if_pos hl

/-- Settles O40: with the lock held, `raise_held` and then the pending `Release()`; without it, the end at once. -/
theorem errorEntry : Obligations.ErrorEntry := by
  refine fun s c pc q i e he hc hn => ⟨fun hl => ⟨raise_held hl, ?release⟩, fun hl => ?atOnce⟩
  case release =>
    have hexec := exec_of_aborting (s := s.setClient c { q with phase := .busy pc (.abort e) }) (i := i) hn
      (State.client?_setClient_self s _ hc) rfl hl
    have hcomplete := complete_setClient (s.release c) i c { q with phase := .busy pc (.abort e) }
      { q with phase := .busy pc (.abort e) } e
    rw [raise_held hl]
    exact hexec.trans (congrArg Host.Outcome.next (hcomplete.trans (complete_of_error he)))
  case atOnce =>
    rw [State.raise, if_neg hl, complete_of_error he]

/-! ## Collecting (R130) -/

theorem State.phase?_setClient_self (s : State) {c : Nat} (q : Sequencer) (h : c < s.clients.length) :
    (s.setClient c q).phase? c = some q.phase :=
  congrArg (Option.map Sequencer.phase) (State.client?_setClient_self s q h)

theorem collect_of_complete {s : State} {c : Nat} {L : Latches} {res : Response}
    (hq : s.client? c = some { phase := .complete, latches := L }) (hr : L.res = some res) :
    s.collect c = .next { s.setClient c { phase := .idle, latches := L } with
      collected := s.collected ++ [(c, res.word)] } := by
  simp only [State.collect, hq, hr]

theorem collect_of_not_complete {s : State} {c : Nat} (h : s.phase? c ≠ some .complete) : s.collect c = .next s := by
  cases hc : s.client? c with
  | none => simp only [State.collect, hc]
  | some q =>
    obtain ⟨phase, L⟩ := q
    cases phase with
    | idle | busy => simp only [State.collect, hc]
    | complete => exact absurd (by simp [State.phase?, hc]) h

/-- What the issue of a well-formed operation asks of its routine (R75, items 4 and 5). -/
theorem routineOf_admits_of_wellFormed {s : State} {i : Instr} (hi : i.wellFormed s.cfg.nTbl = true)
    (hscan : i = .tableScan → s.scanStatus = .notRun ∨ s.scanStatus = .failed) : (routineOf i).admits s = true := by
  refine (routineOf_admits_iff i s).mpr ⟨?_, hscan⟩
  rintro index rfl
  exact of_decide_eq_true hi

theorem ScanStatus.notRun_or_failed {st : ScanStatus} (h : st ≠ .running ∧ st ≠ .done) :
    st = .notRun ∨ st = .failed := by
  obtain ⟨hrunning, hdone⟩ := h
  cases st with
  | notRun => exact Or.inl rfl
  | failed => exact Or.inr rfl
  | running => exact absurd rfl hrunning
  | done => exact absurd rfl hdone

/-- Settles O41: the step is `State.collect` or a turn that passes, and the client that has collected is Idle, which is
what R75 asks of it. -/
theorem collectStep : Obligations.CollectStep := by
  refine ⟨fun s c L res hn hq hr => ?collects, fun s c hn hp => ?nothing, fun s c hn hp => ?idle⟩
  case collects =>
    have hstep := (step_of_collect hn).trans (collect_of_complete (s := s.takeTurn) hq hr)
    refine ⟨_, hstep, rfl, fun i hlife hi hscan => ?_⟩
    have hidle := State.phase?_setClient_self s.takeTurn { phase := .idle, latches := L } (State.client?_lt hq)
    exact (admits_iff (decodeReq_encodeReq i)).mpr
      ⟨hlife, hidle, routineOf_admits_of_wellFormed hi fun h => ScanStatus.notRun_or_failed (hscan h)⟩
  case nothing => exact (step_of_collect hn).trans (collect_of_not_complete (s := s.takeTurn) hp)
  case idle =>
    refine step_of_not_running hn (State.running_of_not_busy fun pc stage hbusy => ?_)
    cases hp.symm.trans hbusy

/-! ## The error kinds by operation (R122) -/

/-- Settles O30: the step keeps the invariant, which says it of the Complete client, and its operation is still `i`. -/
theorem resultsAreOfAllowedKinds : Obligations.ResultsAreOfAllowedKinds := by
  intro s t c pc stage L i hI hn hq ho h hp
  obtain ⟨q', hq', hp'⟩ := State.phase?_some hp
  have hok := ((hI.of_step h).sequencers c q' hq').phase
  rw [PhaseOk, hp'] at hok
  obtain ⟨-, j, res, hj, hres, hm⟩ := hok
  have hexec := (step_of_running hn (State.running_of_busy hq ho)).symm.trans h
  obtain ⟨hnone, -⟩ | ⟨q₀, q₁, hq₀, hT⟩ := exec_run (s := s.takeTurn) hn hexec
  · cases hq.symm.trans hnone
  · cases hq.symm.trans hq₀
    cases hq'.symm.trans ((hT.kept hq₀).self hq₀)
    cases hj.symm.trans (hT.operation.trans ho)
    exact ⟨res, by rw [State.result?, hq', Option.bind_some, hres], hm⟩

/-! ## An operation issued and run comes to its end -/

/-- The pseudocode of an operation leaves the sequencers alone. -/
theorem body_clients {s : State} {i : Instr} {c : Nat} (hread : ∀ index, i ≠ .tableRead index)
    (hwf : s.cfg.wf = true) (ht : s.table.length = s.cfg.nTbl) (hr : Ready s c) :
    (Pseudo.body s.cfg c i (s.started i c, Latches.ofRequest i)).2.1.clients = s.clients := by
  obtain ⟨hclients, -, -, hlock, -⟩ := issued_frame i (s.atTurn (.run c))
  have hsim := sim_operation (c := c) hwf i hread (s.started i c) (Latches.ofRequest i) 0 (started_live i c hr ht)
    (hlock.trans hr.lock) (List.prefix_refl _)
  rcases hbody : Pseudo.body s.cfg c i (s.started i c, Latches.ofRequest i) with ⟨r, w, L⟩
  rw [hbody] at hsim
  cases r
  all_goals
    obtain ⟨hkept, -⟩ := hsim
    exact hkept.clients.trans hclients

theorem performs_complete {s : State} {c : Nat} {i : Instr} (hwf : s.cfg.wf = true)
    (ht : s.table.length = s.cfg.nTbl) (hr : Ready s c) (hi : i.wellFormed s.cfg.nTbl = true)
    (hscan : i = .tableScan → s.scanStatus = .notRun ∨ s.scanStatus = .failed) :
    ∃ n t, performs i c n s = .next t ∧ t.phase? c = some .complete := by
  obtain ⟨q, hq, -⟩ := State.phase?_some hr.idle
  have hlt := State.client?_lt hq
  by_cases hread : ∃ index, i = .tableRead index
  · obtain ⟨index, rfl⟩ := hread
    have hindex : index.toNat < s.cfg.nTbl := of_decide_eq_true hi
    have hperforms := performs_tableRead hr.life hr.idle hindex (List.getElem?_eq_getElem (ht ▸ hindex))
    exact ⟨1, _, hperforms, State.phase?_setClient_self _ _ hlt⟩
  · push Not at hread
    obtain ⟨n, hperforms, -⟩ := performs_body i c hread hwf ht hr (routineOf_admits_of_wellFormed hi hscan)
    refine ⟨n, _, hperforms, congrArg (Option.map Sequencer.phase) (complete_client? _ i c _ _ ?_)⟩
    rwa [body_clients hread hwf ht hr]

/-! ## No run turn ends with, or raises, an error that R122 does not allow -/

/-- The result that the sequencer has ended with, or the error that it has raised, is one that R122 allows `i`. -/
def Sequencer.Allowed (i : Instr) (q : Sequencer) : Prop :=
  match q.phase with
  | .complete => ∃ res, q.latches.res = some res ∧ mayEndWith i res = true
  | .busy _ (.abort e) => mayEndWith i e = true
  | .idle | .busy _ .start | .busy _ .again => True

/-- What a step answers has an allowed sequencer of client `c`. -/
def Allows (i : Instr) (c : Nat) (o : Out) : Prop :=
  ∀ t, o = .next t → ∀ q, t.client? c = some q → q.Allowed i

section
variable {s : State} {i : Instr} {c pc : Nat} {q : Sequencer}

theorem allows_setClient (h : q.Allowed i) : Allows i c (.next (s.setClient c q)) := by
  rintro _ ⟨⟩ q' hq'
  obtain ⟨hne, -⟩ | ⟨-, rfl⟩ := client?_of_set rfl hq'
  · exact absurd rfl hne
  · exact h

theorem allows_fault (f : Fault) : Allows i c (.fault f) := by
  intro t h
  cases h

theorem allows_attempt {α : Type} {x : Except Fault α} {k : α → Out} (h : ∀ a, Allows i c (k a)) :
    Allows i c (attempt x k) := by
  cases x with
  | ok a => exact h a
  | error f => exact allows_fault f

theorem allows_ite {p : Prop} [Decidable p] {o o' : Out} (h : p → Allows i c o) (h' : ¬ p → Allows i c o') :
    Allows i c (if p then o else o') := by
  split
  · exact h ‹_›
  · exact h' ‹_›

theorem allows_complete {res : Response} (h : mayEndWith i res = true) :
    Allows i c (.next (s.complete (routineOf i) c q res)) :=
  allows_setClient ⟨res, rfl, h⟩

theorem allows_raise {e : Response} (h : mayEndWith i e = true) :
    Allows i c (.next (s.raise (routineOf i) c pc q e)) := by
  unfold State.raise
  split
  · exact allows_setClient h
  · exact allows_complete h

theorem allows_goto : Allows i c (s.goto (routineOf i) c pc q) :=
  allows_ite (fun _ => allows_setClient trivial) fun _ => allows_attempt fun v => allows_complete (mayEndWith_ok i v)

variable {m : Micro}

theorem allows_settle (hm : errorsOk i m = true) : Allows i c (s.settle (routineOf i) m.after c pc q) := by
  simp only [errorsOk, Bool.and_eq_true] at hm
  obtain ⟨-, herr⟩ := hm
  unfold State.settle
  cases hafter : m.after with
  | proceed => exact allows_goto
  | checkTarget | checkTable =>
    simp only [hafter] at herr
    exact allows_attempt fun chk => allows_ite (fun _ => allows_raise herr) fun _ => allows_goto
  | checkIdle back =>
    simp only [hafter] at herr
    refine allows_attempt fun pr => allows_ite (fun _ => allows_goto) fun _ => allows_attempt fun n => ?_
    exact allows_ite (fun _ => allows_raise herr) fun _ => allows_goto
  | checkStatus =>
    simp only [hafter] at herr
    refine allows_attempt fun st => allows_ite (fun _ => allows_goto) fun _ => allows_raise ?_
    exact (mayEndWith_smbusError i st 0).trans herr
  | storeEntry back =>
    refine allows_attempt fun dev => allows_attempt fun pin => allows_attempt fun n => ?_
    exact allows_ite (fun _ => allows_ite (fun _ => allows_goto) fun _ => allows_goto) fun _ => allows_fault _

theorem allows_pollStep (hm : errorsOk i m = true) (hwait : m.act = .waitIbf ∨ m.act = .waitObf) (stage : Stage)
    (done : Byte → Bool) : Allows i c (s.pollStep (routineOf i) m.after c pc q stage done) := by
  have htimeout : mayEndWith i .timeout = true := by
    simp only [errorsOk, Bool.and_eq_true] at hm
    rcases hwait with ha | ha <;> simpa [ha] using hm.1
  refine allows_attempt fun n => allows_ite (fun _ => allows_settle hm) fun _ => ?_
  exact allows_ite (fun _ => allows_raise htimeout) fun _ => allows_setClient trivial

theorem allows_perform (hm : errorsOk i m = true) (hq : s.client? c = some q) (ha : q.Allowed i) (stage : Stage) :
    Allows i c (s.perform (routineOf i) m c pc q stage) := by
  unfold State.perform
  cases hact : m.act with
  | acquire =>
    refine allows_ite (fun _ => allows_settle hm) fun _ => ?_
    rintro _ ⟨⟩ q' hq'
    cases hq.symm.trans hq'
    exact ha
  | waitIbf => exact allows_pollStep hm (Or.inl hact) stage ibfClear
  | waitObf => exact allows_pollStep hm (Or.inr hact) stage obfSet
  | command | response | lookup => exact allows_settle hm
  | argument src => exact allows_attempt fun b => allows_settle hm
  | release => exact allows_ite (fun _ => allows_settle hm) fun _ => allows_fault _

theorem allows_advance (h : ∀ q, s.client? c = some q → q.Allowed i) : Allows i c (s.advance (routineOf i) c) := by
  have hpass : Allows i c (.next s) := by
    rintro _ ⟨⟩
    exact h
  unfold State.advance
  cases hq : s.client? c with
  | none => exact hpass
  | some q =>
    obtain ⟨phase, L⟩ := q
    cases phase with
    | idle | complete => exact hpass
    | busy pc stage =>
      cases stage with
      | abort e => exact allows_ite (fun _ => allows_complete (h _ hq)) fun _ => allows_fault _
      | start | again =>
        dsimp only
        cases hm : ((routineOf i).seq s.cfg)[pc]? with
        | none => exact allows_fault _
        | some m => exact allows_perform (seq_errors (List.mem_of_getElem? hm)) hq trivial _

theorem allows_runTurns (n : Nat) (h : ∀ q, s.client? c = some q → q.Allowed i) : Allows i c (runTurns i c n s) := by
  induction n generalizing s with
  | zero =>
    rintro _ ⟨⟩
    exact h
  | succ n ih =>
    have hstep : Allows i c (exec i (s.atTurn (.run c))) := by
      rw [exec_eq_operate]
      exact allows_advance (s := s.atTurn (.run c)) h
    unfold runTurns
    cases hexec : exec i (s.atTurn (.run c)) with
    | next s' => exact ih (hstep s' hexec)
    | fault f => exact allows_fault f
    | refused r =>
      intro t ht
      cases ht

end

theorem allows_performs {s : State} {i : Instr} {c n : Nat} (hr : Ready s c) (ha : (routineOf i).admits s = true) :
    Allows i c (performs i c n s) := by
  rw [performs, exec_issue i c hr ha]
  exact allows_runTurns n (allows_setClient (q := { phase := .busy 0 .start, latches := .ofRequest i }) trivial _ rfl)

/-- Settles O29: the run comes to its end (`performs_complete`), and no turn of it ends with, or raises, another error
(`allows_performs`). -/
theorem errorKindsByOperation : Obligations.ErrorKindsByOperation := by
  intro s c i hwf ht hr hi hscan
  have hadmits := routineOf_admits_of_wellFormed hi hscan
  obtain ⟨n, t, hperforms, hp⟩ := performs_complete hwf ht hr hi hscan
  obtain ⟨q, hq, hphase⟩ := State.phase?_some hp
  have hallowed := allows_performs hr hadmits t hperforms q hq
  rw [Sequencer.Allowed, hphase] at hallowed
  obtain ⟨res, hres, hm⟩ := hallowed
  exact ⟨n, t, res, hperforms, hp, by rw [State.result?, hq, Option.bind_some, hres], hm⟩

end Sys2Proof.Machine
end

section
/-!
PROOFS, family 70_reset_and_hazards. The bounds of R151 on the events of an operation (O28), and the lifecycle host's
attach and detach (O56, O57, O58).
-/
namespace Sys2Proof.Machine

/-! ## How much a state's trace has grown -/

/-- The trace of `t` is that of `s` with at most `ports` port events and at most `locks` lock events appended. -/
def Appends (s t : State) (ports locks : Nat) : Prop :=
  ∃ es, t.trace = s.trace ++ es ∧ (es.filter isPortEvent).length ≤ ports ∧
    (es.filter fun e => !isPortEvent e).length ≤ locks

section
variable {s t u : State} {ports ports' locks locks' : Nat}

theorem Appends.of_trace_eq (h : t.trace = s.trace) : Appends s t ports locks :=
  ⟨[], by rw [h, List.append_nil], Nat.zero_le _, Nat.zero_le _⟩

theorem Appends.trans (h : Appends s t ports locks) (h' : Appends t u ports' locks') :
    Appends s u (ports + ports') (locks + locks') := by
  obtain ⟨es, htrace, hports, hlocks⟩ := h
  obtain ⟨es', htrace', hports', hlocks'⟩ := h'
  refine ⟨es ++ es', by rw [htrace', htrace, List.append_assoc], ?ports, ?locks⟩
  all_goals rw [List.filter_append, List.length_append]
  case ports => exact Nat.add_le_add hports hports'
  case locks => exact Nat.add_le_add hlocks hlocks'

theorem Appends.mono (h : Appends s t ports locks) (hp : ports ≤ ports') (hl : locks ≤ locks') :
    Appends s t ports' locks' := by
  obtain ⟨es, htrace, hports, hlocks⟩ := h
  exact ⟨es, htrace, hports.trans hp, hlocks.trans hl⟩

theorem appends_acquire (s : State) (c : Nat) : Appends s (s.acquire c) 0 1 :=
  ⟨_, rfl, Nat.le_refl _, Nat.le_refl _⟩

theorem appends_release (s : State) (c : Nat) : Appends s (s.release c) 0 1 :=
  ⟨_, rfl, Nat.le_refl _, Nat.le_refl _⟩

theorem appends_portIn (s : State) (c : Nat) (p : Port) : Appends s (s.portIn c p) 1 0 :=
  ⟨_, rfl, Nat.le_refl _, Nat.le_refl _⟩

theorem appends_portOut (s : State) (c : Nat) (p : Port) (b : Byte) : Appends s (s.portOut c p b) 1 0 :=
  ⟨_, rfl, Nat.le_refl _, Nat.le_refl _⟩

end

/-! ## How many events a piece of pseudocode makes -/

/-- Whatever the EC answers and however it ends, `p` makes at most `ports` port events and at most `locks` lock events. -/
def Makes {α : Type} (p : Pseudo.Code α) (ports locks : Nat) : Prop :=
  ∀ w, Appends w.1 (p w).2.1 ports locks

section
variable {α β : Type} {p : Pseudo.Code α} {q : α → Pseudo.Code β} {ports ports' locks locks' : Nat}
  {k : Config} {c : Nat}

theorem Makes.mono (h : Makes p ports locks) (hp : ports ≤ ports') (hl : locks ≤ locks') : Makes p ports' locks' :=
  fun w => (h w).mono hp hl

theorem Makes.bind (hp : Makes p ports locks) (hq : ∀ a, Makes (q a) ports' locks') :
    Makes (p >>= q) (ports + ports') (locks + locks') := by
  intro w
  have hpw := hp w
  rw [Pseudo.bind_run]
  rcases hrun : p w with ⟨r, w'⟩
  rw [hrun] at hpw
  cases r with
  | error e => exact hpw.mono (Nat.le_add_right _ _) (Nat.le_add_right _ _)
  | ok a => exact hpw.trans (hq a w')

theorem makes_pure (a : α) : Makes (pure a : Pseudo.Code α) ports locks := fun _ => .of_trace_eq rfl

theorem makes_raise (e : Response) : Makes (Pseudo.raise e : Pseudo.Code α) ports locks := fun _ => .of_trace_eq rfl

theorem makes_assign (f : Latches → Latches) : Makes (Pseudo.assign f) ports locks := fun _ => .of_trace_eq rfl

theorem makes_writeEntry (n : Nat) (dev pin : Byte) : Makes (Pseudo.update fun s => s.writeEntry n dev pin) 0 0 :=
  fun _ => .of_trace_eq rfl

theorem makes_portIn (port : Port) : Makes (Pseudo.portIn c port) 1 0 := fun w => appends_portIn w.1 c port

theorem makes_portOut (port : Port) (b : Byte) : Makes (Pseudo.portOut c port b) 1 0 :=
  fun w => appends_portOut w.1 c port b

theorem makes_ite {a : Prop} {_ : Decidable a} {p' : Pseudo.Code α} (h : Makes p ports locks)
    (h' : Makes p' ports locks) : Makes (if a then p else p') ports locks := by
  split
  · exact h
  · exact h'

/-- A check that may raise, before `p`: `do` writes `p` into both branches. -/
theorem Makes.checked {a : Prop} {_ : Decidable a} (e : Response) (h : Makes p ports locks) :
    Makes (if a then (do (Pseudo.raise e : Pseudo.Code Unit); p) else p) ports locks := by
  rw [Pseudo.raise_bind]
  exact makes_ite (makes_raise e) h

/-- An assignment to latches makes no event. -/
theorem Makes.assigned (f : Latches → Latches) (h : Makes p ports locks) :
    Makes (do Pseudo.assign f; p) ports locks :=
  ((makes_assign (ports := 0) (locks := 0) f).bind fun _ => h).mono (by omega) (by omega)

theorem Makes.locked (h : Makes p ports locks) : Makes (Pseudo.locked c p) ports (locks + 2) := fun w =>
  (((appends_acquire w.1 c).trans (h (w.1.acquire c, w.2))).trans (appends_release _ c)).mono (by omega) (by omega)

theorem Makes.zext {p : Pseudo.Code Byte} (h : Makes p ports locks) : Makes (Pseudo.zext p) ports locks :=
  h.bind fun _ => makes_pure (ports := 0) (locks := 0) _

theorem Makes.zero {p : Pseudo.Code Unit} (h : Makes p ports locks) : Makes (Pseudo.zero p) ports locks :=
  h.bind fun _ => makes_pure (ports := 0) (locks := 0) _

/-! ## Waits and handshakes (R78, R79, R83) -/

theorem makes_waitLoop (done : Byte → Bool) (left : Nat) : Makes (Pseudo.waitLoop c done left) left 0 := by
  induction left with
  | zero => exact makes_raise _
  | succ left ih =>
    exact ((makes_portIn .command).bind fun _ => makes_ite (makes_pure ()) (ih.assigned _)).mono
      (by omega) (Nat.le_refl _)

theorem makes_waitIBF : Makes (Pseudo.waitIBF k c) k.maxPoll 0 := (makes_waitLoop _ _).assigned _

theorem makes_waitOBF : Makes (Pseudo.waitOBF k c) k.maxPoll 0 := (makes_waitLoop _ _).assigned _

/-- A byte sent, and what follows. -/
theorem Makes.sent (port : Port) (b : Byte) (h : Makes p ports locks) :
    Makes (do Pseudo.waitIBF k c; Pseudo.portOut c port b; p) (k.maxPoll + 1 + ports) locks :=
  (makes_waitIBF.bind fun _ => (makes_portOut port b).bind fun _ => h).mono (by omega) (by omega)

theorem makes_send (port : Port) (b : Byte) :
    Makes (do Pseudo.waitIBF k c; Pseudo.portOut c port b) (k.maxPoll + 1) 0 :=
  makes_waitIBF.bind fun _ => makes_portOut port b

/-- A byte received, and what is done with it. -/
theorem makes_receiving {q : Byte → Pseudo.Code α} (h : ∀ b, Makes (q b) ports locks) :
    Makes (do Pseudo.waitOBF k c; let b ← Pseudo.portIn c .data; q b) (k.maxPoll + 1 + ports) locks :=
  (makes_waitOBF.bind fun _ => (makes_portIn .data).bind h).mono (by omega) (by omega)

/-! ## The RAM accessor and the register families (R87, R88, R92, R103) -/

theorem makes_memRead (addr : Byte) : Makes (Pseudo.memRead k c addr) (ramBound k) 0 :=
  Makes.mono (.sent _ _ (.sent _ _ (makes_receiving fun b => .assigned _ (makes_pure (ports := 0) b))))
    (by unfold ramBound; omega) (Nat.le_refl _)

theorem makes_memWrite (addr val : Byte) : Makes (Pseudo.memWrite k c addr val) (ramBound k) 0 :=
  Makes.mono (.sent _ _ (.sent _ _ (makes_send _ _))) (by unfold ramBound; omega) (Nat.le_refl _)

/-- The handshakes of the validation: one or none. -/
theorem makes_validation (validate : Bool) (keep : Byte → Latches → Latches) :
    Makes (Pseudo.validation k c validate keep) (if validate then k.maxPoll + 1 else 0) 0 := by
  cases validate with
  | false => exact makes_pure ()
  | true => exact makes_receiving (ports := 0) fun b => .assigned _ (makes_ite (makes_raise _) (makes_pure ()))

/-- The bound on port events of a register-family access (R151). -/
def familyBound (k : Config) (validate : Bool) : Nat :=
  if validate then 4 * k.maxPoll + 4 else 3 * k.maxPoll + 3

theorem makes_familyRead (opc tgt : Byte) (validate : Bool) :
    Makes (Pseudo.familyRead k c opc tgt validate) (familyBound k validate) 0 :=
  Makes.mono (.sent _ _ (.sent _ _ ((makes_validation validate _).bind fun _ =>
      makes_receiving fun b => .assigned _ (makes_pure (ports := 0) (locks := 0) b))))
    (by unfold familyBound; split <;> omega) (Nat.le_refl _)

theorem makes_familyWrite (opc tgt val : Byte) (validate : Bool) :
    Makes (Pseudo.familyWrite k c opc tgt val validate) (familyBound k validate) 0 :=
  Makes.mono (.sent _ _ (.sent _ _ ((makes_validation validate _).bind fun _ => makes_send _ _)))
    (by unfold familyBound; split <;> omega) (Nat.le_refl _)

theorem makes_adRead (index mult : Byte) : Makes (Pseudo.adRead k c index mult) (7 * k.maxPoll + 7) 0 :=
  Makes.mono (.sent _ _ (.sent _ _ ((makes_validation true _).bind fun _ =>
      .sent _ _ (makes_receiving fun _ => .assigned _
        (.sent _ _ (makes_receiving fun _ => .assigned _ (makes_pure (ports := 0) (locks := 0) _)))))))
    (by rw [if_pos rfl]; omega) (Nat.le_refl _)

/-! ## The SMBus transaction (R108 to R110) -/

/-- The lock events of one RAM access of a transaction (R108). -/
def accessLocks (k : Config) : Nat :=
  match k.smbusLockScope with
  | .perStep => 2
  | .wholeTransaction => 0

theorem makes_ramR (addr : Byte) : Makes (Pseudo.ramR k c addr) (ramBound k) (accessLocks k) := by
  unfold Pseudo.ramR accessLocks
  cases k.smbusLockScope with
  | perStep => exact (makes_memRead addr).locked
  | wholeTransaction => exact makes_memRead addr

theorem makes_ramW (addr val : Byte) : Makes (Pseudo.ramW k c addr val) (ramBound k) (accessLocks k) := by
  unfold Pseudo.ramW accessLocks
  cases k.smbusLockScope with
  | perStep => exact (makes_memWrite addr val).locked
  | wholeTransaction => exact makes_memWrite addr val

/-- `n` RAM accesses of a transaction and no other event. -/
abbrev Accesses (k : Config) (n : Nat) {α : Type} (p : Pseudo.Code α) : Prop :=
  Makes p (n * ramBound k) (n * accessLocks k)

theorem Accesses.bind {m n : Nat} (hp : Accesses k m p) (hq : ∀ a, Accesses k n (q a)) :
    Accesses k (m + n) (p >>= q) := by
  unfold Accesses
  rw [Nat.add_mul, Nat.add_mul]
  exact Makes.bind hp hq

theorem Accesses.one (hp : Makes p (ramBound k) (accessLocks k)) : Accesses k 1 p := by
  unfold Accesses
  rwa [Nat.one_mul, Nat.one_mul]

theorem accesses_ramR (addr : Byte) : Accesses k 1 (Pseudo.ramR k c addr) := .one (makes_ramR addr)

theorem accesses_ramW (addr val : Byte) : Accesses k 1 (Pseudo.ramW k c addr val) := .one (makes_ramW addr val)

theorem Accesses.mono {m n : Nat} (hp : Accesses k m p) (h : m ≤ n) : Accesses k n p :=
  Makes.mono hp (Nat.mul_le_mul_right _ h) (Nat.mul_le_mul_right _ h)

theorem accesses_idlePoll (left : Nat) : Accesses k left (Pseudo.idlePoll k c left) := by
  induction left with
  | zero => exact makes_raise _
  | succ left ih =>
    exact Accesses.mono ((accesses_ramR _).bind fun _ => .assigned _ (makes_ite (makes_pure ()) (.assigned _ ih)))
      (by omega)

/-- The accesses of step 4 (R109). -/
def dataAccesses : SmbKind → Nat
  | .byteWrite => 1
  | .byteRead | .wordRead => 0

/-- The accesses of step 8 (R109). -/
def cellAccesses : SmbKind → Nat
  | .byteWrite => 0
  | .byteRead => 1
  | .wordRead => 2

theorem accesses_smbArm (kind : SmbKind) (ch slv reg data : Byte) :
    Accesses k (4 + dataAccesses kind) (Pseudo.smbArm k c kind ch slv reg data) := by
  have hprotocol (mode : Byte) : Accesses k 1
      (do Pseudo.ramW k c k.smbusProtocol mode; Pseudo.assign fun L => { L with spoll := some 0 }) :=
    (accesses_ramW _ _).bind (n := 0) fun _ => makes_assign _
  refine Accesses.mono (m := 1 + (1 + (1 + (dataAccesses kind + 1)))) ((accesses_ramW _ _).bind fun _ =>
    (accesses_ramW _ _).bind fun _ => (accesses_ramW _ _).bind fun _ => ?_) (by omega)
  cases kind with
  | byteWrite => exact (accesses_ramW _ _).bind fun _ => hprotocol _
  | byteRead | wordRead => exact hprotocol _

theorem accesses_smbStatus : Accesses k 1 (Pseudo.smbStatus k c) :=
  (accesses_ramR _).bind (n := 0) fun _ => .assigned _ (makes_ite (makes_pure ()) (makes_raise _))

theorem accesses_smbCells (kind : SmbKind) : Accesses k (cellAccesses kind) (Pseudo.smbCells k c kind) := by
  cases kind with
  | byteWrite => exact makes_pure 0
  | byteRead => exact (accesses_ramR _).bind (n := 0) fun _ => .assigned _ (makes_pure _)
  | wordRead =>
    exact (accesses_ramR _).bind (n := 1) fun _ => .assigned _
      ((accesses_ramR _).bind (n := 0) fun _ => .assigned _ (makes_pure _))

/-- The RAM accesses of a transaction (R151): its writes, its poll reads, the status read and its result cells. -/
def smbAccesses (k : Config) : SmbKind → Nat
  | .byteRead | .byteWrite => 6 + k.smbMaxPoll
  | .wordRead => 7 + k.smbMaxPoll

theorem accesses_smbSteps (kind : SmbKind) (ch slv reg data : Byte) :
    Accesses k (smbAccesses k kind) (Pseudo.smbSteps k c kind ch slv reg data) := by
  rw [Pseudo.smbSteps_eq]
  refine Accesses.mono ((accesses_smbArm kind ch slv reg data).bind fun _ => (accesses_idlePoll _).bind fun _ =>
    accesses_smbStatus.bind fun _ => accesses_smbCells kind) ?_
  cases kind <;> simp only [smbAccesses, dataAccesses, cellAccesses] <;> omega

/-- The lock events of a transaction (R151). -/
def smbLocks (k : Config) (kind : SmbKind) : Nat :=
  match k.smbusLockScope with
  | .perStep => 2 * smbAccesses k kind
  | .wholeTransaction => 2

theorem makes_smbTransaction (kind : SmbKind) (ch slv reg data : Byte) :
    Makes (Pseudo.smbTransaction k c kind ch slv reg data) (smbAccesses k kind * ramBound k) (smbLocks k kind) := by
  have hsteps := accesses_smbSteps (k := k) (c := c) kind ch slv reg data
  unfold Accesses accessLocks at hsteps
  unfold Pseudo.smbTransaction smbLocks
  cases hscope : k.smbusLockScope with
  | perStep =>
    rw [hscope] at hsteps
    exact hsteps.mono (Nat.le_refl _) (Nat.mul_comm _ _).le
  | wholeTransaction =>
    rw [hscope] at hsteps
    exact hsteps.locked

/-! ## The scan (R118) -/

theorem makes_receive (ls : List Latch) : Makes (Pseudo.receive c ls) 1 0 :=
  (makes_portIn _).bind fun _ => .assigned _ (makes_pure (ports := 0) (locks := 0) _)

theorem makes_scanOne (idx : Nat) : Makes (Pseudo.scanOne k c idx) (7 * k.maxPoll + 7) 0 :=
  Makes.mono (.sent _ _ (.sent _ _ (makes_receiving fun _ => .assigned _ (.checked _
      (.sent _ _ (makes_waitOBF.bind fun _ => (makes_receive _).bind fun _ =>
        .sent _ _ (makes_waitOBF.bind fun _ => (makes_receive _).bind fun _ =>
          makes_pure (ports := 0) (locks := 0) _)))))))
    (by omega) (Nat.le_refl _)

theorem makes_scanLoop (left idx : Nat) : Makes (Pseudo.scanLoop k c left idx) (left * (7 * k.maxPoll + 7)) 0 := by
  induction left generalizing idx with
  | zero => exact makes_pure ()
  | succ left ih =>
    rw [Pseudo.scanLoop_eq, Nat.succ_mul]
    exact ((makes_scanOne idx).bind fun _ => (makes_writeEntry _ _ _).bind fun _ => .assigned _ (ih _)).mono
      (by omega) (by omega)

/-! ## Whole operations (R151) -/

theorem makes_body (i : Instr) : Makes (Pseudo.body k c i) (portBound k i) (lockBound k i) := by
  cases i with
  | waitIbf => exact makes_waitIBF.locked.zero
  | waitObf => exact makes_waitOBF.locked.zero
  | ramRead addr => exact (makes_memRead addr).locked.zext
  | ramWrite addr value => exact (makes_memWrite addr value).locked.zero
  | acpiRead addr => exact (makes_familyRead _ addr false).locked.zext
  | acpiWrite addr value => exact (makes_familyWrite _ addr value false).locked.zero
  | gpioStatusRead pin => exact (makes_familyRead _ pin true).locked.zext
  | gpioStatusWrite pin value => exact (makes_familyWrite _ pin value true).locked.zero
  | gpioDirRead pin => exact (makes_familyRead _ pin true).locked.zext
  | gpioDirWrite pin value => exact (makes_familyWrite _ pin value true).locked.zero
  | adRead index mult => exact (makes_adRead index mult).locked
  | onekeyRead addr => exact (makes_familyRead _ addr false).locked.zext
  | onekeyWrite addr value => exact (makes_familyWrite _ addr value false).locked.zero
  | oemRead addr => exact (makes_familyRead _ addr false).locked.zext
  | oemWrite addr value => exact (makes_familyWrite _ addr value false).locked.zero
  | smbReadByte ch slv reg => exact makes_smbTransaction .byteRead ch slv reg 0
  | smbWriteByte ch slv reg data => exact makes_smbTransaction .byteWrite ch slv reg data
  | smbReadWord ch slv reg => exact makes_smbTransaction .wordRead ch slv reg 0
  | tableScan => exact ((makes_scanLoop _ _).assigned _).locked.zero
  | tableRead index => exact fun _ => .of_trace_eq rfl

end

theorem complete_trace (s : State) (i : Instr) (c : Nat) (q : Sequencer) (res : Response) :
    (s.complete (routineOf i) c q res).trace = s.trace := by
  obtain ⟨st, hended⟩ := routineOf_ended i res s
  rw [State.complete, hended]
  rfl

/-- Settles O28: the operation ends as its pseudocode does (`performs_body`), with the events of `makes_body`. -/
theorem operationsEndWithinTheirBounds : Obligations.OperationsEndWithinTheirBounds := by
  intro s c i hwf ht hr hi hscan
  obtain ⟨q, hq, -⟩ := State.phase?_some hr.idle
  have hlt := State.client?_lt hq
  by_cases hread : ∃ index, i = .tableRead index
  · obtain ⟨index, rfl⟩ := hread
    have hindex : index.toNat < s.cfg.nTbl := of_decide_eq_true hi
    exact ⟨1, _, [], performs_tableRead hr.life hr.idle hindex (List.getElem?_eq_getElem (ht ▸ hindex)),
      State.phase?_setClient_self _ _ hlt, (List.append_nil _).symm, Nat.zero_le _, Nat.zero_le _⟩
  · push Not at hread
    obtain ⟨n, hperforms, -⟩ := performs_body i c hread hwf ht hr (routineOf_admits_of_wellFormed hi hscan)
    obtain ⟨es, htrace, hports, hlocks⟩ := makes_body (k := s.cfg) (c := c) i (s.started i c, Latches.ofRequest i)
    obtain ⟨-, hstarted, -⟩ := issued_frame i (s.atTurn (.run c))
    refine ⟨n, _, es, hperforms, congrArg (Option.map Sequencer.phase) (complete_client? _ i c _ _ ?_),
      (complete_trace ..).trans (htrace.trans (congrArg (· ++ es) hstarted)), hports, hlocks⟩
    rwa [body_clients hread hwf ht hr]

/-! ## Attach (R139, R140) -/

/-- An attach while attached, or after an earlier one, is refused. -/
theorem State.attach_again {s : State} (h : s.life = .attached ∨ s.used = true) (p : Option String) :
    s.attach p = s.markRefused :=
  if_pos h

section
variable {s : State} (hlife : s.life = .detached) (hused : s.used = false)
include hlife hused

theorem State.not_attached_or_used : ¬ (s.life = .attached ∨ s.used = true) := by
  rw [hlife, hused]
  rintro (h | h) <;> cases h

theorem State.attach_first (p : String) : s.attach (some p) =
    { State.attached s.cfg p with
      collected := s.collected, now := s.now, schedule := s.schedule, turns := s.turns, script := s.script,
      reads := s.reads } :=
  if_neg (State.not_attached_or_used hlife hused)

theorem State.attach_error : s.attach none = s :=
  if_neg (State.not_attached_or_used hlife hused)

end

/-- Settles O56: a first attach makes the context of `State.attached`. -/
theorem attachCreatesTheContext : Obligations.AttachCreatesTheContext := by
  refine ⟨fun s p hn hlife hused => ⟨_, step_of_attach hn, ?_⟩, fun s hn hlife hused => ?_⟩
  · rw [State.attach_first (s := s.takeTurn) hlife hused]
    exact ⟨rfl, rfl, rfl, rfl, rfl, rfl, rfl, rfl, rfl⟩
  · rw [step_of_attach hn, State.attach_error (s := s.takeTurn) hlife hused]

/-! ## Detach (R141) -/

theorem all_idle_iff {s : State} :
    s.clients.all (fun q => q.phase == .idle) = true ↔ ∀ c q, s.client? c = some q → q.phase = .idle := by
  simp only [List.all_eq_true, beq_iff_eq, List.mem_iff_getElem?, State.client?, forall_exists_index]
  exact forall_comm

theorem State.detach_of_idle {s : State} (hlife : s.life = .attached) (hlock : s.lock = .free)
    (hidle : ∀ c q, s.client? c = some q → q.phase = .idle) :
    s.detach = { s with life := .detached, table := [], scanStatus := .notRun, product := "", clients := [] } :=
  if_pos ⟨hlife, hlock, all_idle_iff.mpr hidle⟩

theorem State.detach_of_not {s : State}
    (h : ¬ (s.life = .attached ∧ s.lock = .free ∧ ∀ c q, s.client? c = some q → q.phase = .idle)) :
    s.detach = s.markRefused :=
  if_neg fun ⟨hlife, hlock, hidle⟩ => h ⟨hlife, hlock, all_idle_iff.mp hidle⟩

/-- Settles O57: by the refusals of `State.attach` and `State.detach`. -/
theorem secondAttachIsRefused : Obligations.SecondAttachIsRefused := by
  refine ⟨fun s p hn h => ?attach, fun s hn hlife => ?detach⟩
  case attach => rw [step_of_attach hn, State.attach_again (s := s.takeTurn) h]
  case detach =>
    have hdetached : ¬ s.takeTurn.life = .attached := by
      rw [State.takeTurn_life, hlife]
      nofun
    rw [step_of_detach hn, State.detach_of_not fun ⟨hattached, _⟩ => hdetached hattached]

/-- Settles O58: the two outcomes of `State.detach`; while detached no request meets the conditions of R75. -/
theorem detachStep : Obligations.DetachStep := by
  refine fun s hn => ⟨fun hlife hlock hidle => ⟨_, step_of_detach hn, ?_⟩, fun h => ?_⟩
  · rw [State.detach_of_idle (s := s.takeTurn) hlife hlock hidle]
    refine ⟨rfl, rfl, rfl, fun u c w hgone hrequest => step_of_not_admits hrequest fun i ha => ?_⟩
    cases hgone.symm.trans ha.life
  · rw [step_of_detach hn, State.detach_of_not (s := s.takeTurn) h]

end Sys2Proof.Machine
end
